-- ==== Sys2Proof/Word.lean ====
section
/-! DEFINITION. The word types of the block (00_scope R7, R9): a byte, a 64-bit value, a 4-bit counter. -/

namespace Sys2Proof

/-- `BYTE_W = 8` (00_scope R7): a byte of DST or of SRC. -/
abbrev Byte := BitVec 8

/-- `VALUE_W = 64` (00_scope R7): a value, a threshold, the short-form word, the reassembled integer. -/
abbrev Word := BitVec 64

/-- `CAP_W`, `IDX_W`, `KIND_W`, `NREAD_W` = 4 (00_scope R7): a length, an index, a count, an error kind. -/
abbrev Nib := BitVec 4

end Sys2Proof
end

