-- ==== Sys2Proof/Config.lean ====
section
/-! DEFINITION. The parameters of 00_scope R7. Every one is fixed for this hardware; none is left for an implementation. -/

namespace Sys2Proof.Config

/-- `MIN_LEN` (R7): the shortest encoding, and the ladder's start (R101). -/
def minLen : Nib := 1

/-- `MAX_SHORT_LEN` (R7): the longest short form; the ladder's last length (R101). -/
def maxShortLen : Nib := 8

/-- `ESC_LEN` (R7): the length of the escape form. -/
def escLen : Nib := 9

/-- `STEP_BITS` (R7): value bits gained per byte of short form. -/
def stepBits : Nat := 7

/-- `FIRST_THRESHOLD` (R7): 2^7, the first rung of the ladder. -/
def firstThreshold : Word := 128

/-- `ESC_THRESHOLD` (R7): 2^56, the smallest value of the escape form. -/
def escThreshold : Word := 72057594037927936

/-- `ESC_MARK` (R7): the first byte of the escape form. -/
def escMark : Byte := 0x00

/-- The one source-error kind with a meaning (20_memory R55): end of input. The others are `P_KINDS`. -/
def kindEndOfInput : Nib := 0x1

end Sys2Proof.Config
end

