-- ==== Sys2Proof/Machine/Operands.lean ====
section
/-! DEFINITION. SHCMP (42_shifter_comparator): the shifter, the comparator, the trailing-zero count, byte pick and
byte assembly, and the two threshold tables.  Pure functions (R179). -/

namespace Sys2Proof.Machine

/-- `SHL64(x, n)` (R170): logical left shift; bits past bit 63 are dropped, `n >= 64` gives 0. -/
def shl64 (x : Word) (n : Nat) : Word := x <<< n

/-- `SHR64(x, n)` (R171): logical right shift; zeros enter at the top, `n >= 64` gives 0. -/
def shr64 (x : Word) (n : Nat) : Word := x >>> n

/-- `GE64(a, b)` (R172): unsigned `a >= b`. -/
def ge64 (a b : Word) : Bool := decide (b.toNat ≤ a.toNat)

/-- `LT64(a, b)` (R172): unsigned `a < b`. -/
def lt64 (a b : Word) : Bool := decide (a.toNat < b.toNat)

/-- `CTZ8(b)` (R173): the index of the lowest set bit; `CTZ8(0) = 8`. -/
def ctz8 (b : Byte) : Nib :=
  if b.getLsbD 0 then 0
  else if b.getLsbD 1 then 1
  else if b.getLsbD 2 then 2
  else if b.getLsbD 3 then 3
  else if b.getLsbD 4 then 4
  else if b.getLsbD 5 then 5
  else if b.getLsbD 6 then 6
  else if b.getLsbD 7 then 7
  else 8

/-- `BYTE(x, j)` (R174): `x[8j+7:8j]`.  The rule gives `j` 0 to 7; a larger `j` picks 0 (DESIGN CHOICE, log entry 18;
safe: no step of a reachable state asks for one). -/
def byteOf (x : Word) (j : Nat) : Byte := x.extractLsb' (8 * j) 8

/-- `LE_ASM(b_0, ..., b_{m-1})` (R175): the OR over `j` of `SHL64(zext_64(b_j), 8j)`.  The rule gives `m` 1 to 8; of no
byte it is 0, and bytes past the eighth are dropped (DESIGN CHOICE, log entry 18; safe: no instruction assembles so). -/
def leAsm : List Byte → Word
  | [] => 0
  | b :: bs => b.setWidth 64 ||| shl64 (leAsm bs) 8

/-- `T(k) = 2^(7k)`, `k = 1 .. 8` (R177).  The rule gives no `T(0)` and says there is no `T(9)`; `T(0)` is 1, `T(9)` is
2^63 and `T(k)` is 0 from `k = 10` on (DESIGN CHOICE, log entry 18; safe: no step of a reachable state asks for one). -/
def rungT (k : Nat) : Word := shl64 1 (Config.stepBits * k)

/-- `M(L) = T(L-1)`, `L = 2 .. 8` (R178); `M(1) = 0`, which the rule allows.  Outside these the rule gives nothing: `M(0)`
is 0 and `M(L)` from `L = 9` on is `rungT (L - 1)`, that is 2^56, 2^63, then 0 (DESIGN CHOICE, log entry 18; safe: a
reachable state has `D_ESC = 0` with `D_LEN` 1 to 8 only). -/
def minM (len : Nat) : Word := if len ≤ 1 then 0 else rungT (len - 1)

end Sys2Proof.Machine
end

