-- ==== Sys2Proof/Machine/State.lean ====
section
/-! DEFINITION. Everything the spec gives the machine, as plain data: the registers of ENC and DEC (10_state R23, R24,
R25), the caller's two byte spaces (20_memory R50 to R56), what stands on the channels (10_state R30), the events that
have occurred, and the schedule of turns (60_exceptions R203).  `State.reset` is the block after reset (70_reset R220). -/

namespace Sys2Proof.Machine

/-- The phases of ENC (R23).  Their numeric encoding is not architected. -/
inductive EPhase where
  | idle | ladder | emit | resp | frsp | fault
  deriving DecidableEq, Repr

/-- The phases of DEC (R24): `IDLE`, `PREFIX` (here `head`, waiting for the first byte), `CONT`, `RESP`. -/
inductive DPhase where
  | idle | head | cont | resp
  deriving DecidableEq, Repr

/-- The four statuses (60_exceptions R190); their 2-bit codes are `Status.code`. -/
inductive Status where
  | ok | bufferTooSmall | endOfInput | malformedVarint
  deriving DecidableEq, Repr

/-- Unit ENC: the working registers of R23 and its response registers of R25. -/
structure Enc where
  /-- `E_PH` -/
  ph : EPhase
  /-- `E_VAL` -/
  val : Word
  /-- `E_CAP` -/
  cap : Nib
  /-- `E_LEN` -/
  len : Nib
  /-- `E_THR` -/
  thr : Word
  /-- `E_ENC` -/
  word : Word
  /-- `E_IDX` -/
  idx : Nib
  /-- `ENC_STATUS` -/
  status : Status
  /-- `ENC_LEN` -/
  rlen : Nib
  deriving DecidableEq, Repr

/-- Unit DEC: the working registers of R24 and its response registers of R25. -/
structure Dec where
  /-- `D_PH` -/
  ph : DPhase
  /-- `D_ESC` -/
  esc : Bool
  /-- `D_LEN` -/
  len : Nib
  /-- `D_CNT` -/
  cnt : Nib
  /-- `D_ACC` -/
  acc : Word
  /-- `DEC_STATUS` -/
  status : Status
  /-- `DEC_VALUE` -/
  value : Word
  /-- `DEC_KIND` -/
  kind : Nib
  /-- `DEC_NREAD` -/
  nread : Nib
  deriving DecidableEq, Repr

/-- An event of the SRC channel (20_memory R55): a byte, which is consumed, or an error of a kind, which consumes no
byte. -/
inductive SrcEvent where
  | byte (b : Byte)
  | err (k : Nib)
  deriving DecidableEq, Repr

/-- The interface alphabet (10_state R30), and the input `reset` (70_reset R220). -/
inductive Event where
  | encCmd (value : Word) (cap : Nib)
  | dstWrite (i : Nib) (b : Byte)
  | encRsp (status : Status) (len : Nib)
  | decCmd
  | srcByte (b : Byte)
  | srcErr (k : Nib)
  | decRsp (status : Status) (value : Word) (kind nread : Nib)
  | reset
  deriving DecidableEq, Repr

/-- The channels an operation can be taken from (30_encoding R81; SRC for the wire forms, R85). -/
inductive Channel where
  | encCmd | decCmd | src
  deriving DecidableEq, Repr

/-- What the host does on its own side of the interface (60_exceptions R203; the script lines of 30_encoding R84). -/
inductive HostAct where
  /-- Offer a further command on `enc_cmd`. -/
  | offerEnc (word : BitVec 68)
  /-- Withdraw the command on offer on `enc_cmd`. -/
  | withdrawEnc
  /-- Offer a further command on `dec_cmd`. -/
  | offerDec
  /-- Withdraw a command on offer on `dec_cmd`. -/
  | withdrawDec
  /-- Write one byte of the host's own buffer DST. -/
  | putDst (i : Nat) (b : Byte)
  /-- Present another buffer, of this size and contents (`.dst`). -/
  | setDst (bytes : List Byte)
  /-- Exchange what the source will deliver (`.src`). -/
  | setSrc (events : List SrcEvent)
  /-- The source will deliver these events after those it has. -/
  | feedSrc (events : List SrcEvent)
  deriving DecidableEq, Repr

/-- One turn of the schedule: which agent moves next, and on which channel.  `op` carries a whole operation out without
another agent's turn in between (92 D23, 70_reset R231: micro-steps may be fused); every other turn is at most one
micro-step. -/
inductive Turn where
  /-- A whole operation, from its command (or its first byte) to its response. -/
  | op (ch : Channel)
  /-- The `enc_cmd` event: E-ACCEPT. -/
  | encCmd
  /-- ENC's own micro-step: E-UP, E-ESC, E-SHORT or E-EMIT. -/
  | encOwn
  /-- The host takes `enc_rsp`: E-RESP or E-FRSP. -/
  | encRsp
  /-- The `dec_cmd` event: D-ACCEPT. -/
  | decCmd
  /-- The source delivers its next event: D-PREFIX, D-PREFIX-ERR, D-CONT or D-CONT-ERR. -/
  | srcEvent
  /-- The host takes `dec_rsp`: D-RESP. -/
  | decRsp
  /-- The input `reset`. -/
  | reset
  /-- The host acts on its own side. -/
  | host (a : HostAct)
  deriving DecidableEq, Repr

/-- The state of the block and of the environment it touches.  No field is a function. -/
structure State where
  /-- Unit ENC. -/
  enc : Enc
  /-- Unit DEC. -/
  dec : Dec
  /-- The bytes of DST that are known: (index, byte), indices strictly rising (20_memory R51). -/
  dst : List Host.Cell
  /-- How many bytes the host's buffer really has (70_reset R225). -/
  dstSize : Nat
  /-- What the source will deliver, next event first (20_memory R54). -/
  src : List SrcEvent
  /-- The source cursor (10_state R22). -/
  cursor : Nat
  /-- The `enc_cmd` payloads the host offers, the one on offer first. -/
  encCmds : List (BitVec 68)
  /-- How many `dec_cmd` the host offers. -/
  decCmds : Nat
  /-- The turns to come. -/
  sched : List Turn
  /-- The events that have occurred, oldest first. -/
  trace : List Event
  deriving DecidableEq, Repr

/-- Why the machine stops. -/
inductive Fault where
  /-- Raised by the write port of ENC (`memWrite`) for an index at or past the end of the host's buffer, a byte that
  does not exist (20_memory R51).  Safe: rule R52 says ENC never issues such a write, and the invariant rules it out. -/
  | dstOutside (index : Nat)
  deriving DecidableEq, Repr

/-- Why the model has no move. -/
inductive Refusal where
  /-- An instruction that has no meaning yet; no arm of `exec` is such.  Safe. -/
  | notModelled (mnemonic : String)
  /-- Raised by the acceptance of `enc_cmd` (`encAccept`, `execEncode`) when `cap` says more than the buffer has: "the
  model has no move for it" (70_reset R225, 60_exceptions R206, 93 U10).  Safe. -/
  | capOverstated
  /-- Raised by the host's turn `setDst` while an ENCODE holds the buffer (70_reset R226; log entry 15).  Safe. -/
  | dstInUse
  /-- Raised by the host's turn `setSrc` while a DECODE holds the source (70_reset R227, 93 U13).  Safe. -/
  | srcInUse
  deriving DecidableEq, Repr

/-- The registers of ENC at reset (R23, R25, R220). -/
def Enc.reset : Enc :=
  { ph := .idle, val := 0, cap := 0, len := 0, thr := 0, word := 0, idx := 0, status := .ok, rlen := 0 }

/-- The registers of DEC at reset (R24, R25, R220). -/
def Dec.reset : Dec :=
  { ph := .idle, esc := false, len := 0, cnt := 0, acc := 0, status := .ok, value := 0, kind := 0, nread := 0 }

/-- The block right after reset, at the start of a launch of which nothing is known: no buffer contents, a source that
has delivered nothing, no command on offer, no turn (DESIGN CHOICE, log entries 7 and 8: the launch's own data). -/
def State.reset : State :=
  { enc := Enc.reset, dec := Dec.reset, dst := [], dstSize := 15, src := [], cursor := 0,
    encCmds := [], decCmds := 0, sched := [], trace := [] }

/-! ### One update per part of the state -/

/-- Replace the registers of ENC. -/
def State.setEnc (s : State) (e : Enc) : State := { s with enc := e }
/-- Replace the registers of DEC. -/
def State.setDec (s : State) (d : Dec) : State := { s with dec := d }
/-- Replace the contents of DST. -/
def State.setDst (s : State) (m : List Host.Cell) : State := { s with dst := m }
/-- Replace the size of DST. -/
def State.setDstSize (s : State) (n : Nat) : State := { s with dstSize := n }
/-- Replace what the source will deliver. -/
def State.setSrc (s : State) (es : List SrcEvent) : State := { s with src := es }
/-- Replace the source cursor. -/
def State.setCursor (s : State) (n : Nat) : State := { s with cursor := n }
/-- Replace the commands on offer on `enc_cmd`. -/
def State.setEncCmds (s : State) (ws : List (BitVec 68)) : State := { s with encCmds := ws }
/-- Replace the commands on offer on `dec_cmd`. -/
def State.setDecCmds (s : State) (n : Nat) : State := { s with decCmds := n }
/-- Replace the schedule. -/
def State.setSched (s : State) (ts : List Turn) : State := { s with sched := ts }
/-- An event occurs. -/
def State.emit (s : State) (e : Event) : State := { s with trace := s.trace ++ [e] }

end Sys2Proof.Machine
end

