-- ==== Sys2Proof/Machine/Flags.lean ====
section
/-! DEFINITION. The status codes, the one flag, and the tests the units make: the capacity check, the two canonicality
checks, the truthfulness of `cap`. -/

namespace Sys2Proof.Machine

/-- The 2-bit status codes (60_exceptions R190). -/
def Status.code : Status → BitVec 2
  | .ok => 0b00
  | .bufferTooSmall => 0b01
  | .endOfInput => 0b10
  | .malformedVarint => 0b11

/-- `ENC_FAULT` (10_state R27): `E_PH = FAULT or E_PH = FRSP`. -/
def encFault (e : Enc) : Bool := e.ph == .fault || e.ph == .frsp

/-- The capacity check fails (40_encoder R107): `cap < L`, 4-bit unsigned (42 R181). -/
def capShort (cap len : Nib) : Bool := decide (cap.toNat < len.toNat)

/-- `cap` says more than the buffer really has (70_reset R225); 9 to 15 all mean "at least 9" (20_memory R51). -/
def capOverstated (cap : Nib) (size : Nat) : Bool := decide (size < min cap.toNat 9)

/-- The number the bytes of an encoding carry: FINISH's `v` (41_decoder R138, R147). -/
def recovered (esc : Bool) (len : Nib) (acc : Word) : Word :=
  if esc then acc else shr64 acc len.toNat

/-- A canonicality check fails: FINISH's `bad` (41_decoder R134, R139, R147). -/
def nonCanonical (esc : Bool) (len : Nib) (v : Word) : Bool :=
  if esc then lt64 v Config.escThreshold else decide (1 < len.toNat) && lt64 v (minM len.toNat)

end Sys2Proof.Machine
end

