-- ==== Sys2Proof/Machine/Ops.lean ====
section
/-! DEFINITION. The named operations: DST as a list of cells, the write port, the byte source, ending an operation with
an error or with a result, delivering a response, and reset. -/

namespace Sys2Proof.Machine

/-! ### DST as data -/

/-- The canonical form: indices strictly rising.  An unlisted index holds no known byte, so no entry can equal it. -/
def Memory.wf : List Host.Cell → Bool
  | [] => true
  | [_] => true
  | (a, _) :: (a', b') :: m => decide (a < a') && Memory.wf ((a', b') :: m)

/-- The byte at an index; `none` where nothing is known of it (the launch's `P_DST0`; log entry 8). -/
def Memory.read (m : List Host.Cell) (a : Nat) : Option Byte :=
  match m with
  | [] => none
  | (a', b) :: m' => if a = a' then some b else Memory.read m' a

/-- Write one byte, keeping the canonical form. -/
def Memory.write (m : List Host.Cell) (a : Nat) (b : Byte) : List Host.Cell :=
  match m with
  | [] => [(a, b)]
  | (a', b') :: m' =>
    if a < a' then (a, b) :: (a', b') :: m'
    else if a = a' then (a, b) :: m'
    else (a', b') :: Memory.write m' a b

/-- Bytes laid from an index upward. -/
def Memory.writeBytes (m : List Host.Cell) (a : Nat) : List Byte → List Host.Cell
  | [] => m
  | b :: bs => Memory.writeBytes (Memory.write m a b) (a + 1) bs

/-! ### Outcomes in sequence -/

/-- Go on from a next state; a stop stays a stop. -/
def andThen (o : Host.Outcome State Fault Refusal) (f : State → Host.Outcome State Fault Refusal) :
    Host.Outcome State Fault Refusal :=
  match o with
  | .next s => f s
  | .fault r => .fault r
  | .refused r => .refused r

/-! ### The two accesses (20_memory R52, R55) -/

/-- `MemWrite(DST, i, 1, b)` (R52), with its event; an index the buffer does not have is a fault (R51). -/
def memWrite (i : Nib) (b : Byte) (s : State) : Host.Outcome State Fault Refusal :=
  if i.toNat < s.dstSize then .next ((s.setDst (Memory.write s.dst i.toNat b)).emit (.dstWrite i b))
  else .fault (.dstOutside i.toNat)

/-- `MemRead(SRC, 1)` (R55): the next event, with the state after it, or `none` while the source stalls (R54).
A byte is consumed and the cursor advances; an error consumes no byte (R56). -/
def memRead (s : State) : Option (SrcEvent × State) :=
  match s.src with
  | [] => none
  | .byte b :: es => some (.byte b, ((s.setSrc es).setCursor (s.cursor + 1)).emit (.srcByte b))
  | .err k :: es => some (.err k, (s.setSrc es).emit (.srcErr k))

/-! ### Ending an operation -/

/-- An error kind with what it records (60_exceptions R190). -/
inductive ErrorInfo where
  | bufferTooSmall
  | endOfInput (kind nread : Nib)
  | malformedVarint (nread : Nib)
  deriving DecidableEq, Repr

/-- "Trap entry" (60_exceptions R196): the response registers take the error status and what it records, and the unit
goes to the phase that delivers it.  The working registers keep what they held. -/
def State.raise (s : State) : ErrorInfo → State
  | .bufferTooSmall =>
    s.setEnc { s.enc with status := .bufferTooSmall, rlen := 0, ph := .frsp }
  | .endOfInput k n =>
    s.setDec { s.dec with status := .endOfInput, value := 0, kind := k, nread := n, ph := .resp }
  | .malformedVarint n =>
    s.setDec { s.dec with status := .malformedVarint, value := 0, kind := 0, nread := n, ph := .resp }

/-- ENCODE ends with OK and `len` (40_encoder R106). -/
def State.succeedEnc (s : State) (len : Nib) : State :=
  s.setEnc { s.enc with status := .ok, rlen := len, ph := .resp }

/-- DECODE ends with OK, `value` and `nread` (41_decoder R140). -/
def State.succeedDec (s : State) (value : Word) (nread : Nib) : State :=
  s.setDec { s.dec with status := .ok, value := value, kind := 0, nread := nread, ph := .resp }

/-- FINISH (41_decoder R147): the canonicality check, once, after the last byte. -/
def State.finish (s : State) : State :=
  if nonCanonical s.dec.esc s.dec.len (recovered s.dec.esc s.dec.len s.dec.acc) then
    s.raise (.malformedVarint s.dec.cnt)
  else s.succeedDec (recovered s.dec.esc s.dec.len s.dec.acc) s.dec.cnt

/-- E-RESP and E-FRSP (40_encoder R110): the host takes `enc_rsp`; in no other phase is the event enabled (R112). -/
def State.deliverEnc (s : State) : State :=
  match s.enc.ph with
  | .resp => (s.emit (.encRsp .ok s.enc.rlen)).setEnc { s.enc with ph := .idle }
  | .frsp => (s.emit (.encRsp .bufferTooSmall 0)).setEnc { s.enc with ph := .fault }
  | .idle => s
  | .ladder => s
  | .emit => s
  | .fault => s

/-- D-RESP (41_decoder R147): the host takes `dec_rsp`; in no other phase is the event enabled (R149). -/
def State.deliverDec (s : State) : State :=
  match s.dec.ph with
  | .resp =>
    (s.emit (.decRsp s.dec.status s.dec.value s.dec.kind s.dec.nread)).setDec { s.dec with ph := .idle }
  | .idle => s
  | .head => s
  | .cont => s

/-! ### Reset (70_reset R220, R221) -/

/-- Every register to its reset value; DST, SRC, the cursor and what the host offers stay (R220).  An operation in flight
is abandoned and a pending response dropped (R221). -/
def State.applyReset (s : State) : State :=
  ((s.setEnc Enc.reset).setDec Dec.reset).emit .reset

end Sys2Proof.Machine
end

