-- ==== Sys2Proof/Machine/DecUnit.lean ====
section
/-! DEFINITION. The micro-steps of unit DEC (41_decoder R147). -/

namespace Sys2Proof.Machine

/-- D-ACCEPT on a `dec_cmd` event, in `IDLE` (R147, R148); in any other phase the command waits. -/
def decAccept (s : State) : State :=
  if s.dec.ph = .idle then
    (s.emit .decCmd).setDec { s.dec with esc := false, len := 0, cnt := 0, acc := 0, ph := .head }
  else s

/-- D-PREFIX (R147): the first byte tells the length (R132, R135). -/
def decFirst (b : Byte) (s : State) : State :=
  if b = Config.escMark then
    s.setDec { s.dec with cnt := 1, esc := true, len := Config.escLen, acc := 0, ph := .cont }
  else
    let s' := s.setDec { s.dec with cnt := 1, esc := false, len := 1 + ctz8 b, acc := b.setWidth 64 }
    if s'.dec.len = 1 then s'.finish else s'.setDec { s'.dec with ph := .cont }

/-- Where D-CONT puts the byte (R147): `D_CNT - 1` in the escape form, else `D_CNT`.  The rule gives `pos` 0 to 7; with
`D_ESC = 1` and `D_CNT = 0` it is 0, with no 4-bit wrap, so the byte lands at bits 7:0, and from 8 on the byte is shifted
out as R170 says (DESIGN CHOICE, log entry 18; safe: a reachable `CONT` has `D_CNT` 1 to 8). -/
def Dec.pos (d : Dec) : Nat := if d.esc then d.cnt.toNat - 1 else d.cnt.toNat

/-- D-CONT (R147). -/
def decMore (b : Byte) (s : State) : State :=
  let s' := s.setDec { s.dec with
    acc := s.dec.acc ||| shl64 (b.setWidth 64) (8 * s.dec.pos), cnt := s.dec.cnt + 1 }
  if s'.dec.cnt = s'.dec.len then s'.finish else s'

/-- D-PREFIX or D-CONT on a byte, D-PREFIX-ERR or D-CONT-ERR on an error (R147).  The state is the one after the event;
the error path leaves `D_CNT` as it was, and D-PREFIX-ERR reports 0. -/
def decTake (ev : SrcEvent) (s : State) : State :=
  match s.dec.ph, ev with
  | .head, .byte b => decFirst b s
  | .head, .err k => s.raise (.endOfInput k 0)
  | .cont, .byte b => decMore b s
  | .cont, .err k => s.raise (.endOfInput k s.dec.cnt)
  | .idle, .byte _ => s
  | .idle, .err _ => s
  | .resp, .byte _ => s
  | .resp, .err _ => s

/-- DEC waits for a source event (10_state R30): `D_PH = PREFIX` or `D_PH = CONT`. -/
def Dec.wantsSrc (d : Dec) : Bool := d.ph == .head || d.ph == .cont

/-- The source delivers its next event, if DEC wants one and the source has one; otherwise both wait (R143, R149). -/
def srcStep (s : State) : State :=
  if s.dec.wantsSrc then
    match memRead s with
    | none => s
    | some (ev, s') => decTake ev s'
  else s

end Sys2Proof.Machine
end

