-- ==== Sys2Proof/Machine/Decoding.lean ====
section
/-! DEFINITION. The operation DECODE as a whole (41_decoder R130), from its command to its response, or to the point
where the source stalls. -/

namespace Sys2Proof.Machine

/-- The continuation reads and the check (R130, R133, R136): `n` bytes still to read, the next one for position `j` of the
little-endian integer.  The operation waits in `CONT` while the source stalls (R143). -/
def readRest : Nat → Nat → State → State
  | 0, _, s => s.finish
  | n + 1, j, s =>
    match memRead s with
    | none => s.setDec { s.dec with ph := .cont }
    | some (.err k, s') => s'.raise (.endOfInput k s'.dec.cnt)
    | some (.byte b, s') =>
      readRest n (j + 1) (s'.setDec { s'.dec with
        acc := s'.dec.acc ||| shl64 (b.setWidth 64) (8 * j), cnt := s'.dec.cnt + 1 })

/-- DECODE after its command (R130): the prefix read (R131), the escape test (R132), the rest. -/
def readAll (s : State) : State :=
  match memRead s with
  | none => s
  | some (.err k, s') => s'.raise (.endOfInput k 0)
  | some (.byte b, s') =>
    if b = Config.escMark then
      readRest 8 0 (s'.setDec { s'.dec with cnt := 1, esc := true, len := Config.escLen, acc := 0 })
    else
      readRest (ctz8 b).toNat 1
        (s'.setDec { s'.dec with cnt := 1, esc := false, len := 1 + ctz8 b, acc := b.setWidth 64 })

/-- DECODE (R130).  DEC accepts it in `IDLE` only (R148): in any other phase the command waits and nothing happens. -/
def execDecode (s : State) : Host.Outcome State Fault Refusal :=
  if s.dec.ph = .idle then .next (readAll (decAccept s)).deliverDec
  else .next s

end Sys2Proof.Machine
end

