-- ==== Sys2Proof/Syntax.lean ====
section
/-! DEFINITION. The eleven rows of the opcode table (30_encoding R85): nine wire forms and two operations. -/

namespace Sys2Proof

/-- An instruction of the block.  A wire form carries its payload `P` as the value `zext_64(P)`
(30_encoding R71, R73); that the payload fits the form's `7L` bits is `Instr.wellFormed`. -/
inductive Instr where
  /-- Short form of 1 byte (R72). -/
  | vi1 (value : Word)
  /-- Short form of 2 bytes (R72). -/
  | vi2 (value : Word)
  /-- Short form of 3 bytes (R72). -/
  | vi3 (value : Word)
  /-- Short form of 4 bytes (R72). -/
  | vi4 (value : Word)
  /-- Short form of 5 bytes (R72). -/
  | vi5 (value : Word)
  /-- Short form of 6 bytes (R72). -/
  | vi6 (value : Word)
  /-- Short form of 7 bytes (R72). -/
  | vi7 (value : Word)
  /-- Short form of 8 bytes (R72). -/
  | vi8 (value : Word)
  /-- The escape form, 9 bytes (R73). -/
  | viesc (value : Word)
  /-- The command `enc_cmd(value, cap)` (R80, R82). -/
  | encode (value : Word) (cap : Nib)
  /-- The command `dec_cmd` (R80, R82). -/
  | decode
  deriving DecidableEq, Repr

end Sys2Proof
end

