-- ==== Sys2Proof/WellFormed.lean ====
section
/-! DEFINITION. Well-formedness: a short form's payload fits its `7L` bits (30_encoding R71).
Well-formed is not canonical: a well-formed payload below its length's least value is an illegal encoding
that DEC takes and ends with MalformedVarint (R77). -/

namespace Sys2Proof

/-- `W[8L-1:L]` has `7L` bits (R71): the payload is below `2^(7L)`. -/
def fitsShort (len : Nat) (value : Word) : Bool := decide (value.toNat < 2 ^ (7 * len))

/-- Every operand fits the field its encoding gives it.  In `enc_cmd` every bit pattern is legal (R80). -/
def Instr.wellFormed : Instr → Bool
  | .vi1 v => fitsShort 1 v
  | .vi2 v => fitsShort 2 v
  | .vi3 v => fitsShort 3 v
  | .vi4 v => fitsShort 4 v
  | .vi5 v => fitsShort 5 v
  | .vi6 v => fitsShort 6 v
  | .vi7 v => fitsShort 7 v
  | .vi8 v => fitsShort 8 v
  | .viesc _ => true
  | .encode _ _ => true
  | .decode => true

end Sys2Proof
end

