-- ==== Sys2Proof/Decode.lean ====
section
/-! DEFINITION. The decoder of the wire forms and of the command words, and after it the encoder
(30_encoding R70 to R85). -/

namespace Sys2Proof

open Sys2Proof.Machine (shl64 shr64 leAsm byteOf)

/-- What arrives on a channel: the channel selects the operation, there is no opcode field (R81).
`enc` is the 68-bit payload of `enc_cmd`, `dec` the empty payload of `dec_cmd`, `wire` bytes of SRC (R80). -/
inductive Packet where
  | enc (word : BitVec 68)
  | dec
  | wire (bytes : List Byte)
  deriving DecidableEq, Repr

/-- Why bytes are not an instruction. -/
inductive Reject where
  /-- There is no first byte. -/
  | noByte
  /-- Fewer bytes than the form the first byte selects: truncated, not illegal (R78). -/
  | truncated (need got : Nat)
  /-- No row of the table has this length or this first byte; R72 says every first byte has one. -/
  | noRow
  deriving DecidableEq, Repr

/-- One wire row of the opcode table (R72, R85): `(b & mask) = pattern` selects length `len`. -/
structure WireRow where
  len : Nat
  mask : Byte
  pattern : Byte
  deriving DecidableEq, Repr

/-- The nine wire rows, as the table lists them (R72). -/
def wireRows : List WireRow :=
  [ ⟨1, 0x01, 0x01⟩, ⟨2, 0x03, 0x02⟩, ⟨3, 0x07, 0x04⟩, ⟨4, 0x0F, 0x08⟩, ⟨5, 0x1F, 0x10⟩,
    ⟨6, 0x3F, 0x20⟩, ⟨7, 0x7F, 0x40⟩, ⟨8, 0xFF, 0x80⟩, ⟨9, 0xFF, 0x00⟩ ]

/-- The row's own test on a first byte (R72). -/
def WireRow.matchesByte (r : WireRow) (b : Byte) : Bool := b &&& r.mask == r.pattern

/-- The row a first byte selects (R72, R85). -/
def rowOf (b : Byte) : Option WireRow := wireRows.find? (fun r => r.matchesByte b)

/-- The wire form of a length (R85). -/
def instrOfLen (len : Nat) (value : Word) : Option Instr :=
  match len with
  | 1 => some (.vi1 value)
  | 2 => some (.vi2 value)
  | 3 => some (.vi3 value)
  | 4 => some (.vi4 value)
  | 5 => some (.vi5 value)
  | 6 => some (.vi6 value)
  | 7 => some (.vi7 value)
  | 8 => some (.vi8 value)
  | 9 => some (.viesc value)
  | _ => none

/-- The payload of one whole encoding (R79): `SHR64(LE_ASM(bytes 0 .. L-1), L)`, or `LE_ASM(bytes 1 .. 8)` for the
escape form. -/
def payloadOf (len : Nat) (bytes : List Byte) : Word :=
  if len = 9 then leAsm (bytes.drop 1) else shr64 (leAsm bytes) len

/-- One encoding off the front of a byte string (R85: find the row, read `L`, take `L` bytes, apply R79), with the bytes
after it, which are not looked at (R78). -/
def decodeWire (bytes : List Byte) : Except Reject (Instr × List Byte) :=
  match bytes with
  | [] => .error .noByte
  | b :: _ =>
    match rowOf b with
    | none => .error .noRow
    | some r =>
      if bytes.length < r.len then .error (.truncated r.len bytes.length)
      else
        match instrOfLen r.len (payloadOf r.len (bytes.take r.len)) with
        | none => .error .noRow
        | some i => .ok (i, bytes.drop r.len)

/-- The `value` field of an `enc_cmd` payload (R80): [63:0]. -/
def encWordValue (w : BitVec 68) : Word := w.extractLsb' 0 64

/-- The `cap` field of an `enc_cmd` payload (R80): [67:64]. -/
def encWordCap (w : BitVec 68) : Nib := w.extractLsb' 64 4

/-- The decoder, total on what any channel carries. -/
def decode : Packet → Except Reject (Instr × List Byte)
  | .enc w => .ok (.encode (encWordValue w) (encWordCap w), [])
  | .dec => .ok (.decode, [])
  | .wire bytes => decodeWire bytes

/-! ### The encoder -/

/-- `W = (value << L) | (1 << (L-1))` (R71), `L = 1 .. 8`; for `L = 0` the amount `L - 1` is 0 (DESIGN CHOICE, log entry 18;
no instruction has that length), and bits past bit 63 are dropped (log entry 21). -/
def wireWord (len : Nat) (value : Word) : Word := (value <<< len) ||| ((1 : Word) <<< (len - 1))

/-- The short form's bytes: byte `j` is `W[8j+7:8j]`, `j = 0 .. L-1` (R71). -/
def shortBytes (len : Nat) (value : Word) : List Byte :=
  (List.range len).map (byteOf (wireWord len value))

/-- The escape form's bytes (R73). -/
def escBytes (value : Word) : List Byte := Config.escMark :: (List.range 8).map (byteOf value)

/-- `enc_cmd` payload (R80). -/
def encodeEncWord (value : Word) (cap : Nib) : BitVec 68 := cap ++ value

/-- The words of an instruction. -/
def encode : Instr → Packet
  | .vi1 v => .wire (shortBytes 1 v)
  | .vi2 v => .wire (shortBytes 2 v)
  | .vi3 v => .wire (shortBytes 3 v)
  | .vi4 v => .wire (shortBytes 4 v)
  | .vi5 v => .wire (shortBytes 5 v)
  | .vi6 v => .wire (shortBytes 6 v)
  | .vi7 v => .wire (shortBytes 7 v)
  | .vi8 v => .wire (shortBytes 8 v)
  | .viesc v => .wire (escBytes v)
  | .encode v c => .enc (encodeEncWord v c)
  | .decode => .dec

/-- The bytes of a packet that arrives on SRC; a command has none. -/
def Packet.wireBytes : Packet → List Byte
  | .wire bs => bs
  | .enc _ => []
  | .dec => []

/-! ### The opcode table's own numbering -/

/-- The first `n` bytes of a number, least significant first: bytes as SRC delivers them (20_memory R57). -/
def bytesOfNat (n w : Nat) : List Byte := (List.range n).map (fun j => BitVec.ofNat 8 (w / 2 ^ (8 * j)))

/-- The packet an opcode-table word stands for.  The table has no field that names the channel (R81), so the width
stands for it: 0 bits is `dec_cmd`; 68 bits, or 72 bits with a non-zero first byte (no 9-byte wire form begins so), is
`enc_cmd`; every other width is of a wire form (DESIGN CHOICE, log entry 11).  The table's match (R85) is over the first
byte only and no rule gives its words a width, so (DESIGN CHOICE, log entry 25): a word narrower than the form its first
byte selects (0x80 at 8 bits) stands for that form with every missing byte 0 (`vi8 0`), though bytes of SRC that end there
are truncated (R78); a word wider than that form (0x01FF at 16 bits) stands for nothing, though bytes of SRC after the
form are left unread (R78); and so does a word with a bit set past its width, or past the 68 of `enc_cmd`. -/
def tablePacket (nbits w : Nat) : Option Packet :=
  if nbits = 0 then (if w = 0 then some .dec else none)
  else if nbits = 68 ∨ (nbits = 72 ∧ w % 256 ≠ 0) then
    (if w < 2 ^ 68 then some (.enc (BitVec.ofNat 68 w)) else none)
  else
    match rowOf (BitVec.ofNat 8 w) with
    | none => none
    | some r => if nbits ≤ 8 * r.len ∧ w < 2 ^ nbits then some (.wire (bytesOfNat r.len w)) else none

/-- The instruction the decoder reads from an opcode-table word. -/
def decodeTableWord (nbits w : Nat) : Option Instr :=
  match tablePacket nbits w with
  | none => none
  | some p =>
    match decode p with
    | .ok (i, _) => some i
    | .error _ => none

end Sys2Proof
end

