-- ==== Sys2Proof/Machine/EncUnit.lean ====
section
/-! DEFINITION. The micro-steps of unit ENC (40_encoder R110). -/

namespace Sys2Proof.Machine

/-- The registers E-ACCEPT leaves (R110). -/
def Enc.accept (e : Enc) (value : Word) (cap : Nib) : Enc :=
  { e with val := value, cap := cap, len := Config.minLen, thr := Config.firstThreshold, ph := .ladder }

/-- The short-form word (R103): `SHL64(SHL64(value, 1) | 1, L - 1)`.  The spec gives `L` 1 to 8 (10_state R23); for `L = 0`
the amount `L - 1` is 0, with no 4-bit wrap (DESIGN CHOICE, log entry 18; safe: no reachable `LADDER` has `E_LEN = 0`). -/
def shortWord (value : Word) (len : Nib) : Word := shl64 (shl64 value 1 ||| 1) (len.toNat - 1)

/-- E-ACCEPT on an `enc_cmd(value, cap)` event, in `IDLE` (R110, R111); in any other phase the command waits.  A `cap`
that overstates the buffer is outside the model (70_reset R225). -/
def encAccept (value : Word) (cap : Nib) (s : State) : Host.Outcome State Fault Refusal :=
  if s.enc.ph = .idle then
    if capOverstated cap s.dstSize then .refused .capOverstated
    else .next ((s.emit (.encCmd value cap)).setEnc (s.enc.accept value cap))
  else .next s

/-- The capacity check (R107), the tail of E-ESC and E-SHORT (R110). -/
def State.checkCap (s : State) : State :=
  if capShort s.enc.cap s.enc.len then s.raise .bufferTooSmall
  else s.setEnc { s.enc with idx := 0, ph := .emit }

/-- E-UP (R110). -/
def encUp (s : State) : State :=
  s.setEnc { s.enc with thr := shl64 s.enc.thr 7, len := s.enc.len + 1 }

/-- E-ESC (R110). -/
def encEsc (s : State) : State :=
  (s.setEnc { s.enc with len := Config.escLen }).checkCap

/-- E-SHORT (R110). -/
def encShort (s : State) : State :=
  (s.setEnc { s.enc with word := shortWord s.enc.val s.enc.len }).checkCap

/-- The byte E-EMIT writes (R110).  The rule gives `E_LEN = 9` and `E_LEN <= 8`; an `E_LEN` of 10 to 15 takes the byte of
`E_ENC` (DESIGN CHOICE, log entry 18; safe: no reachable state has one). -/
def Enc.outByte (e : Enc) : Byte :=
  if e.len = Config.escLen then
    (if e.idx = 0 then Config.escMark else byteOf e.val (e.idx.toNat - 1))
  else byteOf e.word e.idx.toNat

/-- After the write of E-EMIT: the index advances, and the last byte ends the operation (R110). -/
def State.advance (s : State) : State :=
  let s' := s.setEnc { s.enc with idx := s.enc.idx + 1 }
  if s'.enc.idx = s'.enc.len then s'.succeedEnc s'.enc.len else s'

/-- E-EMIT (R110). -/
def encEmit (s : State) : Host.Outcome State Fault Refusal :=
  andThen (memWrite s.enc.idx s.enc.outByte s) (fun s' => .next s'.advance)

/-- ENC's own micro-step: in `LADDER` exactly one of E-UP, E-ESC, E-SHORT, in `EMIT` E-EMIT; in the other phases none is
enabled and the unit waits (R110). -/
def encOwn (s : State) : Host.Outcome State Fault Refusal :=
  match s.enc.ph with
  | .ladder =>
    if ge64 s.enc.val s.enc.thr then
      (if s.enc.len = Config.maxShortLen then .next (encEsc s) else .next (encUp s))
    else .next (encShort s)
  | .emit => encEmit s
  | .idle => .next s
  | .resp => .next s
  | .frsp => .next s
  | .fault => .next s

end Sys2Proof.Machine
end

