-- ==== Sys2Proof/Machine/Encode.lean ====
section
/-! DEFINITION. The operation ENCODE as a whole (40_encoder R100), from its command to its response. -/

namespace Sys2Proof.Machine

/-- The threshold ladder (R100, R101) from length `len` and rung `thr`: the length and rung it ends at, and whether it
takes the escape.  `fuel` bounds the loop, which runs at most 8 times (R101); what it answers with none left is never used
(DESIGN CHOICE, log entry 18: from `climb` the loop ends first). -/
def ladder (value : Word) : Nat → Nib → Word → Nib × Word × Bool
  | 0, len, thr => (len, thr, false)
  | fuel + 1, len, thr =>
    if ge64 value thr then
      (if len = Config.maxShortLen then (len, thr, true)
       else ladder value fuel (len + 1) (shl64 thr 7))
    else (len, thr, false)

/-- The ladder from its start (R101). -/
def climb (value : Word) : Nib × Word × Bool :=
  ladder value 8 Config.minLen Config.firstThreshold

/-- The writes of R104 and R105: ascending index from `i`. -/
def emitBytes : List Byte → Nib → State → Host.Outcome State Fault Refusal
  | [], _, s => .next s
  | b :: bs, i, s => andThen (memWrite i b s) (emitBytes bs (i + 1))

/-- The bytes of R104 (short form, from the word) and R105 (escape form, from the value). -/
def outBytes (e : Enc) (esc : Bool) : List Byte :=
  if esc then Config.escMark :: (List.range 8).map (byteOf e.val)
  else (List.range e.len.toNat).map (byteOf e.word)

/-- The registers once the length is known (R101, R103): the short-form word is not computed on the escape path (R105). -/
def Enc.chosen (e : Enc) (value : Word) (cap : Nib) : Nib × Word × Bool → Enc
  | (len, thr, esc) =>
    { e with
      val := value, cap := cap, thr := thr,
      len := if esc then Config.escLen else len,
      word := if esc then e.word else shortWord value len }

/-- ENCODE (R100).  ENC accepts it in `IDLE` only (R111): in any other phase the command waits and nothing happens. -/
def execEncode (value : Word) (cap : Nib) (s : State) : Host.Outcome State Fault Refusal :=
  if s.enc.ph = .idle then
    if capOverstated cap s.dstSize then .refused .capOverstated
    else
      let s1 := (s.emit (.encCmd value cap)).setEnc (s.enc.chosen value cap (climb value))
      if capShort cap s1.enc.len then .next (s1.raise .bufferTooSmall).deliverEnc
      else
        andThen (emitBytes (outBytes s1.enc (climb value).2.2) 0 s1) (fun s2 =>
          .next ((s2.setEnc { s2.enc with idx := s2.enc.len }).succeedEnc s2.enc.len).deliverEnc)
  else .next s

end Sys2Proof.Machine
end

