-- ==== Sys2Proof/Machine/Wire.lean ====
section
/-! DEFINITION. The nine wire forms (30_encoding R85): what DEC does when the source delivers one whole encoding after a
`dec_cmd` (41_decoder R130, R147), response included. -/

namespace Sys2Proof.Machine

/-- The bytes of SRC are delivered to DEC one after another, each an event of its own (20_memory R64).  It is given
the bytes of one encoding only, so DEC asks for every one of them. -/
def takeBytes : List Byte → State → State
  | [], s => s
  | b :: bs, s =>
    takeBytes bs (decTake (.byte b) ((s.setCursor (s.cursor + 1)).emit (.srcByte b)))

/-- One whole encoding is taken by DEC waiting for a first byte, and the response delivered.  In any other phase no
encoding can begin: the form waits and nothing happens (DESIGN CHOICE, log entry 10; in `CONT` a source turn takes the
next byte alone, 10_state R30). -/
def takeWire (bytes : List Byte) (s : State) : Host.Outcome State Fault Refusal :=
  if s.dec.ph = .head then .next (takeBytes bytes s).deliverDec else .next s

/-- VI1 (R71, R130). -/
def execVi1 (v : Word) (s : State) : Host.Outcome State Fault Refusal := takeWire (encode (.vi1 v)).wireBytes s
/-- VI2 (R71, R130). -/
def execVi2 (v : Word) (s : State) : Host.Outcome State Fault Refusal := takeWire (encode (.vi2 v)).wireBytes s
/-- VI3 (R71, R130). -/
def execVi3 (v : Word) (s : State) : Host.Outcome State Fault Refusal := takeWire (encode (.vi3 v)).wireBytes s
/-- VI4 (R71, R130). -/
def execVi4 (v : Word) (s : State) : Host.Outcome State Fault Refusal := takeWire (encode (.vi4 v)).wireBytes s
/-- VI5 (R71, R130). -/
def execVi5 (v : Word) (s : State) : Host.Outcome State Fault Refusal := takeWire (encode (.vi5 v)).wireBytes s
/-- VI6 (R71, R130). -/
def execVi6 (v : Word) (s : State) : Host.Outcome State Fault Refusal := takeWire (encode (.vi6 v)).wireBytes s
/-- VI7 (R71, R130). -/
def execVi7 (v : Word) (s : State) : Host.Outcome State Fault Refusal := takeWire (encode (.vi7 v)).wireBytes s
/-- VI8 (R71, R130). -/
def execVi8 (v : Word) (s : State) : Host.Outcome State Fault Refusal := takeWire (encode (.vi8 v)).wireBytes s
/-- VIESC (R73, R130). -/
def execViesc (v : Word) (s : State) : Host.Outcome State Fault Refusal := takeWire (encode (.viesc v)).wireBytes s

end Sys2Proof.Machine
end

