-- ==== Sys2Proof/Machine/Dispatch.lean ====
section
/-! DEFINITION. One arm per row of the opcode table. -/

namespace Sys2Proof.Machine

def exec (i : Instr) (s : State) : Host.Outcome State Fault Refusal :=
  match i with
  | .vi1 v => Sys2Proof.Machine.execVi1 v s
  | .vi2 v => Sys2Proof.Machine.execVi2 v s
  | .vi3 v => Sys2Proof.Machine.execVi3 v s
  | .vi4 v => Sys2Proof.Machine.execVi4 v s
  | .vi5 v => Sys2Proof.Machine.execVi5 v s
  | .vi6 v => Sys2Proof.Machine.execVi6 v s
  | .vi7 v => Sys2Proof.Machine.execVi7 v s
  | .vi8 v => Sys2Proof.Machine.execVi8 v s
  | .viesc v => Sys2Proof.Machine.execViesc v s
  | .encode v c => Sys2Proof.Machine.execEncode v c s
  | .decode => Sys2Proof.Machine.execDecode s

end Sys2Proof.Machine
end

