-- ==== Sys2Proof/Machine/Fetch.lean ====
section
/-! DEFINITION. Where the next operation comes from: the command on offer on a command channel, or one whole encoding on
SRC; and how an opcode-table word is placed there. -/

namespace Sys2Proof.Machine

/-- The bytes the source will deliver before its first error event, at most `n` of them (an encoding needs 9). -/
def bytesAhead : Nat → List SrcEvent → List Byte
  | 0, _ => []
  | _ + 1, [] => []
  | _ + 1, .err _ :: _ => []
  | n + 1, .byte b :: es => b :: bytesAhead n es

/-- The packet on offer on a channel, if its unit can take it (10_state R30). -/
def offered (ch : Channel) (s : State) : Option Packet :=
  match ch with
  | .encCmd => if s.enc.ph = .idle then s.encCmds.head?.map Packet.enc else none
  | .decCmd => if s.dec.ph = .idle ∧ 0 < s.decCmds then some .dec else none
  | .src => if s.dec.ph = .head then some (.wire (bytesAhead 9 s.src)) else none

/-- Move past a packet: the command is taken, or `n` source bytes. -/
def State.past (s : State) (ch : Channel) (n : Nat) : State :=
  match ch with
  | .encCmd => s.setEncCmds (s.encCmds.drop 1)
  | .decCmd => s.setDecCmds (s.decCmds - 1)
  | .src => s.setSrc (s.src.drop n)

/-- Fetch: the instruction on offer on a channel and the state past its words; `none` when the unit cannot take one or
the source has no whole encoding ready. -/
def fetch (ch : Channel) (s : State) : Option (Instr × State) :=
  match offered ch s with
  | none => none
  | some p =>
    match decode p with
    | .error _ => none
    | .ok (i, rest) => some (i, s.past ch (p.wireBytes.length - rest.length))

/-- A turn for a whole operation that cannot be fetched: a command waits (40_encoder R111, 41_decoder R148); on SRC, where
the encoding is not ready whole or DEC is amid one, the source delivers its next event alone (30_encoding R78: truncation
is not a form; DESIGN CHOICE, log entry 4). -/
def noFetch (ch : Channel) (s : State) : State :=
  match ch with
  | .encCmd => s
  | .decCmd => s
  | .src => srcStep s

/-- The `enc_cmd` event (10_state R30): the command on offer is taken in `IDLE`, and waits otherwise (40_encoder R111). -/
def encCmdStep (s : State) : Host.Outcome State Fault Refusal :=
  match s.encCmds with
  | [] => .next s
  | w :: ws =>
    if s.enc.ph = .idle then encAccept (encWordValue w) (encWordCap w) (s.setEncCmds ws)
    else .next s

/-- The `dec_cmd` event (10_state R30): taken in `IDLE`, and waits otherwise (41_decoder R148). -/
def decCmdStep (s : State) : State :=
  if s.dec.ph = .idle ∧ 0 < s.decCmds then decAccept (s.setDecCmds (s.decCmds - 1)) else s

/-- Place a packet where the next operation is fetched from, with the turn that runs it: a command is put on offer to its
unit, set to `IDLE`, and a wire form is put in the source of a DEC that has taken a `dec_cmd` (log entry 12). -/
def State.place (s : State) : Packet → State
  | .enc w => ((s.setEncCmds (w :: s.encCmds)).setEnc { s.enc with ph := .idle }).setSched (.op .encCmd :: s.sched)
  | .dec => ((s.setDecCmds (s.decCmds + 1)).setDec { s.dec with ph := .idle }).setSched (.op .decCmd :: s.sched)
  | .wire bs =>
    ((s.setSrc (bs.map SrcEvent.byte ++ s.src)).setDec
      { s.dec with ph := .head, esc := false, len := 0, cnt := 0, acc := 0 }).setSched (.op .src :: s.sched)

/-- An opcode-table word, placed; a word that stands for no packet changes nothing (DESIGN CHOICE, log entry 25). -/
def State.placeWord (s : State) (nbits w : Nat) : State :=
  match tablePacket nbits w with
  | none => s
  | some p => s.place p

end Sys2Proof.Machine
end

