-- ==== Sys2Proof/Machine/HostSide.lean ====
section
/-! DEFINITION. The host's own moves (60_exceptions R203, 30_encoding R84, 70_reset R225 to R228). -/

namespace Sys2Proof.Machine

/-- ENC holds the buffer from command to response (70_reset R226). -/
def Enc.ownsDst (e : Enc) : Bool :=
  e.ph == .ladder || e.ph == .emit || e.ph == .resp || e.ph == .frsp

/-- DEC holds the source from command to response (70_reset R227). -/
def Dec.ownsSrc (d : Dec) : Bool := d.ph == .head || d.ph == .cont || d.ph == .resp

/-- One move of the host.  A byte the host writes while ENC holds the buffer is not refused: whichever write comes last
survives (R226).  Another buffer while ENC holds this one, or another stream while DEC holds this one, is outside the
model (R226, R227; log entry 15).  How offers queue on the host's side, and that withdrawing where none is on offer changes
nothing, is the model's (DESIGN CHOICE, log entry 26). -/
def hostStep (a : HostAct) (s : State) : Host.Outcome State Fault Refusal :=
  match a with
  | .offerEnc w => .next (s.setEncCmds (s.encCmds ++ [w]))
  | .withdrawEnc => .next (s.setEncCmds (s.encCmds.drop 1))
  | .offerDec => .next (s.setDecCmds (s.decCmds + 1))
  | .withdrawDec => .next (s.setDecCmds (s.decCmds - 1))
  | .putDst i b => if i < s.dstSize then .next (s.setDst (Memory.write s.dst i b)) else .next s
  | .setDst bs =>
    if s.enc.ownsDst then .refused .dstInUse
    else .next ((s.setDst (Memory.writeBytes [] 0 bs)).setDstSize bs.length)
  | .setSrc es => if s.dec.ownsSrc then .refused .srcInUse else .next (s.setSrc es)
  | .feedSrc es => .next (s.setSrc (s.src ++ es))

end Sys2Proof.Machine
end

