-- ==== Sys2Proof/Machine/Turns.lean ====
section
/-! DEFINITION. What each turn of the schedule does. -/

namespace Sys2Proof.Machine

/-- A whole operation, if one can be fetched from the channel. -/
def runOp (ch : Channel) (s : State) : Host.Outcome State Fault Refusal :=
  match fetch ch s with
  | some (i, s') => exec i s'
  | none => .next (noFetch ch s)

/-- One turn. -/
def turn (t : Turn) (s : State) : Host.Outcome State Fault Refusal :=
  match t with
  | .op ch => runOp ch s
  | .encCmd => encCmdStep s
  | .encOwn => encOwn s
  | .encRsp => .next s.deliverEnc
  | .decCmd => .next (decCmdStep s)
  | .srcEvent => .next (srcStep s)
  | .decRsp => .next s.deliverDec
  | .reset => .next s.applyReset
  | .host a => hostStep a s

end Sys2Proof.Machine
end

