-- ==== Sys2Proof/Machine/Step.lean ====
section
/-! DEFINITION. One step: the next turn of the schedule. -/

namespace Sys2Proof.Machine

/-- One step: the next turn of the schedule; with no turn scheduled, ENC's own micro-step, which needs nothing from
outside (70_reset R232; log entry 2). -/
def step (s : State) : Host.Outcome State Fault Refusal :=
  match s.sched with
  | [] => encOwn s
  | t :: ts => turn t (s.setSched ts)

/-- The state with an opcode-table word stored where the very next step fetches it (log entry 12). -/
def State.withFetchWord (s : State) (nbits w : Nat) : State := s.placeWord nbits w

end Sys2Proof.Machine
end

