-- ==== Sys2Proof/Machine/Channels.lean ====
section
/-! DEFINITION. The payload words of the events (30_encoding R80). -/

namespace Sys2Proof.Machine

/-- `dst_write`: `i` [11:8], `b` [7:0]. -/
def dstWriteWord (i : Nib) (b : Byte) : BitVec 12 := i ++ b

/-- `enc_rsp`: `status` [5:4], `len` [3:0]. -/
def encRspWord (st : Status) (len : Nib) : BitVec 6 := st.code ++ len

/-- The SRC word: `err` [12], `k` [11:8], `b` [7:0].  The field that is not meaningful is written 0 (DESIGN CHOICE, log
entry 20: the rule says it is ignored; the reader `srcOfWord` ignores it). -/
def srcWord : SrcEvent → BitVec 13
  | .byte b => (0 : BitVec 1) ++ (0 : Nib) ++ b
  | .err k => (1 : BitVec 1) ++ k ++ (0 : Byte)

/-- The SRC event a word carries: in a `src_err` the `b` field is ignored, in a `src_byte` the `k` field. -/
def srcOfWord (w : BitVec 13) : SrcEvent :=
  if w.getLsbD 12 then .err (w.extractLsb' 8 4) else .byte (w.extractLsb' 0 8)

/-- `dec_rsp`: `status` [73:72], `kind` [71:68], `nread` [67:64], `value` [63:0]. -/
def decRspWord (st : Status) (value : Word) (kind nread : Nib) : BitVec 74 :=
  st.code ++ kind ++ nread ++ value

/-- The payload of an event as one word, with its width; `dec_cmd` has none (R80), and `reset` is an input without a payload
(10_state R30): both give width 0. -/
def Event.word : Event → Nat × Nat
  | .encCmd v c => (68, (c ++ v : BitVec 68).toNat)
  | .dstWrite i b => (12, (dstWriteWord i b).toNat)
  | .encRsp st n => (6, (encRspWord st n).toNat)
  | .decCmd => (0, 0)
  | .srcByte b => (13, (srcWord (.byte b)).toNat)
  | .srcErr k => (13, (srcWord (.err k)).toNat)
  | .decRsp st v k n => (74, (decRspWord st v k n).toNat)
  | .reset => (0, 0)

end Sys2Proof.Machine
end

