-- ==== Sys2Proof/Safety.lean ====
section
/-! DEFINITION. The terms claims are stated in: the closed forms of the spec, the invariant of the two units, the count
of operations in flight, and the schedules of micro-steps that carry one operation out. -/

namespace Sys2Proof.Machine

/-! ### Closed forms -/

/-- `L(value)` (40_encoder R102; the ranges of 30_encoding R75). -/
def encLen (v : Word) : Nat :=
  if v.toNat < 2 ^ 7 then 1
  else if v.toNat < 2 ^ 14 then 2
  else if v.toNat < 2 ^ 21 then 3
  else if v.toNat < 2 ^ 28 then 4
  else if v.toNat < 2 ^ 35 then 5
  else if v.toNat < 2 ^ 42 then 6
  else if v.toNat < 2 ^ 49 then 7
  else if v.toNat < 2 ^ 56 then 8
  else 9

/-- The canonical encoding of a value (30_encoding R71, R73, R75): the bytes of the form that owns it. -/
def canonicalBytes (v : Word) : List Byte :=
  if encLen v = 9 then escBytes v else shortBytes (encLen v) v

/-- `decode_bytes(s, k)` (41_decoder R144): status, value, kind and the count of bytes consumed, when the source delivers
the bytes `s` and then an error of kind `k`. -/
def decodeBytes (s : List Byte) (k : Nib) : Status × Word × Nib × Nat :=
  match s with
  | [] => (.endOfInput, 0, k, 0)
  | b :: _ =>
    if b = 0x00 then
      (if s.length < 9 then (.endOfInput, 0, k, s.length)
       else
         let v := leAsm ((s.drop 1).take 8)
         if v.toNat < 2 ^ 56 then (.malformedVarint, 0, 0, 9) else (.ok, v, 0, 9))
    else
      let len := 1 + (ctz8 b).toNat
      if s.length < len then (.endOfInput, 0, k, s.length)
      else
        let v := leAsm (s.take len) >>> len
        if 1 < len ∧ v.toNat < 2 ^ (7 * (len - 1)) then (.malformedVarint, 0, 0, len) else (.ok, v, 0, len)

/-- A wire form's payload lies in the range its length owns (30_encoding R75 to R77). -/
def canonical : Instr → Bool
  | .vi1 v => decide (encLen v = 1)
  | .vi2 v => decide (encLen v = 2)
  | .vi3 v => decide (encLen v = 3)
  | .vi4 v => decide (encLen v = 4)
  | .vi5 v => decide (encLen v = 5)
  | .vi6 v => decide (encLen v = 6)
  | .vi7 v => decide (encLen v = 7)
  | .vi8 v => decide (encLen v = 8)
  | .viesc v => decide (encLen v = 9)
  | .encode _ _ => true
  | .decode => true

/-- An instruction that arrives as bytes on SRC (30_encoding R85: the nine `WIRE` rows). -/
def isWire : Instr → Bool
  | .vi1 _ => true
  | .vi2 _ => true
  | .vi3 _ => true
  | .vi4 _ => true
  | .vi5 _ => true
  | .vi6 _ => true
  | .vi7 _ => true
  | .vi8 _ => true
  | .viesc _ => true
  | .encode _ _ => false
  | .decode => false

/-- How many bytes an encoding that begins with `b` has (30_encoding R74). -/
def lenOfFirst (b : Byte) : Nat := if b = 0x00 then 9 else 1 + (ctz8 b).toNat

/-! ### What one operation leaves -/

/-- The state after DEC, waiting for a first byte, has taken one whole encoding and the host its response
(41_decoder R147): the registers of DEC, the cursor and the events; nothing else changes. -/
def wireResult (s : State) (bytes : List Byte) (esc : Bool) (acc v : Word) (bad : Bool) : State :=
  let n : Nib := BitVec.ofNat 4 bytes.length
  let st : Status := if bad then .malformedVarint else .ok
  let out : Word := if bad then 0 else v
  { s with
    dec := { ph := .idle, esc := esc, len := n, cnt := n, acc := acc, status := st, value := out, kind := 0, nread := n }
    cursor := s.cursor + bytes.length
    trace := s.trace ++ bytes.map Event.srcByte ++ [.decRsp st out 0 n] }

/-- `wireResult` for the short form of length `len` (30_encoding R71, R77). -/
def shortResult (len : Nat) (v : Word) (s : State) : State :=
  wireResult s (shortBytes len v) false (wireWord len v) v (decide (1 < len ∧ v.toNat < 2 ^ (7 * (len - 1))))

/-- `wireResult` for the escape form (30_encoding R73, R77). -/
def escResult (v : Word) (s : State) : State :=
  wireResult s (escBytes v) true v v (decide (v.toNat < 2 ^ 56))

/-- The registers of ENC once the length of `value` is fixed (40_encoder R101, R103, R110), by the closed form. -/
def encChosen (e : Enc) (value : Word) (cap : Nib) : Enc :=
  { e with
    val := value, cap := cap, len := BitVec.ofNat 4 (encLen value)
    thr := rungT (min (encLen value) 8)
    word := if encLen value = 9 then e.word else wireWord (encLen value) value }

/-- The `dst_write` events of a byte string, from index `i` on (20_memory R52). -/
def writeEvents : Nat → List Byte → List Event
  | _, [] => []
  | i, b :: bs => .dstWrite (BitVec.ofNat 4 i) b :: writeEvents (i + 1) bs

/-- The state after an ENCODE that fits its buffer (40_encoder R100): the encoding in DST, the response delivered. -/
def encodeResult (value : Word) (cap : Nib) (s : State) : State :=
  { s with
    enc := { encChosen s.enc value cap with
      ph := .idle, idx := BitVec.ofNat 4 (encLen value), status := .ok, rlen := BitVec.ofNat 4 (encLen value) }
    dst := Memory.writeBytes s.dst 0 (canonicalBytes value)
    trace := s.trace ++ [.encCmd value cap] ++ writeEvents 0 (canonicalBytes value)
      ++ [.encRsp .ok (BitVec.ofNat 4 (encLen value))] }

/-- The state after an ENCODE that does not fit (60_exceptions R191): nothing written, the response delivered once, ENC
in `FAULT`. -/
def encodeFault (value : Word) (cap : Nib) (s : State) : State :=
  { s with
    enc := { encChosen s.enc value cap with ph := .fault, status := .bufferTooSmall, rlen := 0 }
    trace := s.trace ++ [.encCmd value cap, .encRsp .bufferTooSmall 0] }

/-- The indices of DST an ENCODE stores to are those below this (20_memory R52, R53): the length ENC has fixed
(`Enc.chosen` of `climb`, as `execEncode` computes it) when the operation runs and fits, and 0 otherwise. -/
def storesBelow (value : Word) (cap : Nib) (s : State) : Nat :=
  let len := (s.enc.chosen value cap (climb value)).len
  if s.enc.ph = .idle ∧ capShort cap len = false then len.toNat else 0

/-! ### The invariant of the units -/

/-- What a status of DEC goes with (10_state R25, 41_decoder R146). -/
def Dec.rspOk (d : Dec) : Prop :=
  d.status ≠ .bufferTooSmall ∧ (d.status ≠ .ok → d.value = 0) ∧ (d.status ≠ .endOfInput → d.kind = 0) ∧
    d.nread.toNat ≤ 9

/-- What the registers of ENC hold in each phase (10_state R23, R25; 40_encoder R110), beside a buffer of `size` bytes. -/
def Enc.Inv (e : Enc) (size : Nat) : Prop :=
  (e.ph = .idle → e.status = .ok ∧ e.rlen.toNat ≤ 9) ∧
  (e.ph = .ladder → e.status = .ok ∧ 1 ≤ e.len.toNat ∧ e.len.toNat ≤ 8 ∧ e.thr = rungT e.len.toNat ∧
    (minM e.len.toNat).toNat ≤ e.val.toNat ∧ capOverstated e.cap size = false) ∧
  (e.ph = .emit → e.status = .ok ∧ e.len.toNat = encLen e.val ∧ e.idx.toNat < e.len.toNat ∧
    capShort e.cap e.len = false ∧ capOverstated e.cap size = false ∧
    (e.len.toNat ≤ 8 → e.word = shortWord e.val e.len)) ∧
  (e.ph = .resp → e.status = .ok ∧ e.len.toNat = encLen e.val ∧ e.rlen = e.len ∧ e.idx = e.len) ∧
  (e.ph = .frsp ∨ e.ph = .fault → e.status = .bufferTooSmall ∧ e.rlen = 0 ∧ e.len.toNat = encLen e.val ∧
    capShort e.cap e.len = true)

/-- What the registers of DEC hold in each phase (10_state R24, R25; 41_decoder R147). -/
def Dec.Inv (d : Dec) : Prop :=
  d.rspOk ∧
  (d.ph = .head → d.esc = false ∧ d.len = 0 ∧ d.cnt = 0 ∧ d.acc = 0) ∧
  (d.ph = .cont → 1 ≤ d.cnt.toNat ∧ d.cnt.toNat < d.len.toNat ∧ d.len.toNat ≤ 9 ∧
    (d.esc = true ↔ d.len.toNat = 9) ∧
    d.acc.toNat < 2 ^ (8 * d.pos) ∧
    (d.esc = false → d.len = 1 + ctz8 (byteOf d.acc 0))) ∧
  (d.ph = .resp → d.nread = d.cnt ∧
    (d.status = .ok → d.nread = d.len ∧ encLen d.value = d.nread.toNat) ∧
    (d.status = .malformedVarint → d.nread = d.len ∧ 2 ≤ d.nread.toNat) ∧
    (d.status = .endOfInput → d.nread.toNat ≤ 8))

/-- How many ENCODE commands are accepted and not answered, reading the events in order (40_encoder R112); reset abandons
what is in flight (70_reset R221). -/
def openEnc (tr : List Event) : Int :=
  tr.foldl (fun n e =>
    match e with
    | .encCmd _ _ => n + 1
    | .encRsp _ _ => n - 1
    | .reset => 0
    | .dstWrite _ _ => n
    | .decCmd => n
    | .srcByte _ => n
    | .srcErr _ => n
    | .decRsp _ _ _ _ => n) 0

/-- How many DECODE commands are accepted and not answered (41_decoder R149). -/
def openDec (tr : List Event) : Int :=
  tr.foldl (fun n e =>
    match e with
    | .decCmd => n + 1
    | .decRsp _ _ _ _ => n - 1
    | .reset => 0
    | .encCmd _ _ => n
    | .encRsp _ _ => n
    | .dstWrite _ _ => n
    | .srcByte _ => n
    | .srcErr _ => n) 0

/-- ENC has accepted a command it has not answered (10_state R23). -/
def Enc.busy (e : Enc) : Bool := e.ph == .ladder || e.ph == .emit || e.ph == .resp || e.ph == .frsp

/-- DEC has accepted a command it has not answered (10_state R24). -/
def Dec.busy (d : Dec) : Bool := d.ph == .head || d.ph == .cont || d.ph == .resp

/-- The invariant: both units hold what their phases say, DST is in canonical form and inside the buffer, and every
accepted command is answered at most once. -/
def State.Inv (s : State) : Prop :=
  s.enc.Inv s.dstSize ∧ s.dec.Inv ∧ Memory.wf s.dst = true ∧ (∀ c ∈ s.dst, c.1 < s.dstSize) ∧
    openEnc s.trace = (if s.enc.busy then 1 else 0) ∧ openDec s.trace = (if s.dec.busy then 1 else 0)

/-! ### Schedules -/

/-- The turns of one ENCODE, micro-step by micro-step: the command, at most 17 steps of ENC's own (40_encoder R115; a
turn with no micro-step enabled is a wait), the response. -/
def microEncode : List Turn := .encCmd :: List.replicate 17 .encOwn ++ [.encRsp]

/-- The turns of one DECODE, micro-step by micro-step: the command, at most 9 source events (70_reset R232), the
response. -/
def microDecode : List Turn := .decCmd :: List.replicate 9 .srcEvent ++ [.decRsp]

/-- A turn that belongs to ENC and its channels. -/
def Turn.ofEnc : Turn → Bool
  | .encCmd => true
  | .encOwn => true
  | .encRsp => true
  | .op .encCmd => true
  | .op .decCmd => false
  | .op .src => false
  | .decCmd => false
  | .srcEvent => false
  | .decRsp => false
  | .reset => false
  | .host _ => false

/-- A turn that belongs to DEC and its channels. -/
def Turn.ofDec : Turn → Bool
  | .decCmd => true
  | .srcEvent => true
  | .decRsp => true
  | .op .decCmd => true
  | .op .src => true
  | .op .encCmd => false
  | .encCmd => false
  | .encOwn => false
  | .encRsp => false
  | .reset => false
  | .host _ => false

/-- An event of ENC's three channels (10_state R30). -/
def Event.ofEnc : Event → Bool
  | .encCmd _ _ => true
  | .dstWrite _ _ => true
  | .encRsp _ _ => true
  | .decCmd => false
  | .srcByte _ => false
  | .srcErr _ => false
  | .decRsp _ _ _ _ => false
  | .reset => false

/-- The guard column of the interface table (10_state R30); `reset` is always enabled (70_reset R221). -/
def Event.enabled (e : Event) (s : State) : Prop :=
  match e with
  | .encCmd _ _ => s.enc.ph = .idle
  | .dstWrite _ _ => s.enc.ph = .emit
  | .encRsp _ _ => s.enc.ph = .resp ∨ s.enc.ph = .frsp
  | .decCmd => s.dec.ph = .idle
  | .srcByte _ => s.dec.ph = .head ∨ s.dec.ph = .cont
  | .srcErr _ => s.dec.ph = .head ∨ s.dec.ph = .cont
  | .decRsp _ _ _ _ => s.dec.ph = .resp
  | .reset => True

/-- The next turn carries a whole operation. -/
def State.runsOp (s : State) : Bool :=
  match s.sched with
  | .op _ :: _ => true
  | _ => false

/-- The next turn is the host's own. -/
def State.runsHost (s : State) : Bool :=
  match s.sched with
  | .host _ :: _ => true
  | _ => false

/-- The next turn is the input `reset`. -/
def State.runsReset (s : State) : Bool :=
  match s.sched with
  | .reset :: _ => true
  | _ => false

/-- The end of a run (70_reset R230): both units in `IDLE` and no command on offer. -/
def State.atEnd (s : State) : Bool :=
  s.enc.ph == .idle && s.dec.ph == .idle && s.encCmds.isEmpty && s.decCmds == 0

/-- The number of bytes consumed according to the events (20_memory R56). -/
def bytesTaken (tr : List Event) : Nat :=
  tr.countP (fun e =>
    match e with
    | .srcByte _ => true
    | .encCmd _ _ => false
    | .dstWrite _ _ => false
    | .encRsp _ _ => false
    | .decCmd => false
    | .srcErr _ => false
    | .decRsp _ _ _ _ => false
    | .reset => false)

end Sys2Proof.Machine
end

