-- ==== Sys2Proof/Certificates/Slice0/Obligations.lean ====
section
/-! DEFINITION. The statements for the provers, from the numbered rules of the spec. -/

open Sys2Proof Sys2Proof.Machine

/-- O1. Every first byte selects exactly one wire row.  30_encoding R72, R85. -/
def Obligations.WireRowsPartition : Prop :=
  wireRows.map (fun r => (r.len, r.mask, r.pattern)) =
      [(1, 0x01, 0x01), (2, 0x03, 0x02), (3, 0x07, 0x04), (4, 0x0F, 0x08), (5, 0x1F, 0x10), (6, 0x3F, 0x20),
       (7, 0x7F, 0x40), (8, 0xFF, 0x80), (9, 0xFF, 0x00)] ∧
    (∀ b : Byte, (wireRows.filter (fun r => r.matchesByte b)).length = 1) ∧
    wireRows.map (fun r => ((List.range 256).filter (fun n => r.matchesByte (BitVec.ofNat 8 n))).length) =
      [128, 64, 32, 16, 8, 4, 2, 1, 1]

/-- O2. The first byte alone tells the length.  R74. -/
def Obligations.FirstByteGivesLength : Prop :=
  (∀ b : Byte, (rowOf b).map WireRow.len = some (lenOfFirst b)) ∧
    (∀ b : Byte, b ≠ 0x00 → 1 ≤ lenOfFirst b ∧ lenOfFirst b ≤ 8) ∧
    (∀ (b : Byte) (bs : List Byte) (i : Instr) (rest : List Byte),
      decodeWire (b :: bs) = .ok (i, rest) → rest = (b :: bs).drop (lenOfFirst b))

/-- O3. Sample words decode to the instructions they stand for.  30_encoding R71, R73, R80, 95_test_vectors E11, V7, V35, EC1. -/
def Obligations.DecodeSampleWords : Prop :=
  decodeWire [0xB2, 0x04] = .ok (.vi2 300, []) ∧ decodeWire [0xFF] = .ok (.vi1 127, []) ∧
    decodeWire [0x02, 0x02, 0xAA] = .ok (.vi2 128, [0xAA]) ∧
    decodeWire [0, 0, 0, 0, 0, 0, 0, 0, 1] = .ok (.viesc 0x100000000000000, []) ∧
    decode (.enc 0x9000000000000012C) = .ok (.encode 300 9, []) ∧ decode .dec = .ok (.decode, [])

/-- O4. Decoding the encoding of any well-formed instruction gives it back, and leaves the bytes after it.  30_encoding R71, R73, R79, R80, R83.
Form chosen by the model: log entry 21. -/
def Obligations.DecodeOfEncode : Prop :=
  ∀ i : Instr, i.wellFormed = true →
    decode (encode i) = .ok (i, []) ∧
    (isWire i = true → ∀ rest : List Byte, decodeWire ((encode i).wireBytes ++ rest) = .ok (i, rest))

/-- O5. What decodes is the encoding of what it decodes to.  30_encoding R71, R73, R80, R85.
Form chosen by the model: log entry 21. -/
def Obligations.EncodeOfDecode : Prop :=
  (∀ (bs rest : List Byte) (i : Instr), decodeWire bs = .ok (i, rest) →
      isWire i = true ∧ i.wellFormed = true ∧ (encode i).wireBytes ++ rest = bs) ∧
    (∀ w : BitVec 68, encode (.encode (encWordValue w) (encWordCap w)) = .enc w)

/-- O6. No first byte is reserved; a sequence too short is truncated, not illegal; bytes after the L-th are not looked at.  R78. -/
def Obligations.EveryFirstByteSelectsAForm : Prop :=
  (∀ (b : Byte) (bs : List Byte), (b :: bs).length < lenOfFirst b →
      decodeWire (b :: bs) = .error (.truncated (lenOfFirst b) (b :: bs).length)) ∧
    (∀ (b : Byte) (bs : List Byte), lenOfFirst b ≤ (b :: bs).length →
      ∃ i, isWire i = true ∧ ∀ tail, decodeWire ((b :: bs).take (lenOfFirst b) ++ tail) = .ok (i, tail))

/-- O7. A wire form is non-canonical exactly when its last byte is 0x00 or 0x01 (short, length 2 to 8) or 0x00 (escape).  30_encoding R75, R76, R77.
Form chosen by the model: log entry 21. -/
def Obligations.IllegalEncodingsByLastByte : Prop :=
  (∀ v : Word, fitsShort 1 v = true → canonical (.vi1 v) = true) ∧
    (∀ (len : Nat) (v : Word), 2 ≤ len → len ≤ 8 → fitsShort len v = true →
      (encLen v ≠ len ↔ (shortBytes len v).getLast? = some 0x00 ∨ (shortBytes len v).getLast? = some 0x01)) ∧
    (∀ v : Word, canonical (.viesc v) = false ↔ (escBytes v).getLast? = some 0x00)

/-- O8. Every field of a payload word is where R80 puts it.  R80. -/
def Obligations.PayloadWordFields : Prop :=
  (∀ (v : Word) (c : Nib), encWordValue (encodeEncWord v c) = v ∧ encWordCap (encodeEncWord v c) = c ∧
      (encodeEncWord v c).extractLsb' 64 4 = c ∧ (encodeEncWord v c).extractLsb' 0 64 = v) ∧
    (∀ w : BitVec 68, encodeEncWord (encWordValue w) (encWordCap w) = w) ∧
    (∀ (i : Nib) (b : Byte), (dstWriteWord i b).extractLsb' 8 4 = i ∧ (dstWriteWord i b).extractLsb' 0 8 = b) ∧
    (∀ (st : Status) (n : Nib), (encRspWord st n).extractLsb' 4 2 = st.code ∧ (encRspWord st n).extractLsb' 0 4 = n) ∧
    (∀ b : Byte, (srcWord (.byte b)).getLsbD 12 = false ∧ (srcWord (.byte b)).extractLsb' 0 8 = b) ∧
    (∀ k : Nib, (srcWord (.err k)).getLsbD 12 = true ∧ (srcWord (.err k)).extractLsb' 8 4 = k) ∧
    (∀ (k : Nib) (b : Byte), srcOfWord ((0 : BitVec 1) ++ k ++ b) = .byte b ∧
      srcOfWord ((1 : BitVec 1) ++ k ++ b) = .err k) ∧
    (∀ (st : Status) (v : Word) (k n : Nib), (decRspWord st v k n).extractLsb' 72 2 = st.code ∧
      (decRspWord st v k n).extractLsb' 68 4 = k ∧ (decRspWord st v k n).extractLsb' 64 4 = n ∧
      (decRspWord st v k n).extractLsb' 0 64 = v) ∧
    Event.word .decCmd = (0, 0) ∧
    (Status.ok.code = 0b00 ∧ Status.bufferTooSmall.code = 0b01 ∧ Status.endOfInput.code = 0b10 ∧
      Status.malformedVarint.code = 0b11)

/-- O9. SHL64 and SHR64 bit by bit and as arithmetic.  R170, R171. -/
def Obligations.ShiftsBitByBit : Prop :=
  ∀ (x : Word) (n : Nat),
    (shl64 x n).toNat = x.toNat * 2 ^ n % 2 ^ 64 ∧
    (∀ i < 64, (shl64 x n).getLsbD i = (decide (n ≤ i) && x.getLsbD (i - n))) ∧
    (64 ≤ n → shl64 x n = 0) ∧
    (shr64 x n).toNat = x.toNat / 2 ^ n ∧
    (∀ i < 64, (shr64 x n).getLsbD i = (decide (i + n ≤ 63) && x.getLsbD (i + n))) ∧
    (64 ≤ n → shr64 x n = 0)

/-- O10. GE64 and LT64 are unsigned and complementary.  R172. -/
def Obligations.ComparatorUnsigned : Prop :=
  (∀ a b : Word, (ge64 a b = true ↔ b.toNat ≤ a.toNat) ∧ (lt64 a b = true ↔ a.toNat < b.toNat) ∧
      lt64 a b = !(ge64 a b)) ∧
    (∀ a : Word, ge64 a a = true ∧ lt64 a a = false) ∧
    (∀ k, 1 ≤ k → k ≤ 8 → ge64 0x8000000000000000 (rungT k) = true)

/-- O11. CTZ8 is the index of the lowest set bit, and 8 for zero.  R173. -/
def Obligations.TrailingZeroCount : Prop :=
  (∀ b : Byte, b ≠ 0 → (ctz8 b).toNat < 8 ∧ b.getLsbD (ctz8 b).toNat = true ∧
      ∀ i : Fin 8, i.val < (ctz8 b).toNat → b.getLsbD i.val = false) ∧
    ctz8 0 = 8

/-- O12. LE_ASM assembles little-endian and BYTE picks the bytes back.  R174, R175. -/
def Obligations.BytePickAndAssembly : Prop :=
  (∀ (x : Word) (j n : Nat), j < 8 → n < 8 → (byteOf x j).getLsbD n = x.getLsbD (8 * j + n)) ∧
    (∀ bs : List Byte, 1 ≤ bs.length → bs.length ≤ 8 →
      (leAsm bs).toNat = (bs.mapIdx (fun j b => b.toNat * 2 ^ (8 * j))).sum ∧
      leAsm bs = (bs.mapIdx (fun j b => shl64 (b.setWidth 64) (8 * j))).foldr (· ||| ·) 0 ∧
      (∀ (j : Nat) (h : j < bs.length), byteOf (leAsm bs) j = bs[j]) ∧
      (leAsm bs).toNat < 2 ^ (8 * bs.length))

/-- O13. The ladder T and the minima M.  R177, R178. -/
def Obligations.ThresholdTables : Prop :=
  ((List.range' 1 8).map rungT = [0x80, 0x4000, 0x200000, 0x10000000, 0x800000000, 0x40000000000, 0x2000000000000,
      0x100000000000000]) ∧
    (∀ k, 1 ≤ k → k ≤ 8 → (rungT k).toNat = 2 ^ (7 * k)) ∧
    rungT 1 = Config.firstThreshold ∧ rungT 8 = Config.escThreshold ∧
    (∀ k, 1 ≤ k → k ≤ 7 → rungT (k + 1) = shl64 (rungT k) 7) ∧
    (∀ len, 2 ≤ len → len ≤ 8 → minM len = rungT (len - 1) ∧ (minM len).toNat = 2 ^ (7 * (len - 1)))

/-- O14. The threshold ladder computes the closed form of the length.  40_encoder R101, R102. -/
def Obligations.LadderClosedForm : Prop :=
  ∀ v : Word,
    climb v = (BitVec.ofNat 4 (min (encLen v) 8), rungT (min (encLen v) 8), decide (encLen v = 9)) ∧
    encLen v = (if v.toNat.log2 ≤ 55 then v.toNat.log2 / 7 + 1 else 9) ∧
    (encLen v = 1 ↔ v.toNat < 2 ^ 7) ∧
    (∀ k, 2 ≤ k → k ≤ 8 → (encLen v = k ↔ 2 ^ (7 * (k - 1)) ≤ v.toNat ∧ v.toNat < 2 ^ (7 * k))) ∧
    (encLen v = 9 ↔ 2 ^ 56 ≤ v.toNat)

/-- O15. The short-form word is (value << L) | (1 << (L-1)), exactly.  40_encoder R103, R116, 42_shifter_comparator R180. -/
def Obligations.ShortWordLosesNothing : Prop :=
  ∀ v : Word, encLen v ≤ 8 →
    (shortWord v (BitVec.ofNat 4 (encLen v))).toNat = v.toNat * 2 ^ encLen v + 2 ^ (encLen v - 1) ∧
    (shortWord v (BitVec.ofNat 4 (encLen v))).toNat < 2 ^ (8 * encLen v) ∧
    shortWord v (BitVec.ofNat 4 (encLen v)) = wireWord (encLen v) v ∧
    (shortWord v (BitVec.ofNat 4 (encLen v))).getLsbD (encLen v - 1) = true ∧
    (∀ i < encLen v - 1, (shortWord v (BitVec.ofNat 4 (encLen v))).getLsbD i = false) ∧
    (fun w => shl64 w 1)^[encLen v - 1] (shl64 v 1 ||| 1) = shortWord v (BitVec.ofNat 4 (encLen v))

/-- O16. ENCODE with a large enough buffer writes the canonical encoding and reports its length.  40_encoder R104, R105, R106.
Form chosen by the model: log entries 4, 6 and 16. -/
def Obligations.EncodeCompletes : Prop :=
  ∀ (v : Word) (c : Nib) (s : State), s.enc.ph = .idle → capOverstated c s.dstSize = false → encLen v ≤ c.toNat →
    ∃ (t : State) (out : List Byte), exec (.encode v c) s = .next t ∧ out.length = encLen v ∧
      (encLen v ≤ 8 → out = (List.range (encLen v)).map (byteOf (shortWord v (BitVec.ofNat 4 (encLen v)))) ∧
        ∀ j, encLen v ≤ j → j ≤ 7 → byteOf (shortWord v (BitVec.ofNat 4 (encLen v))) j = 0) ∧
      (encLen v = 9 → out = 0x00 :: (List.range 8).map (byteOf v)) ∧
      t.dst = Memory.writeBytes s.dst 0 out ∧
      t.trace = s.trace ++ [.encCmd v c] ++ writeEvents 0 out ++ [.encRsp .ok (BitVec.ofNat 4 (encLen v))] ∧
      t.enc.ph = .idle ∧ t.enc.status = .ok ∧ t.enc.rlen = BitVec.ofNat 4 (encLen v)

/-- O17. ENCODE with too small a buffer writes nothing, reports BufferTooSmall once and leaves ENC in FAULT.  40_encoder R107, 60_exceptions R191, R206.
Form chosen by the model: log entries 4, 5, 6 and 16. -/
def Obligations.EncodeBufferTooSmall : Prop :=
  (∀ (v : Word) (c : Nib) (s : State), s.enc.ph = .idle → capOverstated c s.dstSize = false → c.toNat < encLen v →
      ∃ t, exec (.encode v c) s = .next t ∧ t.dst = s.dst ∧
        t.trace = s.trace ++ [.encCmd v c, .encRsp .bufferTooSmall 0] ∧ t.enc.ph = .fault ∧ encFault t.enc = true ∧
        t.enc.status = .bufferTooSmall ∧ t.enc.rlen = 0) ∧
    (∀ (v : Word) (c : Nib) (s t : State), s.enc.ph = .idle → encLen v ≤ c.toNat → exec (.encode v c) s = .next t →
      encFault t.enc = false)

/-- O18. The whole state ENCODE leaves, working registers included.  40_encoder R100, R110, 10_state R23, R25, R28, 60_exceptions R191.
Form chosen by the model: log entries 4, 5, 6 and 17. -/
def Obligations.EncodeLeaves : Prop :=
  ∀ (v : Word) (c : Nib) (s : State), s.enc.ph = .idle → capOverstated c s.dstSize = false →
    (encLen v ≤ c.toNat → exec (.encode v c) s = .next (encodeResult v c s)) ∧
    (c.toNat < encLen v → exec (.encode v c) s = .next (encodeFault v c s))

/-- O19. ENCODE refuses no value; cap of 9 or more never fails.  40_encoder R109.
Form chosen by the model: log entries 4 and 6. -/
def Obligations.EncodeTotalOnValues : Prop :=
  (∀ (v : Word) (c : Nib) (s : State), s.enc.ph = .idle → capOverstated c s.dstSize = false → encLen v ≤ c.toNat →
      ∃ t, exec (.encode v c) s = .next t ∧ t.enc.status = .ok ∧ t.enc.rlen.toNat = encLen v ∧ t.enc.ph = .idle) ∧
    (∀ (v : Word) (c : Nib) (s : State), s.enc.ph = .idle → 9 ≤ s.dstSize → 9 ≤ c.toNat →
      ∃ t, exec (.encode v c) s = .next t ∧ t.enc.status = .ok ∧ t.enc.rlen.toNat = encLen v ∧ t.enc.ph = .idle)

/-- O20. What DST holds after ENCODE.  20_memory R53.
Form chosen by the model: log entries 4 and 6. -/
def Obligations.EncodeDstContents : Prop :=
  ∀ (v : Word) (c : Nib) (s t : State), s.enc.ph = .idle → capOverstated c s.dstSize = false →
    exec (.encode v c) s = .next t →
    (encLen v ≤ c.toNat →
      (canonicalBytes v).length = encLen v ∧
      (∀ (i : Nat) (h : i < (canonicalBytes v).length), Memory.read t.dst i = some (canonicalBytes v)[i]) ∧
      (∀ a, encLen v ≤ a → Memory.read t.dst a = Memory.read s.dst a)) ∧
    (c.toNat < encLen v → ∀ a, Memory.read t.dst a = Memory.read s.dst a)

/-- O21. ENCODE changes nothing but ENC, the DST bytes it stores to, and the events.  40_encoder R108, 20_memory R50, R53, 10_state R28.
Form chosen by the model: log entry 4. -/
def Obligations.EncodeFrame : Prop :=
  ∀ (v : Word) (c : Nib) (s t : State), exec (.encode v c) s = .next t →
    t.dec = s.dec ∧ t.src = s.src ∧ t.cursor = s.cursor ∧ t.encCmds = s.encCmds ∧ t.decCmds = s.decCmds ∧
    t.sched = s.sched ∧ t.dstSize = s.dstSize ∧
    (∀ a, storesBelow v c s ≤ a → Memory.read t.dst a = Memory.read s.dst a)

/-- O22. A command offered to an ENC that is not IDLE waits.  40_encoder R110, R111.
Form chosen by the model: log entries 3 and 6. -/
def Obligations.EncodeWaitsWhileBusy : Prop :=
  (∀ (v : Word) (c : Nib) (s : State), s.enc.ph ≠ .idle → exec (.encode v c) s = .next s) ∧
    (∀ (s : State) (q : List Turn), s.enc.ph ≠ .idle →
      step (s.setSched (.encCmd :: q)) = .next (s.setSched q) ∧
      step (s.setSched (.op .encCmd :: q)) = .next (s.setSched q)) ∧
    (∀ (s : State) (q : List Turn) (w : BitVec 68) (ws : List (BitVec 68)), s.enc.ph = .idle → s.encCmds = w :: ws →
      capOverstated (encWordCap w) s.dstSize = false →
      ∃ t, step (s.setSched (.encCmd :: q)) = .next t ∧ t.encCmds = ws ∧ t.enc.ph = .ladder ∧
        t.enc.val = encWordValue w ∧ t.enc.cap = encWordCap w)

/-- O23. A cap larger than the real buffer is outside the model.  70_reset_and_hazards R225, 60_exceptions R206, 93_implementation_defined U10.
Form chosen by the model: log entry 6. -/
def Obligations.OverstatedCapRefused : Prop :=
  (∀ (v : Word) (c : Nib) (s : State), s.enc.ph = .idle → s.dstSize < min c.toNat 9 →
      exec (.encode v c) s = .refused .capOverstated) ∧
    (∀ (c : Nib) (n : Nat), 9 ≤ n → capOverstated c n = false)

/-- O24. What ENCODE guarantees of its output.  40_encoder R113.
Form chosen by the model: log entries 4 and 6. -/
def Obligations.MinimalLength : Prop :=
  (∀ (v : Word) (c : Nib) (s : State), s.enc.ph = .idle → capOverstated c s.dstSize = false → encLen v ≤ c.toNat →
      ∃ t, exec (.encode v c) s = .next t ∧ t.enc.status = .ok ∧ t.enc.rlen.toNat = encLen v ∧
        (List.range (encLen v)).map (Memory.read t.dst) = (canonicalBytes v).map some) ∧
    (∀ v : Word, (canonicalBytes v).length = encLen v ∧ 1 ≤ encLen v ∧ encLen v ≤ 9 ∧
      (encLen v ≤ 8 → v.toNat < 2 ^ (7 * encLen v)) ∧
      (∀ len, 1 ≤ len → len ≤ 8 → v.toNat < 2 ^ (7 * len) → encLen v ≤ len)) ∧
    (canonicalBytes 0xFFFFFFFFFFFFFF).length = 8 ∧ (canonicalBytes 0x100000000000000).length = 9 ∧
    (∀ v : Word, ∃ b bs, canonicalBytes v = b :: bs ∧
      (encLen v ≤ 8 → b ≠ 0x00 ∧ (ctz8 b).toNat = encLen v - 1) ∧ (encLen v = 9 → b = 0x00)) ∧
    (∀ (v : Word) (rest : List Byte) (k : Nib), decodeBytes (canonicalBytes v ++ rest) k = (.ok, v, 0, encLen v))

/-- O25. Each value has one canonical encoding, each canonical encoding one value, and encodings laid end to end come apart one way.  30_encoding R76, R83, R86. -/
def Obligations.CanonicalEncodingsArePrefixFree : Prop :=
  (∀ (v w : Word) (r₁ r₂ : List Byte), canonicalBytes v ++ r₁ = canonicalBytes w ++ r₂ → v = w ∧ r₁ = r₂) ∧
    (∀ (bs : List Byte) (i : Instr), decodeWire bs = .ok (i, []) → canonical i = true → ∃! v, canonicalBytes v = bs)

/-- O26. DEC takes a one-byte encoding: always canonical.  41_decoder R130, R135 to R140, 30_encoding R77.
Form chosen by the model: log entries 10 and 17. -/
def Obligations.VI1Result : Prop :=
  ∀ (v : Word) (s : State), fitsShort 1 v = true → s.dec.ph = .head → exec (.vi1 v) s = .next (shortResult 1 v s)

/-- O27. DEC takes a short form of 2 to 8 bytes: the value, or MalformedVarint when it is below 2^(7(L-1)).  41_decoder R130, R135 to R141, 30_encoding R71, R77, 60_exceptions R193.
Form chosen by the model: log entries 10 and 17. -/
def Obligations.VI2toVI8Result : Prop :=
  ∀ (v : Word) (s : State), s.dec.ph = .head →
    (fitsShort 2 v = true → exec (.vi2 v) s = .next (shortResult 2 v s)) ∧
    (fitsShort 3 v = true → exec (.vi3 v) s = .next (shortResult 3 v s)) ∧
    (fitsShort 4 v = true → exec (.vi4 v) s = .next (shortResult 4 v s)) ∧
    (fitsShort 5 v = true → exec (.vi5 v) s = .next (shortResult 5 v s)) ∧
    (fitsShort 6 v = true → exec (.vi6 v) s = .next (shortResult 6 v s)) ∧
    (fitsShort 7 v = true → exec (.vi7 v) s = .next (shortResult 7 v s)) ∧
    (fitsShort 8 v = true → exec (.vi8 v) s = .next (shortResult 8 v s))

/-- O28. DEC takes an escape form: the value, or MalformedVarint when it is below 2^56.  41_decoder R130, R132 to R134, R141, 30_encoding R73, R77.
Form chosen by the model: log entries 10 and 17. -/
def Obligations.VIESCResult : Prop :=
  ∀ (v : Word) (s : State), s.dec.ph = .head → exec (.viesc v) s = .next (escResult v s)

/-- O29. A wire form is taken only in PREFIX; source bytes wait in IDLE and RESP.  41_decoder R149, 10_state R30.
Form chosen by the model: log entries 3 and 10. -/
def Obligations.WireWaitsUnlessDecReads : Prop :=
  (∀ (i : Instr) (s : State), isWire i = true → s.dec.ph ≠ .head → exec i s = .next s) ∧
    (∀ (s : State) (q : List Turn), s.dec.ph = .idle ∨ s.dec.ph = .resp →
      step (s.setSched (.srcEvent :: q)) = .next (s.setSched q) ∧
      step (s.setSched (.op .src :: q)) = .next (s.setSched q))

/-- O30. A wire form changes nothing but DEC, the cursor and the events.  20_memory R50, 10_state R28, 41_decoder R147.
Form chosen by the model: log entry 10. -/
def Obligations.WireFrame : Prop :=
  ∀ (i : Instr) (s t : State), isWire i = true → exec i s = .next t →
    t.enc = s.enc ∧ t.dst = s.dst ∧ (∀ a, Memory.read t.dst a = Memory.read s.dst a) ∧ t.dstSize = s.dstSize ∧
    t.src = s.src ∧ t.encCmds = s.encCmds ∧ t.decCmds = s.decCmds ∧ t.sched = s.sched

/-- O31. A truncated or non-canonical sequence never ends with OK, and an error never carries a value.  60_exceptions R193, R194, R197, 41_decoder R141, R146.
Form chosen by the model: log entries 4 and 10. -/
def Obligations.OnlyCanonicalIsOk : Prop :=
  (∀ (i : Instr) (s : State), isWire i = true → i.wellFormed = true → s.dec.ph = .head →
      ∃ t, exec i s = .next t ∧ (t.dec.status = .ok ↔ canonical i = true) ∧
        (canonical i = false → t.dec.status = .malformedVarint ∧ t.dec.value = 0) ∧
        (canonical i = true → (encode i).wireBytes = canonicalBytes t.dec.value)) ∧
    (∀ (s : State) (bs : List Byte) (k : Nib) (rest : List SrcEvent), s.dec.ph = .idle →
      s.src = bs.map SrcEvent.byte ++ .err k :: rest →
      (∀ b ∈ bs.head?, bs.length < lenOfFirst b) →
      ∃ t, exec .decode s = .next t ∧ t.dec.status = .endOfInput ∧ t.dec.value = 0)

/-- O32. DECODE answers what decode_bytes of the delivered bytes says.  41_decoder R131 to R141, R143, R144.
Form chosen by the model: log entries 4, 9 and 16. -/
def Obligations.DecodeIsAFunctionOfTheBytes : Prop :=
  (∀ (s : State) (bs : List Byte) (k : Nib) (rest : List SrcEvent), s.dec.ph = .idle →
      s.src = bs.map SrcEvent.byte ++ .err k :: rest →
      ∀ st v kd n, decodeBytes bs k = (st, v, kd, n) →
      ∃ t, exec .decode s = .next t ∧
        t.trace = s.trace ++ [.decCmd] ++ (bs.take n).map Event.srcByte ++
          (if st = .endOfInput then [.srcErr k] else []) ++ [.decRsp st v kd (BitVec.ofNat 4 n)] ∧
        t.src = (if st = .endOfInput then rest else (bs.drop n).map SrcEvent.byte ++ .err k :: rest) ∧
        t.cursor = s.cursor + n ∧ t.dec.ph = .idle ∧ t.dec.status = st ∧ t.dec.value = v ∧ t.dec.kind = kd ∧
        t.dec.nread = BitVec.ofNat 4 n) ∧
    (∀ (s : State) (bs : List Byte), s.dec.ph = .idle → s.src = bs.map SrcEvent.byte →
      (∀ b ∈ bs.head?, bs.length < lenOfFirst b) →
      ∃ t, exec .decode s = .next t ∧ t.trace = s.trace ++ [.decCmd] ++ bs.map Event.srcByte ∧ t.src = [] ∧
        t.cursor = s.cursor + bs.length ∧ t.dec.wantsSrc = true ∧ t.dec.cnt.toNat = bs.length)

/-- O33. DECODE of a source that begins with an encoding takes exactly that encoding, whatever follows.  30_encoding R83, R85, 20_memory R56, 41_decoder R130, R150.
Form chosen by the model: log entries 4 and 10. -/
def Obligations.DecodeTakesOneEncoding : Prop :=
  ∀ (s : State) (i : Instr) (tail : List SrcEvent), s.dec.ph = .idle → isWire i = true → i.wellFormed = true →
    s.src = (encode i).wireBytes.map SrcEvent.byte ++ tail →
    exec .decode s = exec i (decAccept (s.setSrc tail)) ∧
      ∃ t, exec .decode s = .next t ∧ t.src = tail ∧ t.cursor = s.cursor + (encode i).wireBytes.length ∧
        t.dec.ph = .idle

/-- O34. A command offered to a DEC that is not IDLE waits.  41_decoder R147, R148.
Form chosen by the model: log entry 3. -/
def Obligations.DecodeWaitsWhileBusy : Prop :=
  (∀ s : State, s.dec.ph ≠ .idle → exec .decode s = .next s) ∧
    (∀ (s : State) (q : List Turn), s.dec.ph ≠ .idle →
      step (s.setSched (.decCmd :: q)) = .next (s.setSched q) ∧
      step (s.setSched (.op .decCmd :: q)) = .next (s.setSched q)) ∧
    (∀ (s : State) (q : List Turn), s.dec.ph = .idle → 0 < s.decCmds →
      ∃ t, step (s.setSched (.decCmd :: q)) = .next t ∧ t.decCmds = s.decCmds - 1 ∧ t.dec.ph = .head ∧
        t.dec.cnt = 0 ∧ t.src = s.src)

/-- O35. DECODE changes nothing but DEC, the source, the cursor and the events.  20_memory R50, 10_state R28.
Form chosen by the model: log entry 4. -/
def Obligations.DecodeFrame : Prop :=
  ∀ s : State, ∃ t, exec .decode s = .next t ∧ t.enc = s.enc ∧ t.dst = s.dst ∧
    (∀ a, Memory.read t.dst a = Memory.read s.dst a) ∧ t.dstSize = s.dstSize ∧ t.encCmds = s.encCmds ∧
    t.decCmds = s.decCmds ∧ t.sched = s.sched ∧ ∃ n, t.src = s.src.drop n

/-- O36. decode(encode(v)) = v, through the buffer and the source.  41_decoder R151, 40_encoder R113.
Form chosen by the model: log entries 4, 6 and 8. -/
def Obligations.EncodeThenDecode : Prop :=
  ∀ (v : Word) (c : Nib) (s t : State), s.enc.ph = .idle → capOverstated c s.dstSize = false → encLen v ≤ c.toNat →
    exec (.encode v c) s = .next t →
    ∀ (u : State) (bs : List Byte) (tail : List SrcEvent), u.dec.ph = .idle →
      bs.map some = (List.range t.enc.rlen.toNat).map (Memory.read t.dst) →
      u.src = bs.map SrcEvent.byte ++ tail →
      ∃ w, exec .decode u = .next w ∧ w.dec.status = .ok ∧ w.dec.value = v ∧ w.dec.kind = 0 ∧
        w.dec.nread = t.enc.rlen ∧ w.src = tail ∧ w.dec.ph = .idle ∧
        w.trace.getLast? = some (.decRsp .ok v 0 t.enc.rlen)

/-- O37. The micro-step table of ENC.  40_encoder R110, 20_memory R52.
Form chosen by the model: log entries 3, 6 and 18. -/
def Obligations.EncMicroSteps : Prop :=
  ∀ s : State,
    (∀ (v : Word) (c : Nib), s.enc.ph = .idle → capOverstated c s.dstSize = false →
      encAccept v c s = .next { s with
        enc := { s.enc with val := v, cap := c, len := 1, thr := 0x80, ph := .ladder }
        trace := s.trace ++ [.encCmd v c] }) ∧
    (∀ (v : Word) (c : Nib), s.enc.ph ≠ .idle → encAccept v c s = .next s) ∧
    (s.enc.ph = .ladder → ge64 s.enc.val s.enc.thr = true → s.enc.len ≠ 8 →
      encOwn s = .next { s with enc := { s.enc with thr := shl64 s.enc.thr 7, len := s.enc.len + 1 } }) ∧
    (s.enc.ph = .ladder → ge64 s.enc.val s.enc.thr = true → s.enc.len = 8 → s.enc.cap.toNat < 9 →
      encOwn s = .next { s with enc := { s.enc with len := 9, status := .bufferTooSmall, rlen := 0, ph := .frsp } }) ∧
    (s.enc.ph = .ladder → ge64 s.enc.val s.enc.thr = true → s.enc.len = 8 → 9 ≤ s.enc.cap.toNat →
      encOwn s = .next { s with enc := { s.enc with len := 9, idx := 0, ph := .emit } }) ∧
    (s.enc.ph = .ladder → ge64 s.enc.val s.enc.thr = false → s.enc.cap.toNat < s.enc.len.toNat →
      encOwn s = .next { s with enc := { s.enc with
        word := shl64 (shl64 s.enc.val 1 ||| 1) (s.enc.len.toNat - 1), status := .bufferTooSmall, rlen := 0
        ph := .frsp } }) ∧
    (s.enc.ph = .ladder → ge64 s.enc.val s.enc.thr = false → s.enc.len.toNat ≤ s.enc.cap.toNat →
      encOwn s = .next { s with enc := { s.enc with
        word := shl64 (shl64 s.enc.val 1 ||| 1) (s.enc.len.toNat - 1), idx := 0, ph := .emit } }) ∧
    (s.enc.ph = .emit → s.enc.idx.toNat < s.dstSize →
      ∀ b, b = (if s.enc.len = 9 then (if s.enc.idx = 0 then 0x00 else byteOf s.enc.val (s.enc.idx.toNat - 1))
          else byteOf s.enc.word s.enc.idx.toNat) →
      encOwn s = .next { s with
        dst := Memory.write s.dst s.enc.idx.toNat b
        trace := s.trace ++ [.dstWrite s.enc.idx b]
        enc := if s.enc.idx + 1 = s.enc.len then
            { s.enc with idx := s.enc.idx + 1, status := .ok, rlen := s.enc.len, ph := .resp }
          else { s.enc with idx := s.enc.idx + 1 } }) ∧
    (s.enc.ph = .idle ∨ s.enc.ph = .resp ∨ s.enc.ph = .frsp ∨ s.enc.ph = .fault → encOwn s = .next s) ∧
    (s.enc.ph = .resp → s.deliverEnc =
      { s with enc := { s.enc with ph := .idle }, trace := s.trace ++ [.encRsp .ok s.enc.rlen] }) ∧
    (s.enc.ph = .frsp → s.deliverEnc =
      { s with enc := { s.enc with ph := .fault }, trace := s.trace ++ [.encRsp .bufferTooSmall 0] })

/-- O38. The micro-step table of DEC.  41_decoder R147, 60_exceptions R192, R196.
Form chosen by the model: log entry 18. -/
def Obligations.DecMicroSteps : Prop :=
  ∀ (s : State) (es : List SrcEvent),
    (s.dec.ph = .idle → decAccept s = { s with
      dec := { s.dec with esc := false, len := 0, cnt := 0, acc := 0, ph := .head }, trace := s.trace ++ [.decCmd] }) ∧
    (s.dec.ph = .head → s.src = .byte 0x00 :: es → srcStep s = { s with
      src := es, cursor := s.cursor + 1, trace := s.trace ++ [.srcByte 0x00]
      dec := { s.dec with cnt := 1, esc := true, len := 9, acc := 0, ph := .cont } }) ∧
    (∀ b : Byte, b ≠ 0x00 → ctz8 b ≠ 0 → s.dec.ph = .head → s.src = .byte b :: es → srcStep s = { s with
      src := es, cursor := s.cursor + 1, trace := s.trace ++ [.srcByte b]
      dec := { s.dec with cnt := 1, esc := false, len := 1 + ctz8 b, acc := b.setWidth 64, ph := .cont } }) ∧
    (∀ b : Byte, ctz8 b = 0 → s.dec.ph = .head → s.src = .byte b :: es → srcStep s = State.finish { s with
      src := es, cursor := s.cursor + 1, trace := s.trace ++ [.srcByte b]
      dec := { s.dec with cnt := 1, esc := false, len := 1, acc := b.setWidth 64 } }) ∧
    (∀ k : Nib, s.dec.ph = .head → s.src = .err k :: es → srcStep s = { s with
      src := es, trace := s.trace ++ [.srcErr k]
      dec := { s.dec with status := .endOfInput, value := 0, kind := k, nread := 0, ph := .resp } }) ∧
    (∀ b : Byte, s.dec.ph = .cont → s.src = .byte b :: es → srcStep s =
      (if s.dec.cnt + 1 = s.dec.len then State.finish else id) { s with
        src := es, cursor := s.cursor + 1, trace := s.trace ++ [.srcByte b]
        dec := { s.dec with
          acc := s.dec.acc ||| shl64 (b.setWidth 64) (8 * (if s.dec.esc then s.dec.cnt.toNat - 1 else s.dec.cnt.toNat))
          cnt := s.dec.cnt + 1 } }) ∧
    (∀ k : Nib, s.dec.ph = .cont → s.src = .err k :: es → srcStep s = { s with
      src := es, trace := s.trace ++ [.srcErr k]
      dec := { s.dec with status := .endOfInput, value := 0, kind := k, nread := s.dec.cnt, ph := .resp } }) ∧
    (∀ (v : Word) (bad : Bool),
      v = (if s.dec.esc then s.dec.acc else shr64 s.dec.acc s.dec.len.toNat) →
      bad = (if s.dec.esc then lt64 v 0x100000000000000
        else decide (1 < s.dec.len.toNat) && lt64 v (minM s.dec.len.toNat)) →
      s.finish = { s with dec := { s.dec with
        status := if bad then .malformedVarint else .ok, value := if bad then 0 else v, kind := 0
        nread := s.dec.cnt, ph := .resp } }) ∧
    (s.dec.ph = .resp → s.deliverDec = { s with
      dec := { s.dec with ph := .idle }
      trace := s.trace ++ [.decRsp s.dec.status s.dec.value s.dec.kind s.dec.nread] })

/-- O39. The whole ENCODE is its micro-steps: same state, same events, same order.  40_encoder R115, 10_state R29, 92_eei_decisions D23.
Form chosen by the model: log entries 2, 3, 4, 6 and 17. -/
def Obligations.EncodeIsItsMicroSteps : Prop :=
  ∀ (s : State) (q : List Turn), s.enc.ph = .idle →
    Sys2Proof.core.run 19 (s.setSched (microEncode ++ q)) = step (s.setSched (.op .encCmd :: q))

/-- O40. The whole DECODE is its micro-steps: same state, same events, same order.  41_decoder R144, R147, 10_state R29, 92_eei_decisions D23.
Form chosen by the model: log entries 3, 4 and 17. -/
def Obligations.DecodeIsItsMicroSteps : Prop :=
  ∀ (s : State) (q : List Turn), s.dec.ph = .idle →
    Sys2Proof.core.run 11 (s.setSched (microDecode ++ q)) = step (s.setSched (.op .decCmd :: q))

/-- O41. With nothing scheduled, an accepted ENCODE reaches its response in at most 17 micro-steps.  70_reset_and_hazards R232, 40_encoder R115.
Form chosen by the model: log entry 2. -/
def Obligations.EncodeReachesResponse : Prop :=
  ∀ s : State, s.Inv → s.sched = [] → s.enc.ph = .ladder ∨ s.enc.ph = .emit →
    ∃ t, Sys2Proof.core.run 17 s = .next t ∧ (t.enc.ph = .resp ∨ t.enc.ph = .frsp)

/-- O42. With nothing scheduled the machine moves in LADDER and EMIT only, and waits everywhere else.  70_reset_and_hazards R229, R230, R232, 40_encoder R110.
Form chosen by the model: log entries 2 and 3. -/
def Obligations.WaitsAndEndOfRun : Prop :=
  ∀ s : State, s.Inv → s.sched = [] →
    (s.enc.ph = .ladder ∨ s.enc.ph = .emit → ∃ t, step s = .next t ∧ t ≠ s) ∧
    (s.enc.ph ≠ .ladder → s.enc.ph ≠ .emit → step s = .next s) ∧
    (s.atEnd = true → step s = .next s ∧ encFault s.enc = false ∧ s.enc.busy = false ∧ s.dec.busy = false)

/-- O43. A turn for a whole operation runs the instruction decoded from its channel.  30_encoding R81, R85, 10_state R30.
Form chosen by the model: log entries 1, 4 and 10. -/
def Obligations.StepRunsTheDecodedInstruction : Prop :=
  ∀ (s : State) (q : List Turn),
    (∀ (w : BitVec 68) (ws : List (BitVec 68)), s.sched = .op .encCmd :: q → s.enc.ph = .idle → s.encCmds = w :: ws →
      decode (.enc w) = .ok (.encode (encWordValue w) (encWordCap w), []) ∧
      step s = exec (.encode (encWordValue w) (encWordCap w)) ((s.setSched q).setEncCmds ws)) ∧
    (∀ n, s.sched = .op .decCmd :: q → s.dec.ph = .idle → s.decCmds = n + 1 →
      decode .dec = .ok (.decode, []) ∧ step s = exec .decode ((s.setSched q).setDecCmds n)) ∧
    (∀ (i : Instr) (rest : List Byte), s.sched = .op .src :: q → s.dec.ph = .head →
      decode (.wire (bytesAhead 9 s.src)) = .ok (i, rest) →
      step s = exec i ((s.setSched q).setSrc (s.src.drop ((bytesAhead 9 s.src).length - rest.length))))

/-- O44. A source that begins with the bytes of a wire form runs that form.  30_encoding R83, R85, 20_memory R56.
Form chosen by the model: log entries 1, 4 and 10. -/
def Obligations.StepRunsTheEncodedForm : Prop :=
  ∀ (s : State) (q : List Turn) (i : Instr) (tail : List SrcEvent), s.sched = .op .src :: q → s.dec.ph = .head →
    isWire i = true → i.wellFormed = true → s.src = (encode i).wireBytes.map SrcEvent.byte ++ tail →
    step s = exec i ((s.setSched q).setSrc tail)

/-- O45. What reset does, and that nothing else clears the encoder fault.  70_reset_and_hazards R220, R221, 10_state R27, 60_exceptions R200.
Form chosen by the model: log entry 16. -/
def Obligations.ResetStep : Prop :=
  (∀ (s : State) (q : List Turn), s.sched = .reset :: q → step s = .next { s with
      sched := q
      enc := { ph := .idle, val := 0, cap := 0, len := 0, thr := 0, word := 0, idx := 0, status := .ok, rlen := 0 }
      dec := { ph := .idle, esc := false, len := 0, cnt := 0, acc := 0, status := .ok, value := 0, kind := 0
               nread := 0 }
      trace := s.trace ++ [.reset] }) ∧
    State.reset.enc =
      { ph := .idle, val := 0, cap := 0, len := 0, thr := 0, word := 0, idx := 0, status := .ok, rlen := 0 } ∧
    State.reset.dec =
      { ph := .idle, esc := false, len := 0, cnt := 0, acc := 0, status := .ok, value := 0, kind := 0, nread := 0 } ∧
    encFault State.reset.enc = false ∧
    (∀ s t : State, encFault s.enc = true → s.runsReset = false → step s = .next t → encFault t.enc = true)

/-- O46. A faulted ENC does nothing until reset.  60_exceptions R191, R200, 10_state R27, 40_encoder R110, R111.
Form chosen by the model: log entries 3 and 5. -/
def Obligations.FaultedEncoderIsDead : Prop :=
  ∀ s t : State, s.enc.ph = .fault → s.runsReset = false → step s = .next t →
    t.enc = s.enc ∧ (∃ es, t.trace = s.trace ++ es ∧ ∀ e ∈ es, e.ofEnc = false) ∧
    (s.runsHost = false → t.encCmds = s.encCmds)

/-- O47. State.reset meets the invariant.  70_reset_and_hazards R220, notes/assumptions/7.
Form chosen by the model: log entry 7. -/
def Obligations.ResetStateMeetsInvariant : Prop :=
  State.reset.Inv

/-- O48. Every step keeps the invariant of the units, of DST and of the events.  10_state R23, R24, R25, 40_encoder R110, R112, 41_decoder R146, R147, R149.
Form chosen by the model: log entries 1 and 24. -/
def Obligations.StepKeepsInvariant : Prop :=
  ∀ s t : State, s.Inv → step s = .next t → t.Inv

/-- O49. No step writes outside the buffer.  20_memory R52, 40_encoder R107, 20_memory R62.
Form chosen by the model: log entry 24. -/
def Obligations.StepNeverFaults : Prop :=
  ∀ (s : State) (r : Fault), s.Inv → step s ≠ .fault r

/-- O50. No instruction faults, in any state, and only an overstated cap is refused.  20_memory R52, 40_encoder R107, R109.
Form chosen by the model: log entries 4, 6 and 24. -/
def Obligations.ExecNeverFaults : Prop :=
  (∀ (i : Instr) (s : State) (r : Fault), exec i s ≠ .fault r) ∧
    (∀ (i : Instr) (s : State) (r : Refusal), exec i s = .refused r →
      r = .capOverstated ∧ ∃ v c, i = .encode v c ∧ s.enc.ph = .idle ∧ capOverstated c s.dstSize = true)

/-- O51. When a step is refused.  70_reset_and_hazards R225, R226, R227, 93_implementation_defined U10, U13.
Form chosen by the model: log entries 6 and 15. -/
def Obligations.StepRefusals : Prop :=
  ∀ (s : State) (r : Refusal), step s = .refused r →
    (r = .capOverstated ∧ s.enc.ph = .idle ∧
      ∃ w ws, s.encCmds = w :: ws ∧ capOverstated (encWordCap w) s.dstSize = true) ∨
    (r = .dstInUse ∧ s.enc.ownsDst = true ∧ ∃ bs q, s.sched = .host (.setDst bs) :: q) ∨
    (r = .srcInUse ∧ s.dec.ownsSrc = true ∧ ∃ es q, s.sched = .host (.setSrc es) :: q)

/-- O52. The cursor advances by one at each src_byte event and at no other time.  20_memory R56, 10_state R22.
Form chosen by the model: log entry 16. -/
def Obligations.CursorCountsBytes : Prop :=
  ∀ s t : State, step s = .next t →
    ∃ es, t.trace = s.trace ++ es ∧ t.cursor = s.cursor + bytesTaken es

/-- O53. An event that is not enabled does not happen; one event at a time.  10_state R30.
Form chosen by the model: log entry 16. -/
def Obligations.EventsOnlyWhenEnabled : Prop :=
  ∀ s t : State, s.runsOp = false → step s = .next t →
    t.trace = s.trace ∨ ∃ e : Event, t.trace = s.trace ++ [e] ∧ e.enabled s

/-- O54. Response registers change only when their unit ends an operation, or at reset.  10_state R25. -/
def Obligations.ResponseRegistersKeep : Prop :=
  ∀ s t : State, s.runsOp = false → s.runsReset = false → step s = .next t →
    ((t.enc.status = s.enc.status ∧ t.enc.rlen = s.enc.rlen) ∨
      (t.enc.ph = .resp ∨ t.enc.ph = .frsp) ∧ s.enc.ph ≠ t.enc.ph) ∧
    ((t.dec.status = s.dec.status ∧ t.dec.value = s.dec.value ∧ t.dec.kind = s.dec.kind ∧ t.dec.nread = s.dec.nread) ∨
      t.dec.ph = .resp ∧ s.dec.ph ≠ .resp)

/-- O55. A step writes at most the byte at E_IDX, and only in EMIT.  20_memory R50, R52, 40_encoder R110.
Form chosen by the model: log entry 14. -/
def Obligations.StepDstFrame : Prop :=
  ∀ s t : State, s.runsOp = false → s.runsHost = false → step s = .next t →
    t.dstSize = s.dstSize ∧
    ∀ a, ¬ (s.enc.ph = .emit ∧ a = s.enc.idx.toNat) → Memory.read t.dst a = Memory.read s.dst a

/-- O56. No move of the host touches a register of a unit, the cursor or the events.  10_state R21, R29, 60_exceptions R203.
Form chosen by the model: log entry 14. -/
def Obligations.HostCannotTouchTheUnits : Prop :=
  (∀ (s t : State) (a : HostAct) (q : List Turn), s.sched = .host a :: q → step s = .next t →
      t.enc = s.enc ∧ t.dec = s.dec ∧ t.cursor = s.cursor ∧ t.trace = s.trace ∧ t.sched = q) ∧
    (∀ (s : State) (i : Nat) (b : Byte) (q : List Turn), s.sched = .host (.putDst i b) :: q →
      ∃ t, step s = .next t ∧ (i < s.dstSize → Memory.read t.dst i = some b) ∧ (s.dstSize ≤ i → t.dst = s.dst) ∧
        ∀ a, a ≠ i → Memory.read t.dst a = Memory.read s.dst a)

/-- O57. Turns of ENC and turns of DEC commute.  20_memory R65, 10_state R28, 60_exceptions R203.
Form chosen by the model: log entries 1 and 16. -/
def Obligations.UnitsCommute : Prop :=
  ∀ (s t : State) (a b : Turn), a.ofEnc = true → b.ofDec = true → andThen (turn a s) (turn b) = .next t →
    ∃ u, andThen (turn b s) (turn a) = .next u ∧ ({ u with trace := t.trace } : State) = t ∧
      u.trace.filter Event.ofEnc = t.trace.filter Event.ofEnc ∧
      u.trace.filter (fun e => !e.ofEnc) = t.trace.filter (fun e => !e.ofEnc)

/-- O58. What ENC does depends on nothing of DEC.  10_state R28, 20_memory R65. -/
def Obligations.EncodeSideIndependent : Prop :=
  ∀ (s₁ s₂ t₁ : State) (a : Turn), a.ofEnc = true → s₁.enc = s₂.enc → s₁.dst = s₂.dst → s₁.dstSize = s₂.dstSize →
    s₁.encCmds = s₂.encCmds → turn a s₁ = .next t₁ →
    ∃ t₂, turn a s₂ = .next t₂ ∧ t₁.enc = t₂.enc ∧ t₁.dst = t₂.dst ∧ t₁.encCmds = t₂.encCmds ∧
      ∃ es, t₁.trace = s₁.trace ++ es ∧ t₂.trace = s₂.trace ++ es

/-- O59. What DEC does depends on nothing of ENC.  10_state R28, 20_memory R65. -/
def Obligations.DecodeSideIndependent : Prop :=
  ∀ (s₁ s₂ : State) (b : Turn), b.ofDec = true → s₁.dec = s₂.dec → s₁.src = s₂.src → s₁.cursor = s₂.cursor →
    s₁.decCmds = s₂.decCmds →
    ∃ t₁ t₂, turn b s₁ = .next t₁ ∧ turn b s₂ = .next t₂ ∧ t₁.dec = t₂.dec ∧ t₁.src = t₂.src ∧
      t₁.cursor = t₂.cursor ∧ t₁.decCmds = t₂.decCmds ∧
      ∃ es, t₁.trace = s₁.trace ++ es ∧ t₂.trace = s₂.trace ++ es
end

