-- ==== Sys2Proof/Laws/State.lean ====
section
/-! SUPPORT. One lemma per field per update of State, so that no proof unfolds a record update. -/

namespace Sys2Proof.Machine

@[simp] theorem State.setEnc_enc (s : State) (e : Enc) : (s.setEnc e).enc = e := rfl
@[simp] theorem State.setEnc_dec (s : State) (e : Enc) : (s.setEnc e).dec = s.dec := rfl
@[simp] theorem State.setEnc_dst (s : State) (e : Enc) : (s.setEnc e).dst = s.dst := rfl
@[simp] theorem State.setEnc_dstSize (s : State) (e : Enc) : (s.setEnc e).dstSize = s.dstSize := rfl
@[simp] theorem State.setEnc_src (s : State) (e : Enc) : (s.setEnc e).src = s.src := rfl
@[simp] theorem State.setEnc_cursor (s : State) (e : Enc) : (s.setEnc e).cursor = s.cursor := rfl
@[simp] theorem State.setEnc_encCmds (s : State) (e : Enc) : (s.setEnc e).encCmds = s.encCmds := rfl
@[simp] theorem State.setEnc_decCmds (s : State) (e : Enc) : (s.setEnc e).decCmds = s.decCmds := rfl
@[simp] theorem State.setEnc_sched (s : State) (e : Enc) : (s.setEnc e).sched = s.sched := rfl
@[simp] theorem State.setEnc_trace (s : State) (e : Enc) : (s.setEnc e).trace = s.trace := rfl

@[simp] theorem State.setDec_enc (s : State) (d : Dec) : (s.setDec d).enc = s.enc := rfl
@[simp] theorem State.setDec_dec (s : State) (d : Dec) : (s.setDec d).dec = d := rfl
@[simp] theorem State.setDec_dst (s : State) (d : Dec) : (s.setDec d).dst = s.dst := rfl
@[simp] theorem State.setDec_dstSize (s : State) (d : Dec) : (s.setDec d).dstSize = s.dstSize := rfl
@[simp] theorem State.setDec_src (s : State) (d : Dec) : (s.setDec d).src = s.src := rfl
@[simp] theorem State.setDec_cursor (s : State) (d : Dec) : (s.setDec d).cursor = s.cursor := rfl
@[simp] theorem State.setDec_encCmds (s : State) (d : Dec) : (s.setDec d).encCmds = s.encCmds := rfl
@[simp] theorem State.setDec_decCmds (s : State) (d : Dec) : (s.setDec d).decCmds = s.decCmds := rfl
@[simp] theorem State.setDec_sched (s : State) (d : Dec) : (s.setDec d).sched = s.sched := rfl
@[simp] theorem State.setDec_trace (s : State) (d : Dec) : (s.setDec d).trace = s.trace := rfl

@[simp] theorem State.setDst_enc (s : State) (m : List Host.Cell) : (s.setDst m).enc = s.enc := rfl
@[simp] theorem State.setDst_dec (s : State) (m : List Host.Cell) : (s.setDst m).dec = s.dec := rfl
@[simp] theorem State.setDst_dst (s : State) (m : List Host.Cell) : (s.setDst m).dst = m := rfl
@[simp] theorem State.setDst_dstSize (s : State) (m : List Host.Cell) : (s.setDst m).dstSize = s.dstSize := rfl
@[simp] theorem State.setDst_src (s : State) (m : List Host.Cell) : (s.setDst m).src = s.src := rfl
@[simp] theorem State.setDst_cursor (s : State) (m : List Host.Cell) : (s.setDst m).cursor = s.cursor := rfl
@[simp] theorem State.setDst_encCmds (s : State) (m : List Host.Cell) : (s.setDst m).encCmds = s.encCmds := rfl
@[simp] theorem State.setDst_decCmds (s : State) (m : List Host.Cell) : (s.setDst m).decCmds = s.decCmds := rfl
@[simp] theorem State.setDst_sched (s : State) (m : List Host.Cell) : (s.setDst m).sched = s.sched := rfl
@[simp] theorem State.setDst_trace (s : State) (m : List Host.Cell) : (s.setDst m).trace = s.trace := rfl

@[simp] theorem State.setDstSize_enc (s : State) (n : Nat) : (s.setDstSize n).enc = s.enc := rfl
@[simp] theorem State.setDstSize_dec (s : State) (n : Nat) : (s.setDstSize n).dec = s.dec := rfl
@[simp] theorem State.setDstSize_dst (s : State) (n : Nat) : (s.setDstSize n).dst = s.dst := rfl
@[simp] theorem State.setDstSize_dstSize (s : State) (n : Nat) : (s.setDstSize n).dstSize = n := rfl
@[simp] theorem State.setDstSize_src (s : State) (n : Nat) : (s.setDstSize n).src = s.src := rfl
@[simp] theorem State.setDstSize_cursor (s : State) (n : Nat) : (s.setDstSize n).cursor = s.cursor := rfl
@[simp] theorem State.setDstSize_encCmds (s : State) (n : Nat) : (s.setDstSize n).encCmds = s.encCmds := rfl
@[simp] theorem State.setDstSize_decCmds (s : State) (n : Nat) : (s.setDstSize n).decCmds = s.decCmds := rfl
@[simp] theorem State.setDstSize_sched (s : State) (n : Nat) : (s.setDstSize n).sched = s.sched := rfl
@[simp] theorem State.setDstSize_trace (s : State) (n : Nat) : (s.setDstSize n).trace = s.trace := rfl

@[simp] theorem State.setSrc_enc (s : State) (es : List SrcEvent) : (s.setSrc es).enc = s.enc := rfl
@[simp] theorem State.setSrc_dec (s : State) (es : List SrcEvent) : (s.setSrc es).dec = s.dec := rfl
@[simp] theorem State.setSrc_dst (s : State) (es : List SrcEvent) : (s.setSrc es).dst = s.dst := rfl
@[simp] theorem State.setSrc_dstSize (s : State) (es : List SrcEvent) : (s.setSrc es).dstSize = s.dstSize := rfl
@[simp] theorem State.setSrc_src (s : State) (es : List SrcEvent) : (s.setSrc es).src = es := rfl
@[simp] theorem State.setSrc_cursor (s : State) (es : List SrcEvent) : (s.setSrc es).cursor = s.cursor := rfl
@[simp] theorem State.setSrc_encCmds (s : State) (es : List SrcEvent) : (s.setSrc es).encCmds = s.encCmds := rfl
@[simp] theorem State.setSrc_decCmds (s : State) (es : List SrcEvent) : (s.setSrc es).decCmds = s.decCmds := rfl
@[simp] theorem State.setSrc_sched (s : State) (es : List SrcEvent) : (s.setSrc es).sched = s.sched := rfl
@[simp] theorem State.setSrc_trace (s : State) (es : List SrcEvent) : (s.setSrc es).trace = s.trace := rfl

@[simp] theorem State.setCursor_enc (s : State) (n : Nat) : (s.setCursor n).enc = s.enc := rfl
@[simp] theorem State.setCursor_dec (s : State) (n : Nat) : (s.setCursor n).dec = s.dec := rfl
@[simp] theorem State.setCursor_dst (s : State) (n : Nat) : (s.setCursor n).dst = s.dst := rfl
@[simp] theorem State.setCursor_dstSize (s : State) (n : Nat) : (s.setCursor n).dstSize = s.dstSize := rfl
@[simp] theorem State.setCursor_src (s : State) (n : Nat) : (s.setCursor n).src = s.src := rfl
@[simp] theorem State.setCursor_cursor (s : State) (n : Nat) : (s.setCursor n).cursor = n := rfl
@[simp] theorem State.setCursor_encCmds (s : State) (n : Nat) : (s.setCursor n).encCmds = s.encCmds := rfl
@[simp] theorem State.setCursor_decCmds (s : State) (n : Nat) : (s.setCursor n).decCmds = s.decCmds := rfl
@[simp] theorem State.setCursor_sched (s : State) (n : Nat) : (s.setCursor n).sched = s.sched := rfl
@[simp] theorem State.setCursor_trace (s : State) (n : Nat) : (s.setCursor n).trace = s.trace := rfl

@[simp] theorem State.setEncCmds_enc (s : State) (ws : List (BitVec 68)) : (s.setEncCmds ws).enc = s.enc := rfl
@[simp] theorem State.setEncCmds_dec (s : State) (ws : List (BitVec 68)) : (s.setEncCmds ws).dec = s.dec := rfl
@[simp] theorem State.setEncCmds_dst (s : State) (ws : List (BitVec 68)) : (s.setEncCmds ws).dst = s.dst := rfl
@[simp] theorem State.setEncCmds_dstSize (s : State) (ws : List (BitVec 68)) : (s.setEncCmds ws).dstSize = s.dstSize := rfl
@[simp] theorem State.setEncCmds_src (s : State) (ws : List (BitVec 68)) : (s.setEncCmds ws).src = s.src := rfl
@[simp] theorem State.setEncCmds_cursor (s : State) (ws : List (BitVec 68)) : (s.setEncCmds ws).cursor = s.cursor := rfl
@[simp] theorem State.setEncCmds_encCmds (s : State) (ws : List (BitVec 68)) : (s.setEncCmds ws).encCmds = ws := rfl
@[simp] theorem State.setEncCmds_decCmds (s : State) (ws : List (BitVec 68)) : (s.setEncCmds ws).decCmds = s.decCmds := rfl
@[simp] theorem State.setEncCmds_sched (s : State) (ws : List (BitVec 68)) : (s.setEncCmds ws).sched = s.sched := rfl
@[simp] theorem State.setEncCmds_trace (s : State) (ws : List (BitVec 68)) : (s.setEncCmds ws).trace = s.trace := rfl

@[simp] theorem State.setDecCmds_enc (s : State) (n : Nat) : (s.setDecCmds n).enc = s.enc := rfl
@[simp] theorem State.setDecCmds_dec (s : State) (n : Nat) : (s.setDecCmds n).dec = s.dec := rfl
@[simp] theorem State.setDecCmds_dst (s : State) (n : Nat) : (s.setDecCmds n).dst = s.dst := rfl
@[simp] theorem State.setDecCmds_dstSize (s : State) (n : Nat) : (s.setDecCmds n).dstSize = s.dstSize := rfl
@[simp] theorem State.setDecCmds_src (s : State) (n : Nat) : (s.setDecCmds n).src = s.src := rfl
@[simp] theorem State.setDecCmds_cursor (s : State) (n : Nat) : (s.setDecCmds n).cursor = s.cursor := rfl
@[simp] theorem State.setDecCmds_encCmds (s : State) (n : Nat) : (s.setDecCmds n).encCmds = s.encCmds := rfl
@[simp] theorem State.setDecCmds_decCmds (s : State) (n : Nat) : (s.setDecCmds n).decCmds = n := rfl
@[simp] theorem State.setDecCmds_sched (s : State) (n : Nat) : (s.setDecCmds n).sched = s.sched := rfl
@[simp] theorem State.setDecCmds_trace (s : State) (n : Nat) : (s.setDecCmds n).trace = s.trace := rfl

@[simp] theorem State.setSched_enc (s : State) (ts : List Turn) : (s.setSched ts).enc = s.enc := rfl
@[simp] theorem State.setSched_dec (s : State) (ts : List Turn) : (s.setSched ts).dec = s.dec := rfl
@[simp] theorem State.setSched_dst (s : State) (ts : List Turn) : (s.setSched ts).dst = s.dst := rfl
@[simp] theorem State.setSched_dstSize (s : State) (ts : List Turn) : (s.setSched ts).dstSize = s.dstSize := rfl
@[simp] theorem State.setSched_src (s : State) (ts : List Turn) : (s.setSched ts).src = s.src := rfl
@[simp] theorem State.setSched_cursor (s : State) (ts : List Turn) : (s.setSched ts).cursor = s.cursor := rfl
@[simp] theorem State.setSched_encCmds (s : State) (ts : List Turn) : (s.setSched ts).encCmds = s.encCmds := rfl
@[simp] theorem State.setSched_decCmds (s : State) (ts : List Turn) : (s.setSched ts).decCmds = s.decCmds := rfl
@[simp] theorem State.setSched_sched (s : State) (ts : List Turn) : (s.setSched ts).sched = ts := rfl
@[simp] theorem State.setSched_trace (s : State) (ts : List Turn) : (s.setSched ts).trace = s.trace := rfl

@[simp] theorem State.emit_enc (s : State) (e : Event) : (s.emit e).enc = s.enc := rfl
@[simp] theorem State.emit_dec (s : State) (e : Event) : (s.emit e).dec = s.dec := rfl
@[simp] theorem State.emit_dst (s : State) (e : Event) : (s.emit e).dst = s.dst := rfl
@[simp] theorem State.emit_dstSize (s : State) (e : Event) : (s.emit e).dstSize = s.dstSize := rfl
@[simp] theorem State.emit_src (s : State) (e : Event) : (s.emit e).src = s.src := rfl
@[simp] theorem State.emit_cursor (s : State) (e : Event) : (s.emit e).cursor = s.cursor := rfl
@[simp] theorem State.emit_encCmds (s : State) (e : Event) : (s.emit e).encCmds = s.encCmds := rfl
@[simp] theorem State.emit_decCmds (s : State) (e : Event) : (s.emit e).decCmds = s.decCmds := rfl
@[simp] theorem State.emit_sched (s : State) (e : Event) : (s.emit e).sched = s.sched := rfl
@[simp] theorem State.emit_trace (s : State) (e : Event) : (s.emit e).trace = s.trace ++ [e] := rfl

end Sys2Proof.Machine
end

