-- ==== Sys2Proof/Laws/Ops.lean ====
section
/-! SUPPORT. For each shared operation, once, everything it can do. -/

namespace Sys2Proof.Machine

/-! ### Sequencing -/

@[simp] theorem andThen_next (s : State) (f : State → Host.Outcome State Fault Refusal) :
    andThen (.next s) f = f s := rfl
@[simp] theorem andThen_fault (r : Fault) (f : State → Host.Outcome State Fault Refusal) :
    andThen (.fault r) f = .fault r := rfl
@[simp] theorem andThen_refused (r : Refusal) (f : State → Host.Outcome State Fault Refusal) :
    andThen (.refused r) f = .refused r := rfl

theorem andThen_eq_next {o : Host.Outcome State Fault Refusal} {f : State → Host.Outcome State Fault Refusal}
    {t : State} : andThen o f = .next t ↔ ∃ s, o = .next s ∧ f s = .next t := by
  cases o <;> simp

/-! ### The two accesses -/

/-- A write that goes through: inside the buffer, one byte of DST and one event. -/
theorem memWrite_next {i : Nib} {b : Byte} {s t : State} (h : memWrite i b s = .next t) :
    i.toNat < s.dstSize ∧ t = (s.setDst (Memory.write s.dst i.toNat b)).emit (.dstWrite i b) := by
  unfold memWrite at h
  split at h
  · exact ⟨by assumption, by injection h with h; exact h.symm⟩
  · cases h

theorem memWrite_inside {i : Nib} (b : Byte) {s : State} (h : i.toNat < s.dstSize) :
    memWrite i b s = .next ((s.setDst (Memory.write s.dst i.toNat b)).emit (.dstWrite i b)) := if_pos h

/-- A read takes the head of the source, or finds none (20_memory R55). -/
theorem memRead_cases (s : State) :
    (s.src = [] ∧ memRead s = none) ∨
    (∃ b es, s.src = .byte b :: es ∧
      memRead s = some (.byte b, ((s.setSrc es).setCursor (s.cursor + 1)).emit (.srcByte b))) ∨
    (∃ k es, s.src = .err k :: es ∧ memRead s = some (.err k, (s.setSrc es).emit (.srcErr k))) := by
  unfold memRead
  rcases hs : s.src with _ | ⟨e, es⟩
  · exact .inl ⟨rfl, rfl⟩
  · cases e with
    | byte b => exact .inr (.inl ⟨b, es, rfl, rfl⟩)
    | err k => exact .inr (.inr ⟨k, es, rfl, rfl⟩)

/-! ### Ending an operation -/

/-- BufferTooSmall touches ENC alone, and of ENC the phase and the response registers. -/
theorem State.raise_bufferTooSmall (s : State) :
    s.raise .bufferTooSmall = s.setEnc { s.enc with status := .bufferTooSmall, rlen := 0, ph := .frsp } := rfl

theorem State.raise_endOfInput (s : State) (k n : Nib) :
    s.raise (.endOfInput k n) =
      s.setDec { s.dec with status := .endOfInput, value := 0, kind := k, nread := n, ph := .resp } := rfl

theorem State.raise_malformedVarint (s : State) (n : Nib) :
    s.raise (.malformedVarint n) =
      s.setDec { s.dec with status := .malformedVarint, value := 0, kind := 0, nread := n, ph := .resp } := rfl

/-- FINISH touches DEC alone: the phase goes to `RESP`, the response registers are set, the working registers stay. -/
theorem State.finish_eq (s : State) :
    s.finish = s.setDec { s.dec with
      status := if nonCanonical s.dec.esc s.dec.len (recovered s.dec.esc s.dec.len s.dec.acc) then .malformedVarint else .ok
      value := if nonCanonical s.dec.esc s.dec.len (recovered s.dec.esc s.dec.len s.dec.acc) then 0
        else recovered s.dec.esc s.dec.len s.dec.acc
      kind := 0, nread := s.dec.cnt, ph := .resp } := by
  unfold State.finish
  split <;> simp_all [State.raise, State.succeedDec]

/-- Delivering `enc_rsp`: from `RESP`, from `FRSP`, or nothing. -/
theorem State.deliverEnc_cases (s : State) :
    (s.enc.ph = .resp ∧ s.deliverEnc = (s.emit (.encRsp .ok s.enc.rlen)).setEnc { s.enc with ph := .idle }) ∨
    (s.enc.ph = .frsp ∧ s.deliverEnc = (s.emit (.encRsp .bufferTooSmall 0)).setEnc { s.enc with ph := .fault }) ∨
    (s.enc.ph ≠ .resp ∧ s.enc.ph ≠ .frsp ∧ s.deliverEnc = s) := by
  unfold State.deliverEnc
  cases h : s.enc.ph <;> simp

/-- Delivering `dec_rsp`: from `RESP`, or nothing. -/
theorem State.deliverDec_cases (s : State) :
    (s.dec.ph = .resp ∧ s.deliverDec =
      (s.emit (.decRsp s.dec.status s.dec.value s.dec.kind s.dec.nread)).setDec { s.dec with ph := .idle }) ∨
    (s.dec.ph ≠ .resp ∧ s.deliverDec = s) := by
  unfold State.deliverDec
  cases h : s.dec.ph <;> simp

/-! ### The micro-steps of ENC -/

/-- The capacity check: the fault, or `EMIT` from index 0. -/
theorem State.checkCap_cases (s : State) :
    (capShort s.enc.cap s.enc.len = true ∧
      s.checkCap = s.setEnc { s.enc with status := .bufferTooSmall, rlen := 0, ph := .frsp }) ∨
    (capShort s.enc.cap s.enc.len = false ∧ s.checkCap = s.setEnc { s.enc with idx := 0, ph := .emit }) := by
  unfold State.checkCap
  cases h : capShort s.enc.cap s.enc.len <;> simp [State.raise]

/-- E-ACCEPT when it answers a next state. -/
theorem encAccept_cases {v : Word} {c : Nib} {s t : State} (h : encAccept v c s = .next t) :
    (s.enc.ph = .idle ∧ capOverstated c s.dstSize = false ∧
      t = (s.emit (.encCmd v c)).setEnc (s.enc.accept v c)) ∨ (s.enc.ph ≠ .idle ∧ t = s) := by
  unfold encAccept at h
  split at h
  · split at h
    · cases h
    · rename_i h1 h2
      injection h with h
      exact .inl ⟨h1, by simpa using h2, h.symm⟩
  · injection h with h
    exact .inr ⟨by assumption, h.symm⟩

/-- E-EMIT when it answers a next state. -/
theorem encEmit_next {s t : State} (h : encEmit s = .next t) :
    s.enc.idx.toNat < s.dstSize ∧
      t = ((s.setDst (Memory.write s.dst s.enc.idx.toNat s.enc.outByte)).emit
        (.dstWrite s.enc.idx s.enc.outByte)).advance := by
  obtain ⟨u, h1, h2⟩ := andThen_eq_next.1 h
  obtain ⟨hi, rfl⟩ := memWrite_next h1
  injection h2 with h2
  exact ⟨hi, h2.symm⟩

/-- ENC's own micro-step when it answers a next state: one of the four, or a wait. -/
theorem encOwn_cases {s t : State} (h : encOwn s = .next t) :
    (s.enc.ph = .ladder ∧ ge64 s.enc.val s.enc.thr = true ∧ s.enc.len = Config.maxShortLen ∧ t = encEsc s) ∨
    (s.enc.ph = .ladder ∧ ge64 s.enc.val s.enc.thr = true ∧ s.enc.len ≠ Config.maxShortLen ∧ t = encUp s) ∨
    (s.enc.ph = .ladder ∧ ge64 s.enc.val s.enc.thr = false ∧ t = encShort s) ∨
    (s.enc.ph = .emit ∧ encEmit s = .next t) ∨
    (s.enc.ph ≠ .ladder ∧ s.enc.ph ≠ .emit ∧ t = s) := by
  unfold encOwn at h
  cases hp : s.enc.ph <;> simp only [hp] at h
  case ladder =>
    split at h
    · rename_i h1
      split at h
      · rename_i h2
        injection h with h
        exact .inl ⟨rfl, h1, h2, h.symm⟩
      · rename_i h2
        injection h with h
        exact .inr (.inl ⟨rfl, h1, h2, h.symm⟩)
    · rename_i h1
      injection h with h
      exact .inr (.inr (.inl ⟨rfl, by simpa using h1, h.symm⟩))
  case emit => exact .inr (.inr (.inr (.inl ⟨rfl, h⟩)))
  all_goals
    injection h with h
    exact .inr (.inr (.inr (.inr ⟨by simp, by simp, h.symm⟩)))

/-! ### The micro-steps of DEC -/

/-- A turn of the source: a wait, or one event taken by DEC in `PREFIX` or `CONT`. -/
theorem srcStep_cases (s : State) :
    (srcStep s = s) ∨
    (∃ b es, s.dec.wantsSrc = true ∧ s.src = .byte b :: es ∧
      srcStep s = decTake (.byte b) (((s.setSrc es).setCursor (s.cursor + 1)).emit (.srcByte b))) ∨
    (∃ k es, s.dec.wantsSrc = true ∧ s.src = .err k :: es ∧
      srcStep s = decTake (.err k) ((s.setSrc es).emit (.srcErr k))) := by
  unfold srcStep
  cases hw : s.dec.wantsSrc
  · exact .inl rfl
  · rcases memRead_cases s with ⟨-, h⟩ | ⟨b, es, h1, h⟩ | ⟨k, es, h1, h⟩ <;> simp [h]
    · exact .inr (.inl ⟨b, es, h1, rfl⟩)
    · exact .inr (.inr ⟨k, es, h1, rfl⟩)

/-! ### The host, and a step -/

/-- A move of the host never touches a unit's registers, the schedule, the cursor or the events. -/
theorem hostStep_frame {a : HostAct} {s t : State} (h : hostStep a s = .next t) :
    t.enc = s.enc ∧ t.dec = s.dec ∧ t.cursor = s.cursor ∧ t.trace = s.trace ∧ t.sched = s.sched := by
  unfold hostStep at h
  cases a <;> simp only at h
  case putDst => split at h <;> (injection h with h; subst h; simp)
  case setDst => split at h <;> first | (injection h with h; subst h; simp) | cases h
  case setSrc => split at h <;> first | (injection h with h; subst h; simp) | cases h
  all_goals (injection h with h; subst h; simp)

/-- A step is the turn at the head of the schedule, or ENC's own micro-step when there is none. -/
theorem step_cases (s : State) :
    (s.sched = [] ∧ step s = encOwn s) ∨
    (∃ t ts, s.sched = t :: ts ∧ step s = turn t (s.setSched ts)) := by
  unfold step
  rcases h : s.sched with _ | ⟨t, ts⟩
  · exact .inl ⟨rfl, rfl⟩
  · exact .inr ⟨t, ts, rfl, rfl⟩

end Sys2Proof.Machine
end

