-- ==== Sys2Proof/Laws/PerInstr.lean ====
section
/-! SUPPORT. Statements about each instruction as syntax. -/

namespace Sys2Proof.Laws

namespace FirstByte

/-- A wire form's bytes begin with a byte that selects the form's own row, and are as many as the row says
(30_encoding R72, R74); a command has no bytes on SRC (R81). -/
def Statement (i : Instr) : Prop :=
  match i with
  | .vi1 v => (shortBytes 1 v).length = 1 ∧ ((shortBytes 1 v).head?.bind rowOf).map WireRow.len = some 1
  | .vi2 v => (shortBytes 2 v).length = 2 ∧ ((shortBytes 2 v).head?.bind rowOf).map WireRow.len = some 2
  | .vi3 v => (shortBytes 3 v).length = 3 ∧ ((shortBytes 3 v).head?.bind rowOf).map WireRow.len = some 3
  | .vi4 v => (shortBytes 4 v).length = 4 ∧ ((shortBytes 4 v).head?.bind rowOf).map WireRow.len = some 4
  | .vi5 v => (shortBytes 5 v).length = 5 ∧ ((shortBytes 5 v).head?.bind rowOf).map WireRow.len = some 5
  | .vi6 v => (shortBytes 6 v).length = 6 ∧ ((shortBytes 6 v).head?.bind rowOf).map WireRow.len = some 6
  | .vi7 v => (shortBytes 7 v).length = 7 ∧ ((shortBytes 7 v).head?.bind rowOf).map WireRow.len = some 7
  | .vi8 v => (shortBytes 8 v).length = 8 ∧ ((shortBytes 8 v).head?.bind rowOf).map WireRow.len = some 8
  | .viesc v => (escBytes v).length = 9 ∧ ((escBytes v).head?.bind rowOf).map WireRow.len = some 9
  | .encode v c => (encode (.encode v c)).wireBytes = []
  | .decode => (encode .decode).wireBytes = []

/-- The first byte of a short form is its word's low byte. -/
theorem head_shortBytes (len : Nat) (v : Word) (h : 0 < len) :
    (shortBytes len v).head? = some (Sys2Proof.Machine.byteOf (wireWord len v) 0) := by
  obtain ⟨n, rfl⟩ : ∃ n, len = n + 1 := ⟨len - 1, by omega⟩
  simp [shortBytes, List.range_succ_eq_map]

theorem length_shortBytes (len : Nat) (v : Word) : (shortBytes len v).length = len := by simp [shortBytes]

/-- The row a first byte selects: the position of its lowest set bit, plus one (30_encoding R74). -/
theorem rowOf_len : ∀ (b : Byte) (n : Fin 8), (∀ i : Fin 8, i ≤ n → b.getLsbD i.val = (i == n)) →
    (rowOf b).map WireRow.len = some (n.val + 1) := by
  decide

/-- The low `len` bits of a short form's first byte: a one above `len - 1` zeros (30_encoding R71). -/
theorem low_bits (len : Nat) (v : Word) (i : Nat) (h8 : len ≤ 8) (hi : i < len) :
    (Sys2Proof.Machine.byteOf (wireWord len v) 0).getLsbD i = decide (i = len - 1) := by
  have h : i < 8 := by omega
  have h' : i < 64 := by omega
  have h1 : len - 1 < 64 := by omega
  simp only [Sys2Proof.Machine.byteOf, wireWord, BitVec.getLsbD_extractLsb', BitVec.getLsbD_or,
    BitVec.getLsbD_shiftLeft, h]
  by_cases hc : i = len - 1
  · simp [hc, h1]
  · have h2 : i < len - 1 := by omega
    have h3 : ¬ len ≤ i := by omega
    simp [hc, h2, h3]

/-- What `Statement` says of a short form, for every length. -/
theorem short (len : Nat) (v : Word) (h0 : 0 < len) (h8 : len ≤ 8) :
    (shortBytes len v).length = len ∧ ((shortBytes len v).head?.bind rowOf).map WireRow.len = some len := by
  refine ⟨length_shortBytes len v, ?_⟩
  rw [head_shortBytes len v h0, Option.bind_some]
  have h := rowOf_len (Sys2Proof.Machine.byteOf (wireWord len v) 0) ⟨len - 1, by omega⟩ (fun i hi => by
    have hi' : i.val ≤ len - 1 := hi
    rw [low_bits len v i.val h8 (by omega), Bool.eq_iff_iff]
    simp [Fin.ext_iff])
  rw [h, Nat.sub_add_cancel h0]

theorem vi1 (v : Word) : Statement (.vi1 v) := short 1 v (by decide) (by decide)

theorem vi2 (v : Word) : Statement (.vi2 v) := short 2 v (by decide) (by decide)

theorem vi3 (v : Word) : Statement (.vi3 v) := short 3 v (by decide) (by decide)

theorem vi4 (v : Word) : Statement (.vi4 v) := short 4 v (by decide) (by decide)

theorem vi5 (v : Word) : Statement (.vi5 v) := short 5 v (by decide) (by decide)

theorem vi6 (v : Word) : Statement (.vi6 v) := short 6 v (by decide) (by decide)

theorem vi7 (v : Word) : Statement (.vi7 v) := short 7 v (by decide) (by decide)

theorem vi8 (v : Word) : Statement (.vi8 v) := short 8 v (by decide) (by decide)

theorem viesc (v : Word) : Statement (.viesc v) :=
  ⟨by simp [escBytes], by simp only [escBytes, List.head?_cons, Option.bind_some]; decide⟩

theorem encode (v : Word) (c : Nib) : Statement (.encode v c) := rfl

theorem decode : Statement .decode := rfl

end FirstByte

end Sys2Proof.Laws
end

