-- ==== Sys2Proof/Laws/Units.lean ====
section
/-! SUPPORT. What the units' shared operations leave alone, and what a run of writes or of bytes adds. -/

namespace Sys2Proof.Machine

/-- Two states that differ in the registers of DEC alone. -/
def SameButDec (s t : State) : Prop := t = s.setDec t.dec

theorem SameButDec.refl (s : State) : SameButDec s s := rfl

theorem SameButDec.trans {s t u : State} (h1 : SameButDec s t) (h2 : SameButDec t u) : SameButDec s u := by
  unfold SameButDec at *
  rw [h2, h1]
  rfl

theorem sameButDec_setDec (s : State) (d : Dec) : SameButDec s (s.setDec d) := rfl

theorem sameButDec_finish (s : State) : SameButDec s s.finish := by
  rw [State.finish_eq]
  exact sameButDec_setDec _ _

/-- D-PREFIX, D-PREFIX-ERR, D-CONT, D-CONT-ERR touch the registers of DEC alone (41_decoder R147). -/
theorem sameButDec_decTake (ev : SrcEvent) (s : State) : SameButDec s (decTake ev s) := by
  unfold decTake
  split
  · unfold decFirst
    split
    · exact sameButDec_setDec _ _
    · dsimp only
      split
      · exact (sameButDec_setDec _ _).trans (sameButDec_finish _)
      · exact sameButDec_setDec _ _
  · exact sameButDec_setDec _ _
  · unfold decMore
    dsimp only
    split
    · exact (sameButDec_setDec _ _).trans (sameButDec_finish _)
    · exact sameButDec_setDec _ _
  · exact sameButDec_setDec _ _
  all_goals exact SameButDec.refl _

/-- Taking bytes touches the registers of DEC, advances the cursor by their number and adds their events. -/
theorem takeBytes_eq (bs : List Byte) (s : State) :
    takeBytes bs s = { s with
      dec := (takeBytes bs s).dec
      cursor := s.cursor + bs.length
      trace := s.trace ++ bs.map Event.srcByte } := by
  induction bs generalizing s with
  | nil => simp [takeBytes]
  | cons b bs ih =>
    have h := sameButDec_decTake (.byte b) ((s.setCursor (s.cursor + 1)).emit (.srcByte b))
    unfold SameButDec at h
    rw [takeBytes, ih]
    rw [h]
    simp [State.setDec, State.setCursor, State.emit]
    omega

/-- A run of writes that fits the buffer lays the bytes in DST and adds their events (20_memory R52). -/
theorem emitBytes_inside (bs : List Byte) (i : Nib) (s : State) (h : i.toNat + bs.length ≤ s.dstSize)
    (h16 : i.toNat + bs.length ≤ 16) :
    emitBytes bs i s = .next { s with
      dst := Memory.writeBytes s.dst i.toNat bs
      trace := s.trace ++ writeEvents i.toNat bs } := by
  induction bs generalizing i s with
  | nil => simp [emitBytes, Memory.writeBytes, writeEvents]
  | cons b bs ih =>
    simp only [List.length_cons] at h h16
    rw [emitBytes, memWrite_inside b (by omega), andThen_next]
    cases bs with
    | nil => simp [emitBytes, Memory.writeBytes, writeEvents, State.setDst, State.emit]
    | cons c cs =>
      simp only [List.length_cons] at h h16 ih
      have hi : (i + 1).toNat = i.toNat + 1 := by
        have : (1 : Nib).toNat = 1 := rfl
        rw [BitVec.toNat_add, this]
        omega
      rw [ih (i + 1) _ (by simp only [hi, State.emit_dstSize, State.setDst_dstSize]; omega) (by omega), hi]
      simp [Memory.writeBytes, writeEvents, State.setDst, State.emit]

/-- A DECODE, from its command on, touches DEC, the source, the cursor and the events alone. -/
theorem readRest_frame (n j : Nat) (s : State) :
    (readRest n j s).enc = s.enc ∧ (readRest n j s).dst = s.dst ∧ (readRest n j s).dstSize = s.dstSize ∧
    (readRest n j s).encCmds = s.encCmds ∧ (readRest n j s).decCmds = s.decCmds ∧
    (readRest n j s).sched = s.sched := by
  induction n generalizing j s with
  | zero => simp [readRest, State.finish_eq]
  | succ n ih =>
    rcases memRead_cases s with ⟨-, h⟩ | ⟨b, es, -, h⟩ | ⟨k, es, -, h⟩
    · simp [readRest, h]
    · simp only [readRest, h]
      have := ih (j + 1) ((((s.setSrc es).setCursor (s.cursor + 1)).emit (.srcByte b)).setDec
        { (((s.setSrc es).setCursor (s.cursor + 1)).emit (.srcByte b)).dec with
          acc := (((s.setSrc es).setCursor (s.cursor + 1)).emit (.srcByte b)).dec.acc |||
            shl64 (b.setWidth 64) (8 * j)
          cnt := (((s.setSrc es).setCursor (s.cursor + 1)).emit (.srcByte b)).dec.cnt + 1 })
      simpa using this
    · simp [readRest, h, State.raise]

end Sys2Proof.Machine
end

