-- ==== Sys2Proof/Tests/Slice0.lean ====
section
/-! SUPPORT. Tests: expected results are the spec's own vectors (95_test_vectors, 30_encoding, 40_encoder R114,
41_decoder R152), never the model's answers.  After them, one witness per statement that has hypotheses. -/

namespace Sys2Proof.Tests

open Sys2Proof Sys2Proof.Machine

/-! ### Helpers: small states, and what a step delivered -/

/-- DEC waiting for a first byte. -/
def stHead : State := { State.reset with dec := { Dec.reset with ph := .head } }

/-- A source that delivers these bytes and then this error. -/
def srcOf (bs : List Byte) (k : Nib) : List SrcEvent := bs.map SrcEvent.byte ++ [.err k]

/-- DEC idle, one DECODE on offer, this source, the turn for the whole operation. -/
def stDecode (bs : List Byte) (k : Nib) : State :=
  { State.reset with src := srcOf bs k, decCmds := 1, sched := [.op .decCmd] }

/-- ENC idle, this command word on offer, DST beginning with two bytes AA, the turn for the whole operation. -/
def stEncode (w : BitVec 68) : State :=
  { State.reset with dst := [(0, 0xAA), (1, 0xAA)], encCmds := [w], sched := [.op .encCmd] }

/-- ENC just after E-ACCEPT of `enc_cmd(v, c)`. -/
def stLadder (v : Word) (c : Nib) : State :=
  { State.reset with enc := Enc.reset.accept v c, trace := [.encCmd v c] }

/-- ENC in `EMIT` with two bytes of 300 to write. -/
def stEmit : State :=
  { State.reset with
    enc := { ph := .emit, val := 300, cap := 9, len := 2, thr := 0x4000, word := 0x4B2, idx := 0, status := .ok, rlen := 0 }
    trace := [.encCmd 300 9] }

/-- ENC in `FAULT`. -/
def stFault : State :=
  { State.reset with enc := { Enc.reset with ph := .fault, status := .bufferTooSmall } }

/-- A state with ENC in this phase. -/
def stEnc (p : EPhase) : State := { State.reset with enc := { Enc.reset with ph := p } }

/-- A state with DEC in this phase. -/
def stDec (p : DPhase) : State := { State.reset with dec := { Dec.reset with ph := p } }

/-- The last event of a next state. -/
def lastEvent (o : Host.Outcome State Fault Refusal) : Option Event :=
  match o with
  | .next s => s.trace.getLast?
  | .fault _ => none
  | .refused _ => none

/-- DST of a next state. -/
def dstOf (o : Host.Outcome State Fault Refusal) : Option (List Host.Cell) :=
  match o with
  | .next s => some s.dst
  | .fault _ => none
  | .refused _ => none

/-- The phases, the cursor and what is left of the source in a next state. -/
def placeOf (o : Host.Outcome State Fault Refusal) : Option (EPhase × DPhase × Nat × Nat) :=
  match o with
  | .next s => some (s.enc.ph, s.dec.ph, s.cursor, s.src.length)
  | .fault _ => none
  | .refused _ => none

/-- An instruction read from bytes. -/
def readsAs (bs : List Byte) : Option Instr :=
  match decodeWire bs with
  | .ok (i, _) => some i
  | .error _ => none

/-! ### Well-formedness refuses a payload one past its field (30_encoding R71) -/

theorem smoke_vi1_too_wide : (Instr.vi1 (2 ^ 7)).wellFormed = false := by decide
theorem smoke_vi2_too_wide : (Instr.vi2 (2 ^ 14)).wellFormed = false := by decide
theorem smoke_vi3_too_wide : (Instr.vi3 (2 ^ 21)).wellFormed = false := by decide
theorem smoke_vi4_too_wide : (Instr.vi4 (2 ^ 28)).wellFormed = false := by decide
theorem smoke_vi5_too_wide : (Instr.vi5 (2 ^ 35)).wellFormed = false := by decide
theorem smoke_vi6_too_wide : (Instr.vi6 (2 ^ 42)).wellFormed = false := by decide
theorem smoke_vi7_too_wide : (Instr.vi7 (2 ^ 49)).wellFormed = false := by decide
theorem smoke_vi8_too_wide : (Instr.vi8 (2 ^ 56)).wellFormed = false := by decide
theorem smoke_greatest_payloads_fit :
    (Instr.vi1 (2 ^ 7 - 1)).wellFormed = true ∧ (Instr.vi8 (2 ^ 56 - 1)).wellFormed = true ∧
      (Instr.viesc (-1)).wellFormed = true := by decide

/-! ### Decoding, by words from the spec's tables (95 V1 to V36, E30; R80) -/

/-- `ppppppp1` with `p` = 1111111: V2. -/
theorem test_decode_vi1 : readsAs [0b11111111] = some (.vi1 127) := by decide
/-- `pppppp10`: E11, `B2 04`. -/
theorem test_decode_vi2 : readsAs [0b10110010, 0x04] = some (.vi2 300) := by decide
/-- `ppppp100`: E15, `FC FF 07`. -/
theorem test_decode_vi3 : readsAs [0b11111100, 0xFF, 0x07] = some (.vi3 0xFFFF) := by decide
/-- `pppp1000`: V16. -/
theorem test_decode_vi4 : readsAs [0b00001000, 0x00, 0x00, 0x02] = some (.vi4 (2 ^ 21)) := by decide
/-- `ppp10000`: E21. -/
theorem test_decode_vi5 : readsAs [0b11110000, 0xDD, 0xB7, 0xD5, 0x1B] = some (.vi5 0xDEADBEEF) := by decide
/-- `pp100000`: V24. -/
theorem test_decode_vi6 : readsAs [0b00100000, 0, 0, 0, 0, 0x80] = some (.vi6 (2 ^ 41)) := by decide
/-- `p1000000`: E28. -/
theorem test_decode_vi7 :
    readsAs [0b11000000, 0xFF, 0xFF, 0xFF, 0xFF, 0xFF, 0xFF] = some (.vi7 (2 ^ 49 - 1)) := by decide
/-- `10000000`: E30. -/
theorem test_decode_vi8 :
    readsAs [0b10000000, 0xDE, 0xBC, 0x9A, 0x78, 0x56, 0x34, 0x12] = some (.vi8 0x123456789ABCDE) := by decide
/-- `00000000`: E37. -/
theorem test_decode_viesc :
    readsAs [0b00000000, 0x10, 0x32, 0x54, 0x76, 0x98, 0xBA, 0xDC, 0xFE] = some (.viesc 0xFEDCBA9876543210) := by decide
/-- `cap` [67:64], `value` [63:0]: EC12. -/
theorem test_decode_encode : decode (.enc 0xF00000000DEADBEEF) = .ok (.encode 0xDEADBEEF 15, []) := by rfl
theorem test_decode_decode : decode .dec = .ok (.decode, []) := by rfl
/-- V43 offers two bytes where `AC` asks for three. -/
theorem test_decode_truncated : decodeWire [0xAC, 0x02] = .error (.truncated 3 2) := by rfl
theorem test_decode_no_byte : decodeWire [] = .error .noByte := by rfl

/-- The opcode table's own numbering: least significant byte first; the command words by their widths. -/
theorem test_table_words :
    decodeTableWord 16 0x04B2 = some (.vi2 300) ∧ decodeTableWord 8 0x80 = some (.vi8 0) ∧
      decodeTableWord 72 0x010000000000000000 = some (.viesc (2 ^ 56)) ∧
      decodeTableWord 68 0x9000000000000012C = some (.encode 300 9) ∧
      decodeTableWord 72 0x9000000000000012C = some (.encode 300 9) ∧
      decodeTableWord 0 0 = some .decode := by decide

/-- A placed word is what the very next step runs: VIESC of 2^56, VI2 of 300, ENCODE 300 in a 2-byte buffer's worth of
`cap`, and DECODE of a source that has nothing (20_memory R54: it waits). -/
theorem test_fetch_words :
    lastEvent (step (State.reset.withFetchWord 72 0x010000000000000000)) = some (.decRsp .ok (2 ^ 56) 0 9) ∧
    lastEvent (step (State.reset.withFetchWord 16 0x04B2)) = some (.decRsp .ok 300 0 2) ∧
    lastEvent (step (State.reset.withFetchWord 72 0x2000000000000012C)) = some (.encRsp .ok 2) ∧
    lastEvent (step (State.reset.withFetchWord 0 0)) = some .decCmd := by decide

/-! ### The encoder writes what the tables say (95 table E) -/

theorem test_encode_words :
    encode (.vi2 300) = .wire [0xB2, 0x04] ∧ encode (.vi5 0xDEADBEEF) = .wire [0xF0, 0xDD, 0xB7, 0xD5, 0x1B] ∧
      encode (.viesc 0x0123456789ABCDEF) = .wire [0x00, 0xEF, 0xCD, 0xAB, 0x89, 0x67, 0x45, 0x23, 0x01] ∧
      encode (.encode 300 9) = .enc 0x9000000000000012C := by decide

/-! ### Each wire form, one step (95 table V) -/

/-- V2. -/
theorem test_vi1 : lastEvent (exec (.vi1 127) stHead) = some (.decRsp .ok 127 0 1) := by decide
/-- V7, V11: the boundary of length 2. -/
theorem test_vi2 : lastEvent (exec (.vi2 128) stHead) = some (.decRsp .ok 128 0 2) ∧
    lastEvent (exec (.vi2 127) stHead) = some (.decRsp .malformedVarint 0 0 2) := by decide
/-- V12, V14. -/
theorem test_vi3 : lastEvent (exec (.vi3 (2 ^ 14)) stHead) = some (.decRsp .ok (2 ^ 14) 0 3) ∧
    lastEvent (exec (.vi3 8192) stHead) = some (.decRsp .malformedVarint 0 0 3) := by decide
/-- V16, V17. -/
theorem test_vi4 : lastEvent (exec (.vi4 (2 ^ 21)) stHead) = some (.decRsp .ok (2 ^ 21) 0 4) ∧
    lastEvent (exec (.vi4 0) stHead) = some (.decRsp .malformedVarint 0 0 4) := by decide
/-- V20, V21. -/
theorem test_vi5 : lastEvent (exec (.vi5 (2 ^ 28)) stHead) = some (.decRsp .ok (2 ^ 28) 0 5) ∧
    lastEvent (exec (.vi5 0) stHead) = some (.decRsp .malformedVarint 0 0 5) := by decide
/-- V23, V25. -/
theorem test_vi6 : lastEvent (exec (.vi6 (2 ^ 35)) stHead) = some (.decRsp .ok (2 ^ 35) 0 6) ∧
    lastEvent (exec (.vi6 0) stHead) = some (.decRsp .malformedVarint 0 0 6) := by decide
/-- V27, V28. -/
theorem test_vi7 : lastEvent (exec (.vi7 (2 ^ 42)) stHead) = some (.decRsp .ok (2 ^ 42) 0 7) ∧
    lastEvent (exec (.vi7 0) stHead) = some (.decRsp .malformedVarint 0 0 7) := by decide
set_option maxRecDepth 8192 in
/-- V31, and 41_decoder R152: 2^49 - 1 in 8 bytes. -/
theorem test_vi8 : lastEvent (exec (.vi8 (2 ^ 56 - 1)) stHead) = some (.decRsp .ok (2 ^ 56 - 1) 0 8) ∧
    lastEvent (exec (.vi8 (2 ^ 49 - 1)) stHead) = some (.decRsp .malformedVarint 0 0 8) := by decide
set_option maxRecDepth 8192 in
/-- V35, V38. -/
theorem test_viesc : lastEvent (exec (.viesc (2 ^ 56)) stHead) = some (.decRsp .ok (2 ^ 56) 0 9) ∧
    lastEvent (exec (.viesc (2 ^ 56 - 1)) stHead) = some (.decRsp .malformedVarint 0 0 9) := by decide

/-! ### ENCODE and DECODE, one step -/

/-- EC1: `B2 04`, response word 0x02. -/
theorem test_encode_300 : dstOf (step (stEncode 0x9000000000000012C)) = some [(0, 0xB2), (1, 0x04)] ∧
    (lastEvent (step (stEncode 0x9000000000000012C))).map Event.word = some (6, 0x02) := by decide
/-- EC9: 2^56 with `cap` 8 writes nothing and faults; response word 0x10. -/
theorem test_encode_fault : dstOf (step (stEncode 0x80100000000000000)) = some [(0, 0xAA), (1, 0xAA)] ∧
    (lastEvent (step (stEncode 0x80100000000000000))).map Event.word = some (6, 0x10) ∧
    placeOf (step (stEncode 0x80100000000000000)) = some (.fault, .idle, 0, 0) := by decide
/-- V4 (`05 99`: the second byte stays) and V36. -/
theorem test_decode_ok : lastEvent (step (stDecode [0x05, 0x99] 1)) = some (.decRsp .ok 2 0 1) ∧
    placeOf (step (stDecode [0x05, 0x99] 1)) = some (.idle, .idle, 1, 2) ∧
    (lastEvent (step (stDecode [0, 0xFF, 0xFF, 0xFF, 0xFF, 0xFF, 0xFF, 0xFF, 0xFF] 1))).map Event.word =
      some (74, 0x009FFFFFFFFFFFFFFFF) := by decide
/-- VK2 (a platform kind is copied) and V40 (a clean end). -/
theorem test_decode_errors :
    (lastEvent (step (stDecode [0xF0, 0xDD, 0xB7] 7))).map Event.word = some (74, 0x2730000000000000000) ∧
    (lastEvent (step (stDecode [] 1))).map Event.word = some (74, 0x2100000000000000000) := by decide
/-- R143: a source that stalls leaves DEC waiting, with no response. -/
theorem test_decode_stall :
    lastEvent (step { stDecode [] 1 with src := [.byte 0x10, .byte 0xAA] }) = some (.srcByte 0xAA) ∧
    placeOf (step { stDecode [] 1 with src := [.byte 0x10, .byte 0xAA] }) = some (.idle, .cont, 2, 0) := by decide

/-! ### The primitives (95 A1 to A28), the boundaries of the lengths (R75) -/

set_option maxRecDepth 8192 in
theorem test_shcmp :
    shl64 0x8000000000000001 1 = 2 ∧ shr64 0xFFFFFFFFFFFFFF80 8 = 0x00FFFFFFFFFFFFFF ∧ shl64 1 64 = 0 ∧
      ctz8 0xB2 = 1 ∧ ctz8 0xC0 = 6 ∧ byteOf 0x1BD5B7DDF0 1 = 0xDD ∧ leAsm [0xB2, 0x04] = 0x04B2 ∧
      ge64 (2 ^ 63) 128 = true ∧ lt64 127 (minM 2) = true := by decide
theorem test_length_boundaries :
    ([0, 127, 128, 16383, 16384, 2 ^ 21 - 1, 2 ^ 21, 2 ^ 28 - 1, 2 ^ 28, 2 ^ 35 - 1, 2 ^ 35, 2 ^ 42 - 1, 2 ^ 42,
        2 ^ 49 - 1, 2 ^ 49, 2 ^ 56 - 1, 2 ^ 56, 2 ^ 64 - 1] : List Word).map encLen =
      [1, 1, 2, 2, 3, 3, 4, 4, 5, 5, 6, 6, 7, 7, 8, 8, 9, 9] := by decide

/-! ### Witnesses: for each statement with hypotheses, states and operands that meet them, clause by clause -/

theorem witness_FirstByteGivesLength : lenOfFirst 0x00 = 9 ∧ lenOfFirst 0x01 = 1 ∧ lenOfFirst 0x80 = 8 ∧
    decodeWire [0x80, 0, 0, 0, 0, 0, 0, 2, 7] = .ok (.vi8 (2 ^ 49), [7]) := ⟨by decide, by decide, by decide, rfl⟩
theorem witness_DecodeOfEncode : (Instr.vi8 (2 ^ 56 - 1)).wellFormed = true ∧ isWire (.vi8 (2 ^ 56 - 1)) = true ∧
    (Instr.encode (-1) 15).wellFormed = true := by decide
theorem witness_EncodeOfDecode : decodeWire [0x02, 0x00, 0x09] = .ok (.vi2 0, [0x09]) := rfl
theorem witness_EveryFirstByteSelectsAForm :
    ([0x00, 1, 2, 3, 4, 5, 6, 7] : List Byte).length < lenOfFirst 0x00 ∧
      lenOfFirst 0x00 ≤ ([0x00, 1, 2, 3, 4, 5, 6, 7, 8] : List Byte).length ∧
      lenOfFirst 0x01 ≤ ([0x01] : List Byte).length := by decide
theorem witness_IllegalEncodingsByLastByte : fitsShort 1 127 = true ∧ fitsShort 2 127 = true ∧
    fitsShort 8 (2 ^ 49 - 1) = true ∧ encLen (2 ^ 49 - 1) ≠ 8 ∧
    (shortBytes 8 (2 ^ 49 - 1)).getLast? = some 0x01 ∧ canonical (.viesc (2 ^ 56 - 1)) = false := by decide
theorem witness_ShiftsBitByBit : (63 : Nat) < 64 ∧ (64 : Nat) ≤ 200 := by decide
theorem witness_ComparatorUnsigned : (1 : Nat) ≤ 8 ∧ (8 : Nat) ≤ 8 := by decide
theorem witness_TrailingZeroCount : (0x80 : Byte) ≠ 0 ∧ (ctz8 0x80).toNat = 7 := by decide
theorem witness_BytePickAndAssembly : 1 ≤ ([0xB2] : List Byte).length ∧
    ([0, 0xFF, 0, 1, 2, 3, 4, 5] : List Byte).length ≤ 8 ∧ (7 : Nat) < 8 := by decide
theorem witness_ThresholdTables : rungT 7 = 2 ^ 49 ∧ minM 2 = 128 ∧ minM 8 = 2 ^ 49 := by decide
theorem witness_LadderClosedForm : (2 : Nat) ≤ 8 ∧ encLen (2 ^ 49) = 8 ∧ encLen (2 ^ 56) = 9 := by decide
theorem witness_ShortWordLosesNothing : encLen (2 ^ 56 - 1) ≤ 8 ∧ encLen 0 ≤ 8 ∧ (0 : Nat) < encLen 128 - 1 := by decide
theorem witness_EncodeCompletes : State.reset.enc.ph = .idle ∧ capOverstated 9 State.reset.dstSize = false ∧
    encLen (-1) ≤ (9 : Nib).toNat := by decide
theorem witness_EncodeBufferTooSmall : State.reset.enc.ph = .idle ∧ capOverstated 8 State.reset.dstSize = false ∧
    (8 : Nib).toNat < encLen (2 ^ 56) ∧ (0 : Nib).toNat < encLen 0 ∧ encLen 128 ≤ (2 : Nib).toNat ∧
    ∃ t, exec (.encode 128 2) State.reset = .next t :=
  ⟨by decide, by decide, by decide, by decide, by decide, _, rfl⟩
theorem witness_EncodeLeaves : State.reset.enc.ph = .idle ∧ capOverstated 1 State.reset.dstSize = false ∧
    encLen 127 ≤ (1 : Nib).toNat ∧ (1 : Nib).toNat < encLen 128 := by decide
theorem witness_EncodeTotalOnValues : State.reset.enc.ph = .idle ∧ 9 ≤ State.reset.dstSize ∧ 9 ≤ (15 : Nib).toNat := by
  decide
theorem witness_EncodeDstContents : capOverstated 2 State.reset.dstSize = false ∧ encLen 128 ≤ (2 : Nib).toNat ∧
    (1 : Nib).toNat < encLen 128 ∧ (∃ t, exec (.encode 128 2) State.reset = .next t) ∧
    (∃ t, exec (.encode 128 1) State.reset = .next t) := ⟨by decide, by decide, by decide, ⟨_, rfl⟩, ⟨_, rfl⟩⟩
theorem witness_EncodeFrame : (∃ t, exec (.encode 128 2) State.reset = .next t) ∧ storesBelow 128 2 State.reset = 2 ∧
    storesBelow 128 1 State.reset = 0 := ⟨⟨_, rfl⟩, by decide, by decide⟩
theorem witness_EncodeWaitsWhileBusy : (stLadder 300 9).enc.ph ≠ .idle ∧ State.reset.enc.ph = .idle ∧
    (stEncode 0x9000000000000012C).encCmds = [0x9000000000000012C] ∧
    capOverstated (encWordCap 0x9000000000000012C) 15 = false := by decide
theorem witness_OverstatedCapRefused : State.reset.enc.ph = .idle ∧ 8 < min (15 : Nib).toNat 9 ∧ (9 : Nat) ≤ 9 := by decide
theorem witness_MinimalLength : (2 ^ 14 - 1 : Word).toNat < 2 ^ (7 * 2) ∧ encLen (2 ^ 14 - 1) = 2 ∧
    encLen (2 ^ 56) = 9 ∧ State.reset.enc.ph = .idle ∧ capOverstated 2 State.reset.dstSize = false ∧
    encLen (2 ^ 14 - 1) ≤ (2 : Nib).toNat ∧ capOverstated 15 State.reset.dstSize = false ∧
    encLen (2 ^ 56) ≤ (15 : Nib).toNat := by decide
theorem witness_CanonicalEncodingsArePrefixFree :
    canonicalBytes 128 ++ [0x01] = canonicalBytes 128 ++ [0x01] ∧ decodeWire [0x02, 0x02] = .ok (.vi2 128, []) ∧
    canonical (.vi2 128) = true := ⟨rfl, rfl, by decide⟩
theorem witness_VI1Result : fitsShort 1 127 = true ∧ fitsShort 1 0 = true ∧ stHead.dec.ph = .head := by decide
theorem witness_VI2toVI8Result : stHead.dec.ph = .head ∧ fitsShort 2 (2 ^ 14 - 1) = true ∧ fitsShort 3 (2 ^ 21 - 1) = true ∧
    fitsShort 4 (2 ^ 28 - 1) = true ∧ fitsShort 5 (2 ^ 35 - 1) = true ∧ fitsShort 6 (2 ^ 42 - 1) = true ∧
    fitsShort 7 (2 ^ 49 - 1) = true ∧ fitsShort 8 (2 ^ 56 - 1) = true := by decide
theorem witness_VIESCResult : stHead.dec.ph = .head := rfl
theorem witness_WireWaitsUnlessDecReads : isWire (.vi1 5) = true ∧ (stDec .cont).dec.ph ≠ .head ∧
    (stDec .resp).dec.ph = .resp ∧ (stDec .idle).dec.ph = .idle := by decide
theorem witness_WireFrame : isWire (.vi2 5) = true ∧ ∃ t, exec (.vi2 5) stHead = .next t := ⟨by decide, ⟨_, rfl⟩⟩
theorem witness_OnlyCanonicalIsOk : isWire (.vi2 127) = true ∧ (Instr.vi2 127).wellFormed = true ∧
    canonical (.vi2 127) = false ∧ canonical (.vi2 128) = true ∧ stHead.dec.ph = .head ∧
    (stDecode [0x10, 0xAA] 1).dec.ph = .idle ∧
    (stDecode [0x10, 0xAA] 1).src = ([0x10, 0xAA] : List Byte).map SrcEvent.byte ++ .err 1 :: [] ∧
    ∀ b ∈ ([0x10, 0xAA] : List Byte).head?, ([0x10, 0xAA] : List Byte).length < lenOfFirst b := by decide
theorem witness_DecodeIsAFunctionOfTheBytes : (stDecode [0xB2, 0x04] 1).dec.ph = .idle ∧
    (stDecode [0xB2, 0x04] 1).src = ([0xB2, 0x04] : List Byte).map SrcEvent.byte ++ .err 1 :: [] ∧
    decodeBytes [0xB2, 0x04] 1 = (.ok, 300, 0, 2) ∧ decodeBytes [0xB2] 7 = (.endOfInput, 0, 7, 1) ∧
    ({ State.reset with src := [.byte 0x10] } : State).src = ([0x10] : List Byte).map SrcEvent.byte ∧
    ∀ b ∈ ([0x10] : List Byte).head?, ([0x10] : List Byte).length < lenOfFirst b := by decide
theorem witness_DecodeTakesOneEncoding : isWire (.vi2 300) = true ∧ (Instr.vi2 300).wellFormed = true ∧
    (stDecode [0xB2, 0x04] 1).dec.ph = .idle ∧
    (stDecode [0xB2, 0x04] 1).src = (encode (.vi2 300)).wireBytes.map SrcEvent.byte ++ [.err 1] := by decide
theorem witness_DecodeWaitsWhileBusy : stHead.dec.ph ≠ .idle ∧ (stDecode [] 1).dec.ph = .idle ∧
    0 < (stDecode [] 1).decCmds := by decide
theorem witness_EncodeThenDecode : State.reset.enc.ph = .idle ∧ encLen 128 ≤ (2 : Nib).toNat ∧
    ∃ t, exec (.encode 128 2) State.reset = .next t ∧
      ([0x02, 0x02] : List Byte).map some = (List.range t.enc.rlen.toNat).map (Memory.read t.dst) :=
  ⟨by decide, by decide, _, rfl, by decide⟩
theorem witness_EncMicroSteps :
    (State.reset.enc.ph = .idle ∧ capOverstated 15 State.reset.dstSize = false ∧ (stEnc .fault).enc.ph ≠ .idle) ∧
    ((stLadder 300 9).enc.ph = .ladder ∧ ge64 (stLadder 300 9).enc.val (stLadder 300 9).enc.thr = true ∧
      (stLadder 300 9).enc.len ≠ 8) ∧
    (ge64 (2 ^ 56) (rungT 8) = true ∧ (8 : Nib).toNat < 9 ∧ 9 ≤ (9 : Nib).toNat) ∧
    (ge64 (stLadder 5 0).enc.val (stLadder 5 0).enc.thr = false ∧ (stLadder 5 0).enc.cap.toNat < (stLadder 5 0).enc.len.toNat) ∧
    (stLadder 5 1).enc.len.toNat ≤ (stLadder 5 1).enc.cap.toNat ∧
    (stEmit.enc.ph = .emit ∧ stEmit.enc.idx.toNat < stEmit.dstSize) ∧
    (stEnc .resp).enc.ph = .resp ∧ (stEnc .frsp).enc.ph = .frsp := by decide
theorem witness_DecMicroSteps : stHead.dec.ph = .head ∧ (stDec .cont).dec.ph = .cont ∧ (stDec .resp).dec.ph = .resp ∧
    (0xB2 : Byte) ≠ 0x00 ∧ ctz8 0xB2 ≠ 0 ∧ ctz8 0x01 = 0 ∧
    ({ stHead with src := [.byte 0xB2] } : State).src = .byte 0xB2 :: [] ∧
    ({ stHead with src := [.err 7] } : State).src = .err 7 :: [] := by decide
theorem witness_EncodeIsItsMicroSteps : (stEncode 0x9000000000000012C).enc.ph = .idle := rfl
theorem witness_DecodeIsItsMicroSteps : (stDecode [0xB2, 0x04] 1).dec.ph = .idle := rfl

/-- The invariant of concrete states, by evaluation. -/
theorem inv_stLadder : (stLadder 300 9).Inv :=
  ⟨by unfold Enc.Inv; decide, by unfold Dec.Inv Dec.rspOk; decide, by decide, by decide, by decide, by decide⟩
theorem inv_stEmit : stEmit.Inv :=
  ⟨by unfold Enc.Inv; decide, by unfold Dec.Inv Dec.rspOk; decide, by decide, by decide, by decide, by decide⟩

theorem witness_EncodeReachesResponse : (stLadder 300 9).Inv ∧ stEmit.Inv ∧ (stLadder 300 9).sched = [] ∧
    (stLadder 300 9).enc.ph = .ladder ∧ stEmit.enc.ph = .emit := ⟨inv_stLadder, inv_stEmit, rfl, rfl, rfl⟩
theorem inv_stQuiet : ({ State.reset with cursor := 3 } : State).Inv :=
  ⟨by unfold Enc.Inv; decide, by unfold Dec.Inv Dec.rspOk; decide, by decide, by decide, by decide, by decide⟩
theorem witness_WaitsAndEndOfRun : (stLadder 300 9).Inv ∧ stEmit.Inv ∧ ({ State.reset with cursor := 3 } : State).Inv ∧
    ({ State.reset with cursor := 3 } : State).atEnd = true ∧ ({ State.reset with cursor := 3 } : State).sched = [] :=
  ⟨inv_stLadder, inv_stEmit, inv_stQuiet, by decide, rfl⟩
theorem witness_StepRunsTheDecodedInstruction :
    ((stEncode 0x9000000000000012C).sched = .op .encCmd :: [] ∧ (stEncode 0x9000000000000012C).enc.ph = .idle ∧
      (stEncode 0x9000000000000012C).encCmds = 0x9000000000000012C :: []) ∧
    ((stDecode [] 1).sched = .op .decCmd :: [] ∧ (stDecode [] 1).dec.ph = .idle ∧ (stDecode [] 1).decCmds = 0 + 1) ∧
    decode (.wire (bytesAhead 9 [.byte 0xB2, .byte 0x04, .byte 0x01])) = .ok (.vi2 300, [0x01]) :=
  ⟨by decide, by decide, rfl⟩
theorem witness_StepRunsTheEncodedForm : isWire (.vi2 300) = true ∧ (Instr.vi2 300).wellFormed = true ∧
    ({ stHead with src := [.byte 0xB2, .byte 0x04, .err 1], sched := [.op .src] } : State).src =
      (encode (.vi2 300)).wireBytes.map SrcEvent.byte ++ [.err 1] := by decide
theorem witness_ResetStep : ({ stFault with sched := [.reset] } : State).sched = .reset :: [] ∧
    encFault stFault.enc = true ∧ stFault.runsReset = false ∧ ∃ t, step stFault = .next t :=
  ⟨by decide, by decide, by decide, ⟨_, rfl⟩⟩
theorem witness_FaultedEncoderIsDead : stFault.enc.ph = .fault ∧ stFault.runsReset = false ∧ stFault.runsHost = false ∧
    ∃ t, step stFault = .next t := ⟨rfl, rfl, rfl, ⟨_, rfl⟩⟩
theorem witness_StepKeepsInvariant : stEmit.Inv ∧ ∃ t, step stEmit = .next t := ⟨inv_stEmit, ⟨_, rfl⟩⟩
/-- A state that meets the invariant and whose step writes a byte of DST. -/
theorem witness_StepNeverFaults : stEmit.Inv ∧ ∃ t, step stEmit = .next t ∧ Memory.read stEmit.dst 0 ≠ Memory.read t.dst 0 :=
  ⟨inv_stEmit, _, rfl, by decide⟩
theorem witness_ExecNeverFaults :
    exec (.encode 128 9) { State.reset with dstSize := 8 } = .refused .capOverstated := rfl
theorem witness_StepRefusals :
    step { stEncode 0x9000000000000012C with dstSize := 8 } = .refused .capOverstated ∧
    step { stEmit with sched := [.host (.setDst [])] } = .refused .dstInUse ∧
    step { stHead with sched := [.host (.setSrc [])] } = .refused .srcInUse := ⟨rfl, rfl, rfl⟩
theorem witness_CursorCountsBytes : ∃ t, step { stHead with src := [.byte 1], sched := [.srcEvent] } = .next t :=
  ⟨_, rfl⟩
theorem witness_EventsOnlyWhenEnabled : stEmit.runsOp = false ∧ ∃ t, step stEmit = .next t ∧ t.trace ≠ stEmit.trace :=
  ⟨rfl, _, rfl, by decide⟩
theorem witness_ResponseRegistersKeep : (stLadder 5 0).runsOp = false ∧ (stLadder 5 0).runsReset = false ∧
    ∃ t, step (stLadder 5 0) = .next t ∧ t.enc.ph = .frsp := ⟨rfl, rfl, _, rfl, by decide⟩
theorem witness_StepDstFrame : stEmit.runsOp = false ∧ stEmit.runsHost = false ∧
    ∃ t, step stEmit = .next t ∧ Memory.read t.dst 0 = some 0xB2 := ⟨rfl, rfl, _, rfl, by decide⟩
theorem witness_HostCannotTouchTheUnits :
    ({ stEmit with sched := [.host (.putDst 14 7)] } : State).sched = .host (.putDst 14 7) :: [] ∧
    (∃ t, step { stEmit with sched := [.host (.putDst 14 7)] } = .next t) ∧ 14 < stEmit.dstSize ∧
    stEmit.dstSize ≤ 15 := ⟨by decide, ⟨_, rfl⟩, by decide, by decide⟩
theorem witness_UnitsCommute : Turn.encOwn.ofEnc = true ∧ (Turn.op .decCmd).ofDec = true ∧
    ∃ t, andThen (turn .encOwn stEmit) (turn (.op .decCmd)) = .next t := ⟨rfl, rfl, _, rfl⟩
theorem witness_EncodeSideIndependent : Turn.encOwn.ofEnc = true ∧
    stEmit.enc = ({ stEmit with dec := stHead.dec } : State).enc ∧ ∃ t, turn .encOwn stEmit = .next t :=
  ⟨rfl, rfl, _, rfl⟩
theorem witness_DecodeSideIndependent : Turn.srcEvent.ofDec = true ∧
    stHead.dec = ({ stHead with enc := stFault.enc } : State).dec := ⟨rfl, rfl⟩

end Sys2Proof.Tests
end

section
/-! Thresholds and lengths (40_encoder R101, R102; 42_shifter_comparator R177, R178). -/

namespace Sys2Proof.Machine

theorem rungT_toNat {k : Nat} (h : k ≤ 9) : (rungT k).toNat = 2 ^ (7 * k) := by
  have hlt : 2 ^ (7 * k) < 2 ^ 64 := Nat.pow_lt_pow_right (by decide) (by omega)
  simpa [rungT, shl64, Config.stepBits, Nat.shiftLeft_eq] using hlt

/-- One round of the ladder goes one rung up (40_encoder R101). -/
theorem shl64_rungT (k : Nat) : shl64 (rungT k) 7 = rungT (k + 1) := by
  simp only [rungT, shl64, Config.stepBits, ← BitVec.shiftLeft_add]
  rfl

theorem minM_succ {k : Nat} (h : 1 ≤ k) : minM (k + 1) = rungT k := by
  simp [minM, show ¬ k + 1 ≤ 1 by omega]

theorem minM_toNat {k : Nat} (h2 : 2 ≤ k) (h9 : k ≤ 9) : (minM k).toNat = 2 ^ (7 * (k - 1)) := by
  obtain ⟨j, rfl⟩ : ∃ j, k = j + 1 := ⟨k - 1, by omega⟩
  rw [minM_succ (by omega), rungT_toNat (by omega), Nat.add_sub_cancel]

theorem encLen_pos (v : Word) : 1 ≤ encLen v := by
  unfold encLen
  split_ifs <;> decide

theorem encLen_le_nine (v : Word) : encLen v ≤ 9 := by
  unfold encLen
  split_ifs <;> decide

theorem encLen_eq_nine {v : Word} (h : 2 ^ 56 ≤ v.toNat) : encLen v = 9 := by
  unfold encLen
  split_ifs <;> omega

/-- Between the least value of length `k` and the rung of `k`, the length is `k` (40_encoder R102). -/
theorem encLen_eq_of_range {v : Word} {k : Nat} (h1 : 1 ≤ k) (h8 : k ≤ 8) (hlo : (minM k).toNat ≤ v.toNat)
    (hhi : v.toNat < (rungT k).toNat) : encLen v = k := by
  rw [rungT_toNat (by omega)] at hhi
  obtain rfl | h2 := h1.eq_or_lt
  · exact if_pos hhi
  · rw [minM_toNat h2 (by omega)] at hlo
    unfold encLen
    interval_cases k <;> simp only [Nat.reduceMul, Nat.reduceSub] at hlo hhi <;> split_ifs <;> omega

theorem ge64_eq_true {a b : Word} : ge64 a b = true ↔ b.toNat ≤ a.toNat := by simp [ge64]
theorem ge64_eq_false {a b : Word} : ge64 a b = false ↔ a.toNat < b.toNat := by simp [ge64]
theorem lt64_eq_false {a b : Word} : lt64 a b = false ↔ b.toNat ≤ a.toNat := by simp [lt64]

/-- A 4-bit counter below its bound steps without wrapping. -/
theorem nib_succ_toNat {i n : Nib} (h : i.toNat < n.toNat) : (i + 1).toNat = i.toNat + 1 := by
  have := n.isLt
  have h1 : (1 : Nib).toNat = 1 := rfl
  rw [BitVec.toNat_add, h1]
  omega

end Sys2Proof.Machine
end

section
/-! The invariant of ENC (10_state R23; 40_encoder R110): one lemma per phase, one per micro-step. -/

namespace Sys2Proof.Machine

/-! ### What the invariant says in each phase -/

theorem Enc.inv_of_idle {e : Enc} {n : Nat} (h : e.ph = .idle) :
    e.Inv n ↔ e.status = .ok ∧ e.rlen.toNat ≤ 9 := by simp [Enc.Inv, h]

theorem Enc.inv_of_ladder {e : Enc} {n : Nat} (h : e.ph = .ladder) :
    e.Inv n ↔ e.status = .ok ∧ 1 ≤ e.len.toNat ∧ e.len.toNat ≤ 8 ∧ e.thr = rungT e.len.toNat ∧
      (minM e.len.toNat).toNat ≤ e.val.toNat ∧ capOverstated e.cap n = false := by simp [Enc.Inv, h]

theorem Enc.inv_of_emit {e : Enc} {n : Nat} (h : e.ph = .emit) :
    e.Inv n ↔ e.status = .ok ∧ e.len.toNat = encLen e.val ∧ e.idx.toNat < e.len.toNat ∧
      capShort e.cap e.len = false ∧ capOverstated e.cap n = false ∧
      (e.len.toNat ≤ 8 → e.word = shortWord e.val e.len) := by simp [Enc.Inv, h]

theorem Enc.inv_of_resp {e : Enc} {n : Nat} (h : e.ph = .resp) :
    e.Inv n ↔ e.status = .ok ∧ e.len.toNat = encLen e.val ∧ e.rlen = e.len ∧ e.idx = e.len := by simp [Enc.Inv, h]

theorem Enc.inv_of_fault {e : Enc} {n : Nat} (h : e.ph = .frsp ∨ e.ph = .fault) :
    e.Inv n ↔ e.status = .bufferTooSmall ∧ e.rlen = 0 ∧ e.len.toNat = encLen e.val ∧
      capShort e.cap e.len = true := by
  obtain h | h := h <;> simp [Enc.Inv, h]

/-! ### The micro-steps -/

/-- The length is fixed and the command is truthful, the capacity not yet checked: what E-ESC and E-SHORT hand to the
check of 40_encoder R107. -/
def Enc.LengthFixed (e : Enc) (size : Nat) : Prop :=
  e.status = .ok ∧ e.len.toNat = encLen e.val ∧ capOverstated e.cap size = false ∧
    (e.len.toNat ≤ 8 → e.word = shortWord e.val e.len)

theorem Enc.LengthFixed.length {e : Enc} {n : Nat} (h : e.LengthFixed n) : e.len.toNat = encLen e.val := h.2.1

theorem Enc.accept_inv {e : Enc} {v : Word} {c : Nib} {n : Nat} (h : e.Inv n) (hi : e.ph = .idle)
    (hc : capOverstated c n = false) : (e.accept v c).Inv n := by
  obtain ⟨hst, -⟩ := (Enc.inv_of_idle hi).1 h
  exact (Enc.inv_of_ladder rfl).2 ⟨hst, le_refl 1, (by decide : (1 : Nat) ≤ 8), rfl, Nat.zero_le _, hc⟩

theorem Enc.up_inv {e : Enc} {n : Nat} (h : e.Inv n) (hp : e.ph = .ladder) (hge : ge64 e.val e.thr = true)
    (hlen : e.len ≠ Config.maxShortLen) : Enc.Inv { e with thr := shl64 e.thr 7, len := e.len + 1 } n := by
  obtain ⟨hst, h1, h8, hthr, -, hcap⟩ := (Enc.inv_of_ladder hp).1 h
  have h7 : e.len.toNat < (8 : Nib).toNat := lt_of_le_of_ne h8 (fun he => hlen (BitVec.eq_of_toNat_eq he))
  have hs : (e.len + 1).toNat = e.len.toNat + 1 := nib_succ_toNat h7
  refine (Enc.inv_of_ladder (e := { e with thr := shl64 e.thr 7, len := e.len + 1 }) hp).2
    ⟨hst, hs ▸ Nat.le_add_left 1 _, hs ▸ h7, ?_, ?_, hcap⟩
  · simp only [hs, hthr, shl64_rungT]
  · simpa only [hs, minM_succ h1, ← hthr] using ge64_eq_true.1 hge

theorem Enc.esc_lengthFixed {e : Enc} {n : Nat} (h : e.Inv n) (hp : e.ph = .ladder) (hge : ge64 e.val e.thr = true)
    (hlen : e.len = Config.maxShortLen) : Enc.LengthFixed { e with len := Config.escLen } n := by
  obtain ⟨hst, -, -, hthr, -, hcap⟩ := (Enc.inv_of_ladder hp).1 h
  have hv : (rungT 8).toNat ≤ e.val.toNat := by
    have := ge64_eq_true.1 hge
    rwa [hthr, hlen] at this
  rw [rungT_toNat (by decide)] at hv
  exact ⟨hst, (encLen_eq_nine hv).symm, hcap, fun h9 => absurd h9 (by decide : ¬ (9 : Nat) ≤ 8)⟩

theorem Enc.short_lengthFixed {e : Enc} {n : Nat} (h : e.Inv n) (hp : e.ph = .ladder)
    (hlt : ge64 e.val e.thr = false) : Enc.LengthFixed { e with word := shortWord e.val e.len } n := by
  obtain ⟨hst, h1, h8, hthr, hlo, hcap⟩ := (Enc.inv_of_ladder hp).1 h
  rw [hthr] at hlt
  exact ⟨hst, (encLen_eq_of_range h1 h8 hlo (ge64_eq_false.1 hlt)).symm, hcap, fun _ => rfl⟩

theorem Enc.frsp_inv {e : Enc} {n : Nat} (hlen : e.len.toNat = encLen e.val) (hc : capShort e.cap e.len = true) :
    Enc.Inv { e with status := .bufferTooSmall, rlen := 0, ph := .frsp } n :=
  (Enc.inv_of_fault (.inl rfl)).2 ⟨rfl, rfl, hlen, hc⟩

theorem Enc.LengthFixed.emit_inv {e : Enc} {n : Nat} (h : e.LengthFixed n) (hc : capShort e.cap e.len = false) :
    Enc.Inv { e with idx := 0, ph := .emit } n := by
  obtain ⟨hst, hlen, hcap, hw⟩ := h
  exact (Enc.inv_of_emit rfl).2 ⟨hst, hlen, hlen ▸ encLen_pos e.val, hc, hcap, hw⟩

/-- All bytes written: OK with the length (40_encoder R106). -/
theorem Enc.resp_inv {e : Enc} {n : Nat} (hlen : e.len.toNat = encLen e.val) :
    Enc.Inv { e with idx := e.len, status := .ok, rlen := e.len, ph := .resp } n :=
  (Enc.inv_of_resp rfl).2 ⟨rfl, hlen, rfl, rfl⟩

theorem Enc.emit_next_inv {e : Enc} {n : Nat} (h : e.Inv n) (hp : e.ph = .emit) (hi : e.idx + 1 ≠ e.len) :
    Enc.Inv { e with idx := e.idx + 1 } n := by
  obtain ⟨hst, hlen, hidx, hrest⟩ := (Enc.inv_of_emit hp).1 h
  have hs := nib_succ_toNat hidx
  have hlt : (e.idx + 1).toNat < e.len.toNat :=
    lt_of_le_of_ne (by omega) (fun he => hi (BitVec.eq_of_toNat_eq he))
  exact (Enc.inv_of_emit (e := { e with idx := e.idx + 1 }) hp).2 ⟨hst, hlen, hlt, hrest⟩

theorem Enc.deliver_resp_inv {e : Enc} {n : Nat} (h : e.Inv n) (hp : e.ph = .resp) :
    Enc.Inv { e with ph := .idle } n := by
  obtain ⟨hst, hlen, hr, -⟩ := (Enc.inv_of_resp hp).1 h
  exact (Enc.inv_of_idle rfl).2 ⟨hst, by simp only [hr, hlen, encLen_le_nine]⟩

theorem Enc.deliver_frsp_inv {e : Enc} {n : Nat} (h : e.Inv n) (hp : e.ph = .frsp) :
    Enc.Inv { e with ph := .fault } n :=
  (Enc.inv_of_fault (.inr rfl)).2 ((Enc.inv_of_fault (.inl hp)).1 h)

/-- Only `LADDER` and `EMIT` lean on the buffer's size (10_state R23). -/
theorem Enc.inv_of_not_ownsDst {e : Enc} {n m : Nat} (h : e.Inv n) (ho : e.ownsDst = false) : e.Inv m := by
  cases hp : e.ph
  case idle => exact (Enc.inv_of_idle hp).2 ((Enc.inv_of_idle hp).1 h)
  case fault => exact (Enc.inv_of_fault (.inr hp)).2 ((Enc.inv_of_fault (.inr hp)).1 h)
  all_goals simp [Enc.ownsDst, hp] at ho

/-! ### The ladder of the whole ENCODE -/

/-- From any rung it may stand on, the ladder ends at the length of the value (40_encoder R101, R102). -/
theorem ladder_length {e : Enc} {v : Word} {c : Nib} (fuel : Nat) {len : Nib} (h1 : 1 ≤ len.toNat) (h8 : len.toNat ≤ 8)
    (hf : fuel + len.toNat = 9) (hlo : (minM len.toNat).toNat ≤ v.toNat) :
    (e.chosen v c (ladder v fuel len (rungT len.toNat))).len.toNat = encLen v := by
  induction fuel generalizing len with
  | zero => omega
  | succ fuel ih =>
    rw [ladder]
    cases hge : ge64 v (rungT len.toNat)
    · exact (encLen_eq_of_range h1 h8 hlo (ge64_eq_false.1 hge)).symm
    · have hv := ge64_eq_true.1 hge
      by_cases hlen : len = Config.maxShortLen
      · subst hlen
        rw [show (rungT (BitVec.toNat Config.maxShortLen)).toNat = 2 ^ 56 from rungT_toNat (by decide)] at hv
        exact (encLen_eq_nine hv).symm
      · have hlt : len.toNat < (8 : Nib).toNat := lt_of_le_of_ne h8 (fun he => hlen (BitVec.eq_of_toNat_eq he))
        have hs : (len + 1).toNat = len.toNat + 1 := nib_succ_toNat hlt
        have hnext := @ih (len + 1) (by omega) (hs ▸ hlt) (by omega) (by rwa [hs, minM_succ h1])
        rw [hs, ← shl64_rungT] at hnext
        simpa only [if_true, if_neg hlen] using hnext

/-- The length ENCODE has chosen (40_encoder R101, R105). -/
theorem Enc.chosen_climb_length (e : Enc) (v : Word) (c : Nib) :
    (e.chosen v c (climb v)).len.toNat = encLen v :=
  ladder_length 8 (len := Config.minLen) (by decide) (by decide) (by decide) (Nat.zero_le _)

end Sys2Proof.Machine
end

section
/-! The open commands, event by event (40_encoder R112, 41_decoder R149; 70_reset R221). -/

namespace Sys2Proof.Machine

/-- What one more event makes of the count of open ENCODE commands. -/
@[simp] def Event.countEnc (e : Event) (n : Int) : Int :=
  match e with
  | .encCmd _ _ => n + 1
  | .encRsp _ _ => n - 1
  | .reset => 0
  | .dstWrite _ _ => n
  | .decCmd => n
  | .srcByte _ => n
  | .srcErr _ => n
  | .decRsp _ _ _ _ => n

/-- What one more event makes of the count of open DECODE commands. -/
@[simp] def Event.countDec (e : Event) (n : Int) : Int :=
  match e with
  | .decCmd => n + 1
  | .decRsp _ _ _ _ => n - 1
  | .reset => 0
  | .encCmd _ _ => n
  | .encRsp _ _ => n
  | .dstWrite _ _ => n
  | .srcByte _ => n
  | .srcErr _ => n

@[simp] theorem openEnc_concat (tr : List Event) (e : Event) : openEnc (tr ++ [e]) = e.countEnc (openEnc tr) := by
  cases e <;> simp [openEnc]

@[simp] theorem openDec_concat (tr : List Event) (e : Event) : openDec (tr ++ [e]) = e.countDec (openDec tr) := by
  cases e <;> simp [openDec]

end Sys2Proof.Machine
end

section
/-! The invariant of the whole state along the moves of ENC (10_state R23; 40_encoder R110). -/

namespace Sys2Proof.Machine

/-- The canonical form and the bounds of DST (20_memory R51). -/
def State.DstOk (s : State) : Prop := Memory.wf s.dst = true ∧ ∀ c ∈ s.dst, c.1 < s.dstSize

theorem State.Inv.enc {s : State} (h : s.Inv) : s.enc.Inv s.dstSize := h.1

theorem State.Inv.dec {s : State} (h : s.Inv) : s.dec.Inv := h.2.1

/-- What the invariant of the state asks after a move that leaves the registers of DEC and its commands alone. -/
theorem State.Inv.encMove {s t : State} (h : s.Inv) (hdec : t.dec = s.dec) (hdst : s.DstOk → t.DstOk)
    (henc : t.enc.Inv t.dstSize) (hopen : openEnc s.trace = (if s.enc.busy then 1 else 0) →
      openEnc t.trace = if t.enc.busy then 1 else 0) (htr : openDec t.trace = openDec s.trace) : t.Inv := by
  obtain ⟨-, hd, hwf, hin, hoe, hod⟩ := h
  obtain ⟨hwf', hin'⟩ := hdst ⟨hwf, hin⟩
  exact ⟨henc, hdec ▸ hd, hwf', hin', hopen hoe, by rw [htr, hdec, hod]⟩

/-- ENC replaces its registers and goes on with the command it is working on. -/
theorem State.Inv.setEnc {s : State} {e : Enc} (h : s.Inv) (he : e.Inv s.dstSize) (hb : e.busy = s.enc.busy) :
    (s.setEnc e).Inv :=
  h.encMove rfl id he (fun ho => by simpa [hb] using ho) rfl

/-- What writing DST (20_memory R52) leaves alone, and what it keeps. -/
structure WroteDst (s t : State) : Prop where
  enc : t.enc = s.enc
  dec : t.dec = s.dec
  size : t.dstSize = s.dstSize
  dst : s.DstOk → t.DstOk
  openEnc : openEnc t.trace = openEnc s.trace
  openDec : openDec t.trace = openDec s.trace

theorem WroteDst.trans {s t u : State} (h : WroteDst s t) (h' : WroteDst t u) : WroteDst s u :=
  ⟨h'.enc.trans h.enc, h'.dec.trans h.dec, h'.size.trans h.size, h'.dst ∘ h.dst, h'.openEnc.trans h.openEnc,
    h'.openDec.trans h.openDec⟩

theorem State.DstOk.write {s : State} {i : Nat} (h : s.DstOk) (b : Byte) (hi : i < s.dstSize) :
    (s.setDst (Memory.write s.dst i b)).DstOk := by
  obtain ⟨hwf, hin⟩ := h
  refine ⟨Memory.write_wf i b hwf, fun c hc => ?_⟩
  obtain rfl | hc := Memory.mem_write hc
  · exact hi
  · exact hin c hc

theorem memWrite_wroteDst {i : Nib} {b : Byte} {s t : State} (h : memWrite i b s = .next t) : WroteDst s t := by
  obtain ⟨hi, rfl⟩ := memWrite_next h
  exact ⟨rfl, rfl, rfl, fun hd => hd.write b hi, by simp, by simp⟩

theorem emitBytes_wroteDst {bs : List Byte} {i : Nib} {s t : State} (h : emitBytes bs i s = .next t) :
    WroteDst s t := by
  induction bs generalizing i s with
  | nil =>
    obtain rfl : s = t := by simpa [emitBytes] using h
    exact ⟨rfl, rfl, rfl, id, rfl, rfl⟩
  | cons b bs ih =>
    obtain ⟨u, hw, hrest⟩ := andThen_eq_next.1 h
    exact (memWrite_wroteDst hw).trans (ih hrest)

theorem WroteDst.inv {s t : State} (hw : WroteDst s t) (h : s.Inv) : t.Inv :=
  h.encMove hw.dec hw.dst (by rw [hw.enc, hw.size]; exact h.enc) (fun ho => by rw [hw.openEnc, hw.enc, ho]) hw.openDec

/-! ### The micro-steps of ENC -/

theorem encAccept_inv {v : Word} {c : Nib} {s t : State} (h : s.Inv) (ht : encAccept v c s = .next t) : t.Inv := by
  obtain ⟨hi, hc, rfl⟩ | ⟨-, rfl⟩ := encAccept_cases ht
  · exact h.encMove rfl id (Enc.accept_inv h.1 hi hc) (by simp [Enc.busy, Enc.accept, hi]) (by simp)
  · exact h

/-- The capacity check ends the ladder, in the fault or in `EMIT` (40_encoder R107). -/
theorem checkCap_inv {s : State} {e : Enc} (h : s.Inv) (hp : s.enc.ph = .ladder) (he : e.LengthFixed s.dstSize) :
    (s.setEnc e).checkCap.Inv := by
  have hb : s.enc.busy = true := by simp [Enc.busy, hp]
  obtain ⟨hc, heq⟩ | ⟨hc, heq⟩ := State.checkCap_cases (s.setEnc e) <;> rw [heq]
  · exact h.setEnc (Enc.frsp_inv he.length hc) hb.symm
  · exact h.setEnc (he.emit_inv hc) hb.symm

/-- The index after the write of E-EMIT: the last byte ends the operation, any other goes on (40_encoder R110). -/
theorem State.advance_cases (s : State) :
    (s.enc.idx + 1 = s.enc.len ∧
      s.advance = s.setEnc { s.enc with idx := s.enc.len, status := .ok, rlen := s.enc.len, ph := .resp }) ∨
    (s.enc.idx + 1 ≠ s.enc.len ∧ s.advance = s.setEnc { s.enc with idx := s.enc.idx + 1 }) := by
  by_cases hi : s.enc.idx + 1 = s.enc.len
  · exact .inl ⟨hi, (if_pos hi).trans (by rw [hi]; rfl)⟩
  · exact .inr ⟨hi, if_neg hi⟩

theorem advance_inv {s : State} (h : s.Inv) (hp : s.enc.ph = .emit) : s.advance.Inv := by
  have hb : s.enc.busy = true := by simp [Enc.busy, hp]
  obtain ⟨-, heq⟩ | ⟨hi, heq⟩ := s.advance_cases <;> rw [heq]
  · obtain ⟨-, hlen, -⟩ := (Enc.inv_of_emit hp).1 h.enc
    exact h.setEnc (Enc.resp_inv hlen) hb.symm
  · exact h.setEnc (Enc.emit_next_inv h.1 hp hi) rfl

theorem encEmit_inv {s t : State} (h : s.Inv) (hp : s.enc.ph = .emit) (ht : encEmit s = .next t) : t.Inv := by
  obtain ⟨u, hw, hadv⟩ := andThen_eq_next.1 ht
  obtain rfl : u.advance = t := by simpa using hadv
  have hw := memWrite_wroteDst hw
  exact advance_inv (hw.inv h) (hw.enc ▸ hp)

theorem encOwn_inv {s t : State} (h : s.Inv) (ht : encOwn s = .next t) : t.Inv := by
  obtain ⟨hp, hge, hlen, rfl⟩ | ⟨hp, hge, hlen, rfl⟩ | ⟨hp, hge, rfl⟩ | ⟨hp, ht⟩ | ⟨-, -, rfl⟩ := encOwn_cases ht
  · exact checkCap_inv h hp (Enc.esc_lengthFixed h.1 hp hge hlen)
  · exact h.setEnc (Enc.up_inv h.1 hp hge hlen) rfl
  · exact checkCap_inv h hp (Enc.short_lengthFixed h.1 hp hge)
  · exact encEmit_inv h hp ht
  · exact h

theorem deliverEnc_inv {s : State} (h : s.Inv) : s.deliverEnc.Inv := by
  obtain ⟨hp, heq⟩ | ⟨hp, heq⟩ | ⟨-, -, heq⟩ := s.deliverEnc_cases <;> rw [heq]
  · exact h.encMove rfl id (Enc.deliver_resp_inv h.1 hp) (by simp [Enc.busy, hp, sub_eq_zero]) (by simp)
  · exact h.encMove rfl id (Enc.deliver_frsp_inv h.1 hp) (by simp [Enc.busy, hp, sub_eq_zero]) (by simp)
  · exact h

/-! ### The whole ENCODE -/

/-- ENCODE when it answers a next state: a wait, the fault, or every byte written, each with its response
(40_encoder R100). -/
theorem execEncode_cases {v : Word} {c : Nib} {s t : State} (h : execEncode v c s = .next t) :
    (s.enc.ph ≠ .idle ∧ t = s) ∨
    (s.enc.ph = .idle ∧ capOverstated c s.dstSize = false ∧
      ∃ s1, s1 = (s.emit (.encCmd v c)).setEnc (s.enc.chosen v c (climb v)) ∧
        ((capShort c s1.enc.len = true ∧ t = (s1.raise .bufferTooSmall).deliverEnc) ∨
          (capShort c s1.enc.len = false ∧ ∃ s2, emitBytes (outBytes s1.enc (climb v).2.2) 0 s1 = .next s2 ∧
            t = ((s2.setEnc { s2.enc with idx := s2.enc.len }).succeedEnc s2.enc.len).deliverEnc))) := by
  unfold execEncode at h
  split at h
  · rename_i hi
    split at h
    · cases h
    · rename_i hc
      refine .inr ⟨hi, by simpa using hc, _, rfl, ?_⟩
      dsimp only at h
      split at h
      · rename_i hs
        injection h with h
        exact .inl ⟨hs, h.symm⟩
      · rename_i hs
        obtain ⟨s2, he, h⟩ := andThen_eq_next.1 h
        injection h with h
        exact .inr ⟨by simpa using hs, s2, he, h.symm⟩
  · rename_i hi
    injection h with h
    exact .inl ⟨hi, h.symm⟩

theorem execEncode_inv {v : Word} {c : Nib} {s t : State} (h : s.Inv) (ht : execEncode v c s = .next t) : t.Inv := by
  obtain ⟨-, rfl⟩ | ⟨hi, hc, s1, hs1, ⟨hs, rfl⟩ | ⟨-, s2, hw, rfl⟩⟩ := execEncode_cases ht
  · exact h
  · have hlen : s1.enc.len.toNat = encLen s1.enc.val := by rw [hs1]; exact Enc.chosen_climb_length s.enc v c
    subst hs1
    exact deliverEnc_inv (h.encMove rfl id (Enc.frsp_inv hlen hs)
      (by simp [State.raise, Enc.busy, hi]) (by simp [State.raise]))
  · have hw := emitBytes_wroteDst hw
    have hlen : s2.enc.len.toNat = encLen s2.enc.val := by
      rw [hw.enc, hs1]; exact Enc.chosen_climb_length s.enc v c
    subst hs1
    refine deliverEnc_inv (h.encMove hw.dec (fun hd => hw.dst hd) (Enc.resp_inv hlen) (fun ho => ?_) ?_)
    · have := hw.openEnc
      simp_all [State.succeedEnc, Enc.busy]
    · simpa [State.succeedEnc] using hw.openDec

end Sys2Proof.Machine
end

section
/-! The invariant of DEC (10_state R24; 41_decoder R147): what it says in each phase, and one lemma per micro-step. -/

namespace Sys2Proof.Machine

/-! ### Bytes and words -/

theorem byteOf_setWidth_zero (b : Byte) : byteOf (b.setWidth 64) 0 = b := by
  ext i hi
  simp [byteOf, show i < 64 by omega, BitVec.getLsbD_eq_getElem hi]

theorem setWidth_byte_toNat (b : Byte) : (b.setWidth 64 : Word).toNat = b.toNat :=
  BitVec.toNat_setWidth_of_le (by decide)

/-- A byte shifted up by `p` places lies below place `p + 1`. -/
theorem shl64_byte_lt (b : Byte) (p : Nat) : (shl64 (b.setWidth 64) (8 * p)).toNat < 2 ^ (8 * (p + 1)) := by
  have hb : b.toNat * 2 ^ (8 * p) < 2 ^ 8 * 2 ^ (8 * p) := Nat.mul_lt_mul_of_pos_right b.isLt (by positivity)
  calc (shl64 (b.setWidth 64) (8 * p)).toNat ≤ b.toNat * 2 ^ (8 * p) := by
        rw [shl64, BitVec.toNat_shiftLeft, setWidth_byte_toNat, Nat.shiftLeft_eq]
        exact Nat.mod_le _ _
    _ < 2 ^ (8 * (p + 1)) := by rwa [Nat.mul_succ, Nat.add_comm, Nat.pow_add]

/-- OR-ing above the lowest byte leaves the lowest byte. -/
theorem byteOf_or_shl64 (x y : Word) {p : Nat} (hp : 1 ≤ p) : byteOf (x ||| shl64 y (8 * p)) 0 = byteOf x 0 := by
  ext i hi
  simp [byteOf, shl64, show i < 8 * p by omega]

/-- A first byte that is no escape mark has its lowest set bit at 0 to 7 (42_shifter_comparator R173). -/
theorem one_add_ctz8_range : ∀ b : Byte, b ≠ Config.escMark →
    (1 + ctz8 b).toNat = (ctz8 b).toNat + 1 ∧ (ctz8 b).toNat ≤ 7 := by decide

/-! ### DEC amid an encoding -/

/-- The registers of DEC after at least one byte of an encoding and at most all of them (41_decoder R147). -/
def Dec.Reading (d : Dec) : Prop :=
  1 ≤ d.cnt.toNat ∧ d.cnt.toNat ≤ d.len.toNat ∧ d.len.toNat ≤ 9 ∧ (d.esc = true ↔ d.len.toNat = 9) ∧
    d.acc.toNat < 2 ^ (8 * d.pos) ∧ (d.esc = false → d.len = 1 + ctz8 (byteOf d.acc 0))

theorem Dec.Reading.cnt_le_len {d : Dec} (h : d.Reading) : d.cnt.toNat ≤ d.len.toNat := h.2.1

theorem Dec.Reading.len_le_nine {d : Dec} (h : d.Reading) : d.len.toNat ≤ 9 := h.2.2.1

/-- The registers D-PREFIX leaves, but for the phase (41_decoder R147). -/
def Dec.first (b : Byte) (d : Dec) : Dec :=
  if b = Config.escMark then { d with cnt := 1, esc := true, len := Config.escLen, acc := 0 }
  else { d with cnt := 1, esc := false, len := 1 + ctz8 b, acc := b.setWidth 64 }

/-- The registers D-CONT leaves, but for the phase (41_decoder R147). -/
def Dec.more (b : Byte) (d : Dec) : Dec :=
  { d with acc := d.acc ||| shl64 (b.setWidth 64) (8 * d.pos), cnt := d.cnt + 1 }

theorem Dec.first_reading (b : Byte) (d : Dec) : (d.first b).Reading := by
  unfold Dec.first
  split
  · exact ⟨le_rfl, (by decide : 1 ≤ 9), le_rfl, iff_of_true rfl rfl, Nat.one_pos, nofun⟩
  · rename_i hb
    obtain ⟨hl, h7⟩ := one_add_ctz8_range b hb
    refine ⟨le_rfl, ?_, ?_, ?_, ?_, fun _ => ?_⟩
    · exact hl ▸ Nat.le_add_left _ _
    · dsimp only; omega
    · simp only [hl]; constructor
      · nofun
      · omega
    · exact (setWidth_byte_toNat b).trans_lt b.isLt
    · simp only [byteOf_setWidth_zero]

theorem Dec.first_rspOk {d : Dec} (b : Byte) (h : d.rspOk) : (d.first b).rspOk := by
  unfold Dec.first
  split <;> exact h

theorem Dec.more_pos {d : Dec} (b : Byte) (h : d.Reading) (hlt : d.cnt.toNat < d.len.toNat) :
    (d.more b).pos = d.pos + 1 := by
  obtain ⟨h1, -⟩ := h
  simp only [Dec.pos, Dec.more, nib_succ_toNat hlt]
  split <;> omega

theorem Dec.Reading.more {d : Dec} (b : Byte) (h : d.Reading) (hlt : d.cnt.toNat < d.len.toNat) :
    (d.more b).Reading := by
  have hpos := Dec.more_pos b h hlt
  obtain ⟨h1, -, h9, hesc, hacc, hlen⟩ := h
  have hs := nib_succ_toNat hlt
  refine ⟨?_, ?_, h9, hesc, ?_, fun he => ?_⟩
  · exact hs ▸ Nat.le_add_left _ _
  · exact hs ▸ hlt
  · rw [hpos, show (d.more b).acc = d.acc ||| shl64 (b.setWidth 64) (8 * d.pos) from rfl, BitVec.toNat_or]
    exact Nat.or_lt_two_pow (hacc.trans (Nat.pow_lt_pow_right (by decide) (by omega))) (shl64_byte_lt b d.pos)
  · have hp : 1 ≤ d.pos := by simpa [Dec.pos, show d.esc = false from he] using h1
    exact (hlen he).trans (by rw [Dec.more, byteOf_or_shl64 _ _ hp])

/-- When the last byte is in, a number that passes the canonicality check owns the length read (41_decoder R134, R139;
30_encoding R75). -/
theorem Dec.Reading.encLen_recovered {d : Dec} (h : d.Reading) (hc : d.cnt = d.len)
    (hok : nonCanonical d.esc d.len (recovered d.esc d.len d.acc) = false) :
    encLen (recovered d.esc d.len d.acc) = d.len.toNat := by
  obtain ⟨h1, -, h9, hesc, hacc, -⟩ := h
  cases he : d.esc
  · have h8 : d.len.toNat ≤ 8 := by
      have : d.len.toNat ≠ 9 := fun h => by simp [hesc.2 h] at he
      omega
    rw [hc] at h1
    simp only [nonCanonical, recovered, he, Bool.false_eq_true, if_false, Bool.and_eq_false_iff,
      decide_eq_false_iff_not, lt64_eq_false] at hok ⊢
    refine encLen_eq_of_range h1 h8 ?_ ?_
    · obtain h | h := hok
      · simp [minM, show d.len.toNat ≤ 1 by omega]
      · exact h
    · rw [rungT_toNat h9, shr64, BitVec.toNat_ushiftRight, Nat.shiftRight_eq_div_pow,
        Nat.div_lt_iff_lt_mul (by positivity), ← Nat.pow_add]
      simpa [Dec.pos, he, hc, show 7 * d.len.toNat + d.len.toNat = 8 * d.len.toNat by omega] using hacc
  · simp only [nonCanonical, recovered, he, if_true, lt64_eq_false] at hok ⊢
    rw [encLen_eq_nine hok, hesc.1 he]

theorem Dec.Reading.two_le_of_nonCanonical {d : Dec} (h : d.Reading)
    (hbad : nonCanonical d.esc d.len (recovered d.esc d.len d.acc) = true) : 2 ≤ d.len.toNat := by
  obtain ⟨-, -, -, hesc, -, -⟩ := h
  cases he : d.esc
  · simp only [nonCanonical, he, Bool.false_eq_true, if_false, Bool.and_eq_true, decide_eq_true_eq] at hbad
    exact hbad.1
  · rw [hesc.1 he]; decide

/-! ### What the invariant says in each phase -/

theorem Dec.inv_of_idle {d : Dec} (h : d.ph = .idle) : d.Inv ↔ d.rspOk := by simp [Dec.Inv, h]

theorem Dec.inv_of_head {d : Dec} (h : d.ph = .head) :
    d.Inv ↔ d.rspOk ∧ d.esc = false ∧ d.len = 0 ∧ d.cnt = 0 ∧ d.acc = 0 := by simp [Dec.Inv, h]

theorem Dec.inv_of_cont {d : Dec} (h : d.ph = .cont) :
    d.Inv ↔ d.rspOk ∧ d.Reading ∧ d.cnt.toNat < d.len.toNat := by
  simp only [Dec.Inv, Dec.Reading, h, reduceCtorEq, false_implies, true_implies, true_and, and_true]
  constructor
  · rintro ⟨hr, h1, hlt, hrest⟩
    exact ⟨hr, ⟨h1, hlt.le, hrest⟩, hlt⟩
  · rintro ⟨hr, ⟨h1, -, hrest⟩, hlt⟩
    exact ⟨hr, h1, hlt, hrest⟩

theorem Dec.inv_of_resp {d : Dec} (h : d.ph = .resp) :
    d.Inv ↔ d.rspOk ∧ d.nread = d.cnt ∧ (d.status = .ok → d.nread = d.len ∧ encLen d.value = d.nread.toNat) ∧
      (d.status = .malformedVarint → d.nread = d.len ∧ 2 ≤ d.nread.toNat) ∧
      (d.status = .endOfInput → d.nread.toNat ≤ 8) := by simp [Dec.Inv, h]

theorem Dec.Inv.rspOk {d : Dec} (h : d.Inv) : d.rspOk := h.1

/-! ### How an encoding goes on, and how it ends -/

theorem Dec.accept_inv {d : Dec} (h : d.rspOk) :
    Dec.Inv { d with esc := false, len := 0, cnt := 0, acc := 0, ph := .head } :=
  (Dec.inv_of_head rfl).2 ⟨h, rfl, rfl, rfl, rfl⟩

theorem Dec.Reading.cont_inv {d : Dec} (h : d.Reading) (hr : d.rspOk) (hne : d.cnt ≠ d.len) :
    Dec.Inv { d with ph := .cont } :=
  (Dec.inv_of_cont rfl).2 ⟨hr, h, lt_of_le_of_ne h.cnt_le_len (fun he => hne (BitVec.eq_of_toNat_eq he))⟩

theorem Dec.endOfInput_inv (d : Dec) (k : Nib) (h8 : d.cnt.toNat ≤ 8) :
    Dec.Inv { d with status := .endOfInput, value := 0, kind := k, nread := d.cnt, ph := .resp } :=
  (Dec.inv_of_resp rfl).2
    ⟨⟨nofun, fun _ => rfl, fun h => absurd rfl h, h8.trans (by decide)⟩, rfl, nofun, nofun, fun _ => h8⟩

theorem State.finish_phase (s : State) : s.finish.dec.ph = .resp := by rw [State.finish_eq]; rfl

theorem Dec.Reading.finish_inv {s : State} (h : s.dec.Reading) (hc : s.dec.cnt = s.dec.len) : s.finish.dec.Inv := by
  have h9 : s.dec.cnt.toNat ≤ 9 := hc ▸ h.len_le_nine
  refine (Dec.inv_of_resp s.finish_phase).2 ?_
  cases hbad : nonCanonical s.dec.esc s.dec.len (recovered s.dec.esc s.dec.len s.dec.acc) <;>
    simp only [State.finish_eq, hbad, State.setDec_dec, if_true, Bool.false_eq_true, if_false]
  · exact ⟨⟨nofun, fun h => absurd rfl h, fun _ => rfl, h9⟩, trivial,
      fun _ => ⟨hc, (h.encLen_recovered hc hbad).trans (congrArg _ hc.symm)⟩, nofun, nofun⟩
  · exact ⟨⟨nofun, fun _ => rfl, fun _ => rfl, h9⟩, trivial, nofun,
      fun _ => ⟨hc, hc ▸ h.two_le_of_nonCanonical hbad⟩, nofun⟩

/-- A byte has been taken in, the registers being `d`: FINISH after the last one, else `CONT` (41_decoder R147). -/
def State.takeUp (s : State) (d : Dec) : State :=
  if d.cnt = d.len then (s.setDec d).finish else s.setDec { d with ph := .cont }

theorem Dec.Reading.takeUp_inv {d : Dec} (h : d.Reading) (hr : d.rspOk) (s : State) :
    (s.takeUp d).dec.Inv ∧ (s.takeUp d).dec.busy = true := by
  unfold State.takeUp
  split
  · rename_i hc
    exact ⟨Dec.Reading.finish_inv h hc, by simp [Dec.busy, State.finish_phase]⟩
  · rename_i hne
    exact ⟨h.cont_inv hr hne, rfl⟩

theorem decFirst_eq (b : Byte) (s : State) : decFirst b s = s.takeUp (s.dec.first b) := by
  unfold decFirst State.takeUp Dec.first
  by_cases hb : b = Config.escMark
  · simp only [if_pos hb]
    rfl
  · simp only [if_neg hb]
    by_cases hl : 1 + ctz8 b = 1
    · exact (if_pos hl).trans (if_pos hl.symm).symm
    · exact (if_neg hl).trans (if_neg (Ne.symm hl)).symm

theorem decMore_eq {s : State} (b : Byte) (hp : s.dec.ph = .cont) : decMore b s = s.takeUp (s.dec.more b) := by
  have hself : ({ s.dec.more b with ph := .cont } : Dec) = s.dec.more b := by rw [← hp]; rfl
  rw [State.takeUp, hself]
  rfl

/-- A source event: the first byte, a further byte, an error before or amid an encoding, or one DEC does not ask for
(41_decoder R147). -/
theorem decTake_cases (ev : SrcEvent) (s : State) :
    (s.dec.ph = .head ∧ ∃ b, ev = .byte b ∧ decTake ev s = s.takeUp (s.dec.first b)) ∨
    (s.dec.ph = .cont ∧ ∃ b, ev = .byte b ∧ decTake ev s = s.takeUp (s.dec.more b)) ∨
    (s.dec.ph = .head ∧ ∃ k, ev = .err k ∧ decTake ev s = s.raise (.endOfInput k 0)) ∨
    (s.dec.ph = .cont ∧ ∃ k, ev = .err k ∧ decTake ev s = s.raise (.endOfInput k s.dec.cnt)) ∨
    (s.dec.ph ≠ .head ∧ s.dec.ph ≠ .cont ∧ decTake ev s = s) := by
  unfold decTake
  cases hp : s.dec.ph <;> cases ev <;> simp [decFirst_eq, decMore_eq, hp]

theorem decTake_dec_inv {s : State} (ev : SrcEvent) (h : s.dec.Inv) :
    (decTake ev s).dec.Inv ∧ (decTake ev s).dec.busy = s.dec.busy := by
  obtain ⟨hp, b, -, heq⟩ | ⟨hp, b, -, heq⟩ | ⟨hp, k, -, heq⟩ | ⟨hp, k, -, heq⟩ | ⟨-, -, heq⟩ := decTake_cases ev s <;>
    rw [heq]
  · have hb : s.dec.busy = true := by simp [Dec.busy, hp]
    exact hb ▸ (Dec.first_reading b s.dec).takeUp_inv (Dec.first_rspOk b h.rspOk) s
  · have hb : s.dec.busy = true := by simp [Dec.busy, hp]
    obtain ⟨hr, hrd, hlt⟩ := (Dec.inv_of_cont hp).1 h
    exact hb ▸ (hrd.more b hlt).takeUp_inv hr s
  · obtain ⟨-, -, -, hcnt, -⟩ := (Dec.inv_of_head hp).1 h
    refine ⟨?_, by simp [State.raise, Dec.busy, hp]⟩
    simpa [State.raise, hcnt] using Dec.endOfInput_inv s.dec k (by simp [hcnt])
  · obtain ⟨-, ⟨-, -, h9, -⟩, hlt⟩ := (Dec.inv_of_cont hp).1 h
    exact ⟨Dec.endOfInput_inv s.dec k (by omega), by simp [State.raise, Dec.busy, hp]⟩
  · exact ⟨h, rfl⟩

/-! ### The whole DECODE -/

/-- The continuation reads of a whole DECODE, from the registers of an encoding begun (41_decoder R130). -/
theorem readRest_dec_inv {n : Nat} {s : State} (h : s.dec.Reading) (hr : s.dec.rspOk) (hb : s.dec.busy = true)
    (hn : n + s.dec.cnt.toNat = s.dec.len.toNat) :
    (readRest n s.dec.pos s).dec.Inv ∧ (readRest n s.dec.pos s).dec.busy = true := by
  induction n generalizing s with
  | zero =>
    exact ⟨h.finish_inv (BitVec.eq_of_toNat_eq (by omega)), by simp [readRest, Dec.busy, State.finish_phase]⟩
  | succ n ih =>
    have hlt : s.dec.cnt.toNat < s.dec.len.toNat := by omega
    obtain ⟨-, hm⟩ | ⟨b, es, -, hm⟩ | ⟨k, es, -, hm⟩ := memRead_cases s <;> simp only [readRest, hm]
    · exact ⟨h.cont_inv hr (fun he => by simp [he] at hlt), rfl⟩
    · have hn' : n + (s.dec.more b).cnt.toNat = (s.dec.more b).len.toNat := by
        simp only [Dec.more, nib_succ_toNat hlt]; omega
      rw [← Dec.more_pos b h hlt]
      exact ih (s := (((s.setSrc es).setCursor (s.cursor + 1)).emit (.srcByte b)).setDec (s.dec.more b))
        (h.more b hlt) hr hb hn'
    · have h9 := h.len_le_nine
      exact ⟨Dec.endOfInput_inv s.dec k (by omega), rfl⟩

end Sys2Proof.Machine
end

section
/-! The invariant of the whole state along the moves of DEC, of the host, of reset, and along any step
(41_decoder R146 to R149; 60_exceptions R203). -/

namespace Sys2Proof.Machine

/-- What the invariant of the state asks after a move that leaves ENC, its commands and DST alone. -/
theorem State.Inv.decMove {s t : State} (h : s.Inv) (henc : t.enc = s.enc) (hdst : t.dst = s.dst)
    (hsize : t.dstSize = s.dstSize) (hdec : t.dec.Inv) (hopen : openDec s.trace = (if s.dec.busy then 1 else 0) →
      openDec t.trace = if t.dec.busy then 1 else 0) (htr : openEnc t.trace = openEnc s.trace) : t.Inv := by
  obtain ⟨he, -, hwf, hin, hoe, hod⟩ := h
  exact ⟨by rwa [henc, hsize], hdec, hdst ▸ hwf, by rwa [hdst, hsize], by rw [htr, henc, hoe], hopen hod⟩

theorem State.Inv.srcByte {s : State} (h : s.Inv) (b : Byte) : (s.emit (.srcByte b)).Inv :=
  h.decMove rfl rfl rfl h.dec (by rw [State.emit_trace, openDec_concat]; exact id) (by simp)

theorem State.Inv.srcErr {s : State} (h : s.Inv) (k : Nib) : (s.emit (.srcErr k)).Inv :=
  h.decMove rfl rfl rfl h.dec (by rw [State.emit_trace, openDec_concat]; exact id) (by simp)

/-! ### The micro-steps of DEC -/

theorem decAccept_inv {s : State} (h : s.Inv) : (decAccept s).Inv := by
  unfold decAccept
  split
  · rename_i hi
    exact h.decMove rfl rfl rfl (Dec.accept_inv h.dec.rspOk) (by simp [Dec.busy, hi]) (by simp)
  · exact h

theorem decTake_inv {s : State} (ev : SrcEvent) (h : s.Inv) : (decTake ev s).Inv := by
  obtain ⟨hd, hb⟩ := decTake_dec_inv ev h.dec
  have hframe := sameButDec_decTake ev s
  unfold SameButDec at hframe
  rw [hframe]
  exact h.decMove rfl rfl rfl hd (by simp [hb]) rfl

theorem srcStep_inv {s : State} (h : s.Inv) : (srcStep s).Inv := by
  obtain heq | ⟨b, es, -, -, heq⟩ | ⟨k, es, -, -, heq⟩ := srcStep_cases s <;> rw [heq]
  · exact h
  · exact decTake_inv _ (State.Inv.srcByte (s := (s.setSrc es).setCursor (s.cursor + 1)) h b)
  · exact decTake_inv _ (State.Inv.srcErr (s := s.setSrc es) h k)

theorem deliverDec_inv {s : State} (h : s.Inv) : s.deliverDec.Inv := by
  obtain ⟨hp, heq⟩ | ⟨-, heq⟩ := s.deliverDec_cases <;> rw [heq]
  · exact h.decMove rfl rfl rfl ((Dec.inv_of_idle rfl).2 h.dec.rspOk) (by simp [Dec.busy, hp, sub_eq_zero]) (by simp)
  · exact h

/-! ### Whole operations -/

theorem takeBytes_inv {bs : List Byte} {s : State} (h : s.Inv) : (takeBytes bs s).Inv := by
  induction bs generalizing s with
  | nil => exact h
  | cons b bs ih => exact ih (decTake_inv _ (State.Inv.srcByte (s := s.setCursor (s.cursor + 1)) h b))

theorem takeWire_inv {bs : List Byte} {s t : State} (h : s.Inv) (ht : takeWire bs s = .next t) : t.Inv := by
  unfold takeWire at ht
  split at ht <;> injection ht with ht <;> subst ht
  · exact deliverDec_inv (takeBytes_inv h)
  · exact h

/-- The continuation reads neither accept nor answer a command. -/
theorem readRest_open (n j : Nat) (s : State) :
    openEnc (readRest n j s).trace = openEnc s.trace ∧ openDec (readRest n j s).trace = openDec s.trace := by
  induction n generalizing j s with
  | zero => simp [readRest, State.finish_eq]
  | succ n ih =>
    obtain ⟨-, hm⟩ | ⟨b, es, -, hm⟩ | ⟨k, es, -, hm⟩ := memRead_cases s <;> simp only [readRest, hm]
    · exact ⟨rfl, rfl⟩
    · simpa using ih (j + 1) ((((s.setSrc es).setCursor (s.cursor + 1)).emit (.srcByte b)).setDec _)
    · simp [State.raise]

theorem readRest_inv {n : Nat} {s : State} {d : Dec} (h : s.Inv) (hp : s.dec.ph = .head) (hd : d.Reading) (hr : d.rspOk)
    (hph : d.ph = .head) (hn : n + d.cnt.toNat = d.len.toNat) : (readRest n d.pos (s.setDec d)).Inv := by
  obtain ⟨henc, hdst, hsize, -⟩ := readRest_frame n d.pos (s.setDec d)
  obtain ⟨hoe, hod⟩ := readRest_open n d.pos (s.setDec d)
  obtain ⟨hdec, hb⟩ := readRest_dec_inv (n := n) (s := s.setDec d) hd hr (by simp [Dec.busy, hph]) hn
  rw [State.setDec_dec] at hdec hb
  exact h.decMove henc hdst hsize hdec (fun ho => by rw [hod, hb]; simpa [Dec.busy, hp] using ho) hoe

/-- A whole DECODE after its command: a stall, an error before the first byte, or that byte taken in and the rest read
(41_decoder R130 to R132, R135). -/
theorem readAll_cases (s : State) :
    (readAll s = s) ∨
    (∃ k es, readAll s = ((s.setSrc es).emit (.srcErr k)).raise (.endOfInput k 0)) ∨
    (∃ b es n, n + (s.dec.first b).cnt.toNat = (s.dec.first b).len.toNat ∧
      readAll s = readRest n (s.dec.first b).pos
        ((((s.setSrc es).setCursor (s.cursor + 1)).emit (.srcByte b)).setDec (s.dec.first b))) := by
  unfold readAll
  obtain ⟨-, hm⟩ | ⟨b, es, -, hm⟩ | ⟨k, es, -, hm⟩ := memRead_cases s <;> simp only [hm]
  · exact .inl trivial
  · refine .inr (.inr ⟨b, es, ?_⟩)
    unfold Dec.first
    by_cases hb : b = Config.escMark
    · simp only [if_pos hb]
      exact ⟨8, rfl, rfl⟩
    · simp only [if_neg hb]
      exact ⟨(ctz8 b).toNat, (one_add_ctz8_range b hb).1.symm, rfl⟩
  · exact .inr (.inl ⟨k, es, rfl⟩)

theorem readAll_inv {s : State} (h : s.Inv) (hp : s.dec.ph = .head) : (readAll s).Inv := by
  obtain heq | ⟨k, es, heq⟩ | ⟨b, es, n, hn, heq⟩ := readAll_cases s <;> rw [heq]
  · exact h
  · have : ((s.setSrc es).emit (.srcErr k)).raise (.endOfInput k 0) =
        decTake (.err k) ((s.setSrc es).emit (.srcErr k)) := by simp [decTake, hp]
    rw [this]
    exact decTake_inv _ (State.Inv.srcErr (s := s.setSrc es) h k)
  · refine readRest_inv (State.Inv.srcByte (s := (s.setSrc es).setCursor (s.cursor + 1)) h b) hp (Dec.first_reading b _)
      (Dec.first_rspOk b h.dec.rspOk) ?_ hn
    unfold Dec.first
    split <;> exact hp

theorem execDecode_inv {s t : State} (h : s.Inv) (ht : execDecode s = .next t) : t.Inv := by
  unfold execDecode at ht
  split at ht <;> injection ht with ht <;> subst ht
  · rename_i hi
    exact deliverDec_inv (readAll_inv (decAccept_inv h) (by simp [decAccept, hi]))
  · exact h

theorem exec_inv {i : Instr} {s t : State} (h : s.Inv) (ht : exec i s = .next t) : t.Inv := by
  cases i
  case encode => exact execEncode_inv h ht
  case decode => exact execDecode_inv h ht
  all_goals exact takeWire_inv h ht

theorem past_inv {s : State} (ch : Channel) (n : Nat) (h : s.Inv) : (s.past ch n).Inv := by
  cases ch <;> exact h

/-- What a fetch answers is an instruction and the state moved past its words. -/
theorem fetch_next {ch : Channel} {s t : State} {i : Instr} (h : fetch ch s = some (i, t)) : ∃ n, t = s.past ch n := by
  unfold fetch at h
  split at h
  · cases h
  · split at h
    · cases h
    · injection h with h
      injection h with h1 h2
      exact ⟨_, h2.symm⟩

theorem runOp_inv {ch : Channel} {s t : State} (h : s.Inv) (ht : runOp ch s = .next t) : t.Inv := by
  unfold runOp at ht
  split at ht
  · rename_i i u hf
    obtain ⟨n, rfl⟩ := fetch_next hf
    exact exec_inv (past_inv ch n h) ht
  · injection ht with ht
    subst ht
    cases ch
    case src => exact srcStep_inv h
    all_goals exact h

/-! ### Commands, the host, reset, and a step -/

/-- The `enc_cmd` turn: a command taken from the offers, or a wait (40_encoder R111). -/
theorem encCmdStep_cases {s t : State} (h : encCmdStep s = .next t) :
    (∃ w ws, s.encCmds = w :: ws ∧ encAccept (encWordValue w) (encWordCap w) (s.setEncCmds ws) = .next t) ∨ t = s := by
  unfold encCmdStep at h
  split at h
  · injection h with h
    exact .inr h.symm
  · rename_i w ws hc
    split at h
    · exact .inl ⟨w, ws, hc, h⟩
    · injection h with h
      exact .inr h.symm

theorem encCmdStep_inv {s t : State} (h : s.Inv) (ht : encCmdStep s = .next t) : t.Inv := by
  obtain ⟨w, ws, -, ht⟩ | rfl := encCmdStep_cases ht
  · exact encAccept_inv (s := s.setEncCmds ws) h ht
  · exact h

theorem decCmdStep_inv {s : State} (h : s.Inv) : (decCmdStep s).Inv := by
  unfold decCmdStep
  split
  · exact decAccept_inv (s := s.setDecCmds (s.decCmds - 1)) h
  · exact h

theorem applyReset_inv {s : State} (h : s.Inv) : s.applyReset.Inv := by
  obtain ⟨-, -, hwf, hin, -, -⟩ := h
  refine ⟨(Enc.inv_of_idle rfl).2 ⟨rfl, Nat.zero_le _⟩, (Dec.inv_of_idle rfl).2 ?_, hwf, hin, ?_, ?_⟩
  · exact ⟨nofun, fun _ => rfl, fun _ => rfl, Nat.zero_le _⟩
  · simp [State.applyReset, Enc.busy, Enc.reset]
  · simp [State.applyReset, Dec.busy, Dec.reset]

/-- Another buffer is in canonical form and inside its own size. -/
theorem setDst_inv {s : State} (bs : List Byte) (h : s.Inv) (ho : s.enc.ownsDst = false) :
    ((s.setDst (Memory.writeBytes [] 0 bs)).setDstSize bs.length).Inv := by
  refine h.encMove rfl (fun _ => ⟨Memory.writeBytes_wf 0 bs rfl, fun c hc => ?_⟩)
    (Enc.inv_of_not_ownsDst h.enc ho) id rfl
  obtain hc | ⟨-, hlt⟩ := Memory.mem_writeBytes hc
  · cases hc
  · simpa using hlt

theorem hostStep_inv {a : HostAct} {s t : State} (h : s.Inv) (ht : hostStep a s = .next t) : t.Inv := by
  unfold hostStep at ht
  cases a <;> simp only at ht
  case putDst i b =>
    split at ht <;> injection ht with ht <;> subst ht
    · rename_i hi
      exact h.encMove rfl (fun hd => hd.write b hi) h.enc id rfl
    · exact h
  case setDst bs =>
    split at ht
    · cases ht
    · rename_i ho
      injection ht with ht
      subst ht
      exact setDst_inv bs h (by simpa using ho)
  case setSrc es =>
    split at ht
    · cases ht
    · injection ht with ht
      subst ht
      exact h
  all_goals
    injection ht with ht
    subst ht
    exact h

theorem turn_inv {a : Turn} {s t : State} (h : s.Inv) (ht : turn a s = .next t) : t.Inv := by
  cases a <;> simp only [turn, Host.Outcome.next.injEq] at ht
  case op ch => exact runOp_inv h ht
  case encCmd => exact encCmdStep_inv h ht
  case encOwn => exact encOwn_inv h ht
  case encRsp => exact ht ▸ deliverEnc_inv h
  case decCmd => exact ht ▸ decCmdStep_inv h
  case srcEvent => exact ht ▸ srcStep_inv h
  case decRsp => exact ht ▸ deliverDec_inv h
  case reset => exact ht ▸ applyReset_inv h
  case host a => exact hostStep_inv h ht

/-- Settles O48: every turn keeps the invariant, ENC's moves through the length the ladder has reached, DEC's through
the registers amid an encoding. -/
theorem stepKeepsInvariant : Obligations.StepKeepsInvariant := by
  intro s t h ht
  obtain ⟨-, heq⟩ | ⟨a, q, -, heq⟩ := step_cases s <;> rw [heq] at ht
  · exact encOwn_inv h ht
  · exact turn_inv (s := s.setSched q) h ht

end Sys2Proof.Machine
end

section
/-! One event at a time, enabled (10_state R30), and the response registers (R25), turn by turn. -/

namespace Sys2Proof.Machine

/-! ### Events -/

/-- From `s` to `t` no event occurs, or one that was enabled in `s`. -/
def EventEnabled (s t : State) : Prop := t.trace = s.trace ∨ ∃ e : Event, t.trace = s.trace ++ [e] ∧ e.enabled s

theorem checkCap_trace (s : State) : s.checkCap.trace = s.trace := by
  obtain ⟨-, heq⟩ | ⟨-, heq⟩ := s.checkCap_cases <;> rw [heq] <;> rfl

theorem advance_trace (s : State) : s.advance.trace = s.trace := by
  obtain ⟨-, heq⟩ | ⟨-, heq⟩ := s.advance_cases <;> rw [heq] <;> rfl

theorem decTake_trace (ev : SrcEvent) (s : State) : (decTake ev s).trace = s.trace :=
  (congrArg State.trace (sameButDec_decTake ev s)).trans rfl

theorem wantsSrc_iff {d : Dec} : d.wantsSrc = true ↔ d.ph = .head ∨ d.ph = .cont := by simp [Dec.wantsSrc]

theorem encOwn_eventEnabled {s t : State} (h : encOwn s = .next t) : EventEnabled s t := by
  obtain ⟨-, -, -, rfl⟩ | ⟨-, -, -, rfl⟩ | ⟨-, -, rfl⟩ | ⟨hp, he⟩ | ⟨-, -, rfl⟩ := encOwn_cases h
  · exact .inl (checkCap_trace _)
  · exact .inl rfl
  · exact .inl (checkCap_trace _)
  · obtain ⟨-, rfl⟩ := encEmit_next he
    exact .inr ⟨_, advance_trace _, hp⟩
  · exact .inl rfl

theorem encCmdStep_eventEnabled {s t : State} (h : encCmdStep s = .next t) : EventEnabled s t := by
  obtain ⟨w, ws, -, ha⟩ | rfl := encCmdStep_cases h
  · obtain ⟨hi, -, rfl⟩ | ⟨-, rfl⟩ := encAccept_cases ha
    · exact .inr ⟨_, rfl, hi⟩
    · exact .inl rfl
  · exact .inl rfl

theorem deliverEnc_eventEnabled (s : State) : EventEnabled s s.deliverEnc := by
  obtain ⟨hp, heq⟩ | ⟨hp, heq⟩ | ⟨-, -, heq⟩ := s.deliverEnc_cases <;> rw [heq]
  · exact .inr ⟨_, rfl, .inl hp⟩
  · exact .inr ⟨_, rfl, .inr hp⟩
  · exact .inl rfl

/-- The `dec_cmd` turn: a command taken from the offers, or a wait (41_decoder R148). -/
theorem decCmdStep_cases (s : State) :
    (s.dec.ph = .idle ∧ decCmdStep s = ((s.setDecCmds (s.decCmds - 1)).emit .decCmd).setDec
      { s.dec with esc := false, len := 0, cnt := 0, acc := 0, ph := .head }) ∨ decCmdStep s = s := by
  unfold decCmdStep
  split
  · rename_i h
    exact .inl ⟨h.1, if_pos h.1⟩
  · exact .inr rfl

theorem decCmdStep_eventEnabled (s : State) : EventEnabled s (decCmdStep s) := by
  obtain ⟨hi, heq⟩ | heq := decCmdStep_cases s <;> rw [heq]
  · exact .inr ⟨_, rfl, hi⟩
  · exact .inl rfl

theorem srcStep_eventEnabled (s : State) : EventEnabled s (srcStep s) := by
  obtain heq | ⟨b, es, hw, -, heq⟩ | ⟨k, es, hw, -, heq⟩ := srcStep_cases s <;> rw [heq]
  · exact .inl rfl
  · exact .inr ⟨_, decTake_trace _ _, wantsSrc_iff.1 hw⟩
  · exact .inr ⟨_, decTake_trace _ _, wantsSrc_iff.1 hw⟩

theorem deliverDec_eventEnabled (s : State) : EventEnabled s s.deliverDec := by
  obtain ⟨hp, heq⟩ | ⟨-, heq⟩ := s.deliverDec_cases <;> rw [heq]
  · exact .inr ⟨_, rfl, hp⟩
  · exact .inl rfl

/-- A step that is not a whole operation is ENC's own micro-step, or a turn of another kind (60_exceptions R203). -/
theorem step_cases_of_not_runsOp {s t : State} (hop : s.runsOp = false) (h : step s = .next t) :
    encOwn s = .next t ∨
    ∃ a q, s.sched = a :: q ∧ (∀ ch, a ≠ .op ch) ∧ turn a (s.setSched q) = .next t := by
  obtain ⟨-, heq⟩ | ⟨a, q, hs, heq⟩ := step_cases s <;> rw [heq] at h
  · exact .inl h
  · refine .inr ⟨a, q, hs, ?_, h⟩
    rintro ch rfl
    simp [State.runsOp, hs] at hop

theorem turn_eventEnabled {a : Turn} {s t : State} (ha : ∀ ch, a ≠ .op ch) (h : turn a s = .next t) :
    EventEnabled s t := by
  cases a <;> simp only [turn, Host.Outcome.next.injEq] at h
  case op ch => exact absurd rfl (ha ch)
  case encCmd => exact encCmdStep_eventEnabled h
  case encOwn => exact encOwn_eventEnabled h
  case encRsp => exact h ▸ deliverEnc_eventEnabled s
  case decCmd => exact h ▸ decCmdStep_eventEnabled s
  case srcEvent => exact h ▸ srcStep_eventEnabled s
  case decRsp => exact h ▸ deliverDec_eventEnabled s
  case reset => exact h ▸ .inr ⟨.reset, rfl, trivial⟩
  case host b =>
    obtain ⟨-, -, -, htr, -⟩ := hostStep_frame h
    exact .inl htr

/-- Settles O53, turn by turn: each micro-step's guard is the guard of its event. -/
theorem eventsOnlyWhenEnabled : Obligations.EventsOnlyWhenEnabled := by
  intro s t hop h
  obtain h | ⟨a, q, -, ha, h⟩ := step_cases_of_not_runsOp hop h
  · exact encOwn_eventEnabled h
  · exact turn_eventEnabled (s := s.setSched q) ha h

/-! ### Response registers -/

/-- ENC's response registers stay, or ENC has just come to deliver a response (10_state R25). -/
def Enc.RspKept (e e' : Enc) : Prop :=
  (e'.status = e.status ∧ e'.rlen = e.rlen) ∨ (e'.ph = .resp ∨ e'.ph = .frsp) ∧ e.ph ≠ e'.ph

/-- DEC's response registers stay, or DEC has just come to deliver a response (10_state R25). -/
def Dec.RspKept (d d' : Dec) : Prop :=
  (d'.status = d.status ∧ d'.value = d.value ∧ d'.kind = d.kind ∧ d'.nread = d.nread) ∨ d'.ph = .resp ∧ d.ph ≠ .resp

theorem Enc.RspKept.refl (e : Enc) : e.RspKept e := .inl ⟨rfl, rfl⟩

theorem Dec.RspKept.refl (d : Dec) : d.RspKept d := .inl ⟨rfl, rfl, rfl, rfl⟩

theorem checkCap_rspKept {s : State} {e : Enc} (hp : e.ph = .ladder) (hst : s.enc.status = e.status)
    (hr : s.enc.rlen = e.rlen) : e.RspKept s.checkCap.enc ∧ s.checkCap.dec = s.dec := by
  obtain ⟨-, heq⟩ | ⟨-, heq⟩ := s.checkCap_cases <;> rw [heq]
  · exact ⟨.inr ⟨.inr rfl, by simp [hp]⟩, rfl⟩
  · exact ⟨.inl ⟨hst, hr⟩, rfl⟩

theorem encOwn_rspKept {s t : State} (h : encOwn s = .next t) : s.enc.RspKept t.enc ∧ t.dec = s.dec := by
  obtain ⟨hp, -, -, rfl⟩ | ⟨-, -, -, rfl⟩ | ⟨hp, -, rfl⟩ | ⟨hp, he⟩ | ⟨-, -, rfl⟩ := encOwn_cases h
  · exact checkCap_rspKept hp rfl rfl
  · exact ⟨.inl ⟨rfl, rfl⟩, rfl⟩
  · exact checkCap_rspKept hp rfl rfl
  · obtain ⟨-, rfl⟩ := encEmit_next he
    obtain ⟨-, heq⟩ | ⟨-, heq⟩ := State.advance_cases ((s.setDst
      (Memory.write s.dst s.enc.idx.toNat s.enc.outByte)).emit (.dstWrite s.enc.idx s.enc.outByte)) <;> rw [heq]
    · exact ⟨.inr ⟨.inl rfl, by simp [hp]⟩, rfl⟩
    · exact ⟨.inl ⟨rfl, rfl⟩, rfl⟩
  · exact ⟨.refl _, rfl⟩

theorem encCmdStep_rspKept {s t : State} (h : encCmdStep s = .next t) : s.enc.RspKept t.enc ∧ t.dec = s.dec := by
  obtain ⟨w, ws, -, ha⟩ | rfl := encCmdStep_cases h
  · obtain ⟨-, -, rfl⟩ | ⟨-, rfl⟩ := encAccept_cases ha
    · exact ⟨.inl ⟨rfl, rfl⟩, rfl⟩
    · exact ⟨.refl _, rfl⟩
  · exact ⟨.refl _, rfl⟩

theorem deliverEnc_rspKept (s : State) : s.enc.RspKept s.deliverEnc.enc ∧ s.deliverEnc.dec = s.dec := by
  obtain ⟨-, heq⟩ | ⟨-, heq⟩ | ⟨-, -, heq⟩ := s.deliverEnc_cases <;> rw [heq] <;> exact ⟨.inl ⟨rfl, rfl⟩, rfl⟩

theorem decCmdStep_rspKept (s : State) : s.dec.RspKept (decCmdStep s).dec ∧ (decCmdStep s).enc = s.enc := by
  obtain ⟨-, heq⟩ | heq := decCmdStep_cases s <;> rw [heq] <;> exact ⟨.inl ⟨rfl, rfl, rfl, rfl⟩, rfl⟩

theorem deliverDec_rspKept (s : State) : s.dec.RspKept s.deliverDec.dec ∧ s.deliverDec.enc = s.enc := by
  obtain ⟨-, heq⟩ | ⟨-, heq⟩ := s.deliverDec_cases <;> rw [heq] <;> exact ⟨.inl ⟨rfl, rfl, rfl, rfl⟩, rfl⟩

/-- Taking a byte in leaves the response registers until the encoding is complete (41_decoder R147). -/
theorem takeUp_rspKept {s : State} {d d' : Dec} (hp : d.ph ≠ .resp)
    (hrsp : d'.status = d.status ∧ d'.value = d.value ∧ d'.kind = d.kind ∧ d'.nread = d.nread) :
    d.RspKept (s.takeUp d').dec := by
  unfold State.takeUp
  split
  · exact .inr ⟨State.finish_phase _, hp⟩
  · exact .inl hrsp

theorem decTake_rspKept (ev : SrcEvent) (s : State) : s.dec.RspKept (decTake ev s).dec := by
  obtain ⟨hp, b, -, heq⟩ | ⟨hp, b, -, heq⟩ | ⟨hp, k, -, heq⟩ | ⟨hp, k, -, heq⟩ | ⟨-, -, heq⟩ := decTake_cases ev s <;>
    rw [heq]
  · refine takeUp_rspKept (by simp [hp]) ?_
    unfold Dec.first
    split <;> exact ⟨rfl, rfl, rfl, rfl⟩
  · exact takeUp_rspKept (by simp [hp]) ⟨rfl, rfl, rfl, rfl⟩
  · exact .inr ⟨rfl, by simp [hp]⟩
  · exact .inr ⟨rfl, by simp [hp]⟩
  · exact .refl _

theorem decTake_enc (ev : SrcEvent) (s : State) : (decTake ev s).enc = s.enc :=
  (congrArg State.enc (sameButDec_decTake ev s)).trans rfl

theorem srcStep_rspKept (s : State) : s.dec.RspKept (srcStep s).dec ∧ (srcStep s).enc = s.enc := by
  obtain heq | ⟨b, es, -, -, heq⟩ | ⟨k, es, -, -, heq⟩ := srcStep_cases s <;> rw [heq]
  · exact ⟨.refl _, rfl⟩
  · exact ⟨decTake_rspKept (.byte b) (((s.setSrc es).setCursor (s.cursor + 1)).emit (.srcByte b)), decTake_enc _ _⟩
  · exact ⟨decTake_rspKept (.err k) ((s.setSrc es).emit (.srcErr k)), decTake_enc _ _⟩

theorem turn_rspKept {a : Turn} {s t : State} (ha : ∀ ch, a ≠ .op ch) (hr : a ≠ .reset) (h : turn a s = .next t) :
    s.enc.RspKept t.enc ∧ s.dec.RspKept t.dec := by
  have ofEnc (h : s.enc.RspKept t.enc ∧ t.dec = s.dec) : s.enc.RspKept t.enc ∧ s.dec.RspKept t.dec :=
    ⟨h.1, h.2 ▸ .refl _⟩
  have ofDec (h : s.dec.RspKept t.dec ∧ t.enc = s.enc) : s.enc.RspKept t.enc ∧ s.dec.RspKept t.dec :=
    ⟨h.2 ▸ .refl _, h.1⟩
  cases a <;> simp only [turn, Host.Outcome.next.injEq] at h
  case op ch => exact absurd rfl (ha ch)
  case encCmd => exact ofEnc (encCmdStep_rspKept h)
  case encOwn => exact ofEnc (encOwn_rspKept h)
  case encRsp => exact ofEnc (h ▸ deliverEnc_rspKept s)
  case decCmd => exact ofDec (h ▸ decCmdStep_rspKept s)
  case srcEvent => exact ofDec (h ▸ srcStep_rspKept s)
  case decRsp => exact ofDec (h ▸ deliverDec_rspKept s)
  case reset => exact absurd rfl hr
  case host b =>
    obtain ⟨henc, hdec, -⟩ := hostStep_frame h
    exact ⟨henc ▸ .refl _, hdec ▸ .refl _⟩

/-- Settles O54, turn by turn: a unit writes its response registers only as it comes to `RESP` or `FRSP`. -/
theorem responseRegistersKeep : Obligations.ResponseRegistersKeep := by
  intro s t hop hreset h
  obtain h | ⟨a, q, hs, ha, h⟩ := step_cases_of_not_runsOp hop h
  · obtain ⟨henc, hdec⟩ := encOwn_rspKept h
    exact ⟨henc, hdec ▸ Dec.RspKept.refl _⟩
  · refine turn_rspKept (s := s.setSched q) ha ?_ h
    rintro rfl
    simp [State.runsReset, hs] at hreset

end Sys2Proof.Machine
end

section
/-! The host's moves (10_state R21, R29; 60_exceptions R203). -/

namespace Sys2Proof.Machine

theorem step_of_sched {s : State} {a : Turn} {q : List Turn} (h : s.sched = a :: q) :
    step s = turn a (s.setSched q) := by
  simp [step, h]

/-- A write of the host to its own buffer always answers a next state; it changes the byte it names, if the buffer has
it. -/
theorem hostStep_putDst (s : State) (i : Nat) (b : Byte) :
    ∃ t, hostStep (.putDst i b) s = .next t ∧ (i < s.dstSize → Memory.read t.dst i = some b) ∧
      (s.dstSize ≤ i → t.dst = s.dst) ∧ ∀ a, a ≠ i → Memory.read t.dst a = Memory.read s.dst a := by
  by_cases hi : i < s.dstSize
  · exact ⟨_, if_pos hi, fun _ => Memory.read_write_same _ _ _, fun h => absurd hi (by omega),
      fun a ha => Memory.read_write_other _ _ ha⟩
  · exact ⟨_, if_neg hi, fun h => absurd h hi, fun _ => rfl, fun _ _ => rfl⟩

/-- Settles O56: the frame of the host's moves, and the one byte of a host write. -/
theorem hostCannotTouchTheUnits : Obligations.HostCannotTouchTheUnits := by
  constructor
  · intro s t a q hs h
    rw [step_of_sched hs] at h
    exact hostStep_frame (s := s.setSched q) h
  · intro s i b q hs
    rw [step_of_sched hs]
    exact hostStep_putDst (s.setSched q) i b

end Sys2Proof.Machine
end

section
/-! ENC depends on nothing of DEC (10_state R28, 20_memory R65): a move of ENC commutes with replacing everything ENC
does not look at. -/

namespace Sys2Proof.Machine

/-- Outcomes under a change of the next state. -/
def mapNext (f : State → State) (o : Host.Outcome State Fault Refusal) : Host.Outcome State Fault Refusal :=
  andThen o (fun t => .next (f t))

@[simp] theorem mapNext_next (f : State → State) (s : State) : mapNext f (.next s) = .next (f s) := rfl

/-- A map of next states that each part of a sequence commutes with, the sequence commutes with. -/
theorem mapNext_andThen {f : State → State} {o : Host.Outcome State Fault Refusal}
    {g : State → Host.Outcome State Fault Refusal} (hg : ∀ t, g (f t) = mapNext f (g t)) :
    andThen (mapNext f o) g = mapNext f (andThen o g) := by
  cases o
  case next t => exact hg t
  all_goals rfl

/-- ENC's side of `s` in the surroundings of `r`: everything ENC reads or writes is that of `s`, everything else that of
`r`, and the events of `s` come after those of `r`. -/
def State.encOnto (r s : State) : State :=
  { r with enc := s.enc, dst := s.dst, dstSize := s.dstSize, encCmds := s.encCmds, trace := r.trace ++ s.trace }

section
variable (r s : State)

@[simp] theorem encOnto_enc : (r.encOnto s).enc = s.enc := rfl
@[simp] theorem encOnto_dst : (r.encOnto s).dst = s.dst := rfl
@[simp] theorem encOnto_dstSize : (r.encOnto s).dstSize = s.dstSize := rfl
@[simp] theorem encOnto_encCmds : (r.encOnto s).encCmds = s.encCmds := rfl

theorem encOnto_setEnc (e : Enc) : (r.encOnto s).setEnc e = r.encOnto (s.setEnc e) := rfl
theorem encOnto_setDst (m : List Host.Cell) : (r.encOnto s).setDst m = r.encOnto (s.setDst m) := rfl
theorem encOnto_setEncCmds (ws : List (BitVec 68)) : (r.encOnto s).setEncCmds ws = r.encOnto (s.setEncCmds ws) := rfl
theorem encOnto_emit (e : Event) : (r.encOnto s).emit e = r.encOnto (s.emit e) := by
  simp [State.encOnto, State.emit]

theorem encOnto_memWrite (i : Nib) (b : Byte) : memWrite i b (r.encOnto s) = mapNext r.encOnto (memWrite i b s) := by
  unfold memWrite
  rw [encOnto_dstSize, encOnto_dst, encOnto_setDst, encOnto_emit]
  split <;> rfl

theorem encOnto_emitBytes (bs : List Byte) (i : Nib) :
    emitBytes bs i (r.encOnto s) = mapNext r.encOnto (emitBytes bs i s) := by
  induction bs generalizing i s with
  | nil => rfl
  | cons b bs ih =>
    rw [emitBytes, emitBytes, encOnto_memWrite, mapNext_andThen (fun t => ih t (i + 1))]

theorem encOnto_raise : (r.encOnto s).raise .bufferTooSmall = r.encOnto (s.raise .bufferTooSmall) := rfl

theorem encOnto_checkCap : (r.encOnto s).checkCap = r.encOnto s.checkCap := by
  unfold State.checkCap
  rw [encOnto_enc]
  split <;> rfl

theorem encOnto_advance : (r.encOnto s).advance = r.encOnto s.advance := by
  unfold State.advance
  rw [encOnto_enc, encOnto_setEnc]
  dsimp only
  rw [encOnto_enc]
  split <;> rfl

theorem encOnto_deliverEnc : (r.encOnto s).deliverEnc = r.encOnto s.deliverEnc := by
  unfold State.deliverEnc
  rw [encOnto_enc, encOnto_emit, encOnto_emit]
  cases s.enc.ph <;> rfl

theorem encOnto_encAccept (v : Word) (c : Nib) :
    encAccept v c (r.encOnto s) = mapNext r.encOnto (encAccept v c s) := by
  unfold encAccept
  rw [encOnto_enc, encOnto_dstSize, encOnto_emit]
  split_ifs <;> rfl

theorem encOnto_encCmdStep : encCmdStep (r.encOnto s) = mapNext r.encOnto (encCmdStep s) := by
  unfold encCmdStep
  rw [encOnto_encCmds]
  split
  · rfl
  · rw [encOnto_setEncCmds, encOnto_encAccept, encOnto_enc]
    split <;> rfl

theorem encOnto_encEmit : encEmit (r.encOnto s) = mapNext r.encOnto (encEmit s) := by
  unfold encEmit
  rw [encOnto_enc, encOnto_memWrite]
  exact mapNext_andThen (fun t => congrArg _ (encOnto_advance r t))

theorem encOnto_encOwn : encOwn (r.encOnto s) = mapNext r.encOnto (encOwn s) := by
  unfold encOwn
  rw [encOnto_enc, encOnto_encEmit]
  cases s.enc.ph
  case ladder =>
    unfold encEsc encShort encUp
    rw [encOnto_enc, encOnto_setEnc, encOnto_setEnc, encOnto_setEnc, encOnto_checkCap, encOnto_checkCap]
    dsimp only
    split_ifs <;> rfl
  all_goals rfl

theorem encOnto_execEncode (v : Word) (c : Nib) :
    execEncode v c (r.encOnto s) = mapNext r.encOnto (execEncode v c s) := by
  unfold execEncode
  rw [encOnto_enc, encOnto_dstSize, encOnto_emit, encOnto_setEnc]
  dsimp only
  rw [encOnto_enc]
  split_ifs
  · rfl
  · rw [encOnto_raise, encOnto_deliverEnc, mapNext_next]
  · rw [encOnto_emitBytes]
    exact mapNext_andThen (fun t => congrArg _ (encOnto_deliverEnc r
      ((t.setEnc { t.enc with idx := t.enc.len }).succeedEnc t.enc.len)))
  · rfl

/-- A whole operation on `enc_cmd`: the command on offer, if ENC can take it (10_state R30, 30_encoding R82). -/
theorem runOp_encCmd : runOp .encCmd s =
    match s.encCmds with
    | [] => .next s
    | w :: ws =>
      if s.enc.ph = .idle then execEncode (encWordValue w) (encWordCap w) (s.setEncCmds ws) else .next s := by
  rcases hc : s.encCmds with _ | ⟨w, ws⟩ <;> by_cases hi : s.enc.ph = .idle <;>
    simp [runOp, fetch, offered, decode, exec, State.past, noFetch, hc, hi]

theorem encOnto_runOp : runOp .encCmd (r.encOnto s) = mapNext r.encOnto (runOp .encCmd s) := by
  rw [runOp_encCmd, runOp_encCmd, encOnto_encCmds]
  split
  · rfl
  · rw [encOnto_setEncCmds, encOnto_execEncode, encOnto_enc]
    split <;> rfl

/-- ENC's turns look at ENC's side alone. -/
theorem encOnto_turn {a : Turn} (ha : a.ofEnc = true) : turn a (r.encOnto s) = mapNext r.encOnto (turn a s) := by
  cases a
  case encCmd => exact encOnto_encCmdStep r s
  case encOwn => exact encOnto_encOwn r s
  case encRsp => exact congrArg _ (encOnto_deliverEnc r s)
  case op ch =>
    cases ch
    case encCmd => exact encOnto_runOp r s
    all_goals cases ha
  all_goals cases ha

end

/-- A state is its own ENC's side, no event yet, in its own surroundings. -/
theorem encOnto_self {r s : State} (henc : r.enc = s.enc) (hdst : r.dst = s.dst) (hsize : r.dstSize = s.dstSize)
    (hcmds : r.encCmds = s.encCmds) : r.encOnto { s with trace := [] } = r := by
  cases r
  simp_all [State.encOnto]

theorem mapNext_eq_next {f : State → State} {o : Host.Outcome State Fault Refusal} {t : State}
    (h : mapNext f o = .next t) : ∃ u, o = .next u ∧ f u = t := by
  simpa [mapNext, andThen_eq_next] using h

/-- Settles O58: both answers are the answer of ENC's side alone, each in its own surroundings. -/
theorem encodeSideIndependent : Obligations.EncodeSideIndependent := by
  intro s₁ s₂ t₁ a ha henc hdst hsize hcmds h
  rw [← encOnto_self henc hdst hsize hcmds, encOnto_turn _ _ ha] at h
  obtain ⟨u, hu, rfl⟩ := mapNext_eq_next h
  refine ⟨s₂.encOnto u, ?_, rfl, rfl, rfl, u.trace, rfl, rfl⟩
  calc turn a s₂ = turn a (s₂.encOnto { s₂ with trace := [] }) := by rw [encOnto_self rfl rfl rfl rfl]
    _ = .next (s₂.encOnto u) := by rw [encOnto_turn _ _ ha, hu, mapNext_next]

end Sys2Proof.Machine
end

section
/-! DEC depends on nothing of ENC (10_state R28, 20_memory R65): a move of DEC commutes with replacing everything DEC
does not look at, and always answers a next state. -/

namespace Sys2Proof.Machine

/-- DEC's side of `s` in the surroundings of `r`: everything DEC reads or writes is that of `s`, everything else that of
`r`, and the events of `s` come after those of `r`. -/
def State.decOnto (r s : State) : State :=
  { r with dec := s.dec, src := s.src, cursor := s.cursor, decCmds := s.decCmds, trace := r.trace ++ s.trace }

section
variable (r s : State)

@[simp] theorem decOnto_dec : (r.decOnto s).dec = s.dec := rfl
@[simp] theorem decOnto_src : (r.decOnto s).src = s.src := rfl
@[simp] theorem decOnto_cursor : (r.decOnto s).cursor = s.cursor := rfl
@[simp] theorem decOnto_decCmds : (r.decOnto s).decCmds = s.decCmds := rfl

theorem decOnto_setDec (d : Dec) : (r.decOnto s).setDec d = r.decOnto (s.setDec d) := rfl
theorem decOnto_setCursor (n : Nat) : (r.decOnto s).setCursor n = r.decOnto (s.setCursor n) := rfl
theorem decOnto_setDecCmds (n : Nat) : (r.decOnto s).setDecCmds n = r.decOnto (s.setDecCmds n) := rfl
theorem decOnto_emit (e : Event) : (r.decOnto s).emit e = r.decOnto (s.emit e) := by
  simp [State.decOnto, State.emit]

theorem decOnto_finish : (r.decOnto s).finish = r.decOnto s.finish := by
  rw [State.finish_eq, State.finish_eq]
  rfl

theorem decOnto_takeUp (d : Dec) : (r.decOnto s).takeUp d = r.decOnto (s.takeUp d) := by
  unfold State.takeUp
  rw [decOnto_setDec, decOnto_setDec, decOnto_finish]
  split <;> rfl

theorem decOnto_decTake (ev : SrcEvent) : decTake ev (r.decOnto s) = r.decOnto (decTake ev s) := by
  unfold decTake
  rw [decOnto_dec]
  cases hp : s.dec.ph <;> cases ev
  case head.byte b => exact (decFirst_eq b _).trans ((decOnto_takeUp r s _).trans (congrArg _ (decFirst_eq b s).symm))
  case cont.byte b =>
    exact (decMore_eq (s := r.decOnto s) b hp).trans ((decOnto_takeUp r s _).trans (congrArg _ (decMore_eq b hp).symm))
  all_goals rfl

theorem decOnto_memRead : memRead (r.decOnto s) = (memRead s).map (Prod.map id r.decOnto) := by
  unfold memRead
  rw [decOnto_src]
  cases s.src with
  | nil => rfl
  | cons e es =>
    cases e with
    | byte b =>
      exact congrArg (fun t => some (SrcEvent.byte b, t))
        (decOnto_emit r ((s.setSrc es).setCursor (s.cursor + 1)) (.srcByte b))
    | err k => exact congrArg (fun t => some (SrcEvent.err k, t)) (decOnto_emit r (s.setSrc es) (.srcErr k))

theorem decOnto_srcStep : srcStep (r.decOnto s) = r.decOnto (srcStep s) := by
  unfold srcStep
  rw [decOnto_dec, decOnto_memRead]
  split
  · cases memRead s with
    | none => rfl
    | some p => exact decOnto_decTake r p.2 p.1
  · rfl

theorem decOnto_readRest (n j : Nat) : readRest n j (r.decOnto s) = r.decOnto (readRest n j s) := by
  induction n generalizing j s with
  | zero => exact decOnto_finish r s
  | succ n ih =>
    rw [readRest, readRest, decOnto_memRead]
    obtain _ | ⟨_ | _, t⟩ := memRead s
    · rfl
    · exact ih (t.setDec _) (j + 1)
    · rfl

theorem decOnto_readAll : readAll (r.decOnto s) = r.decOnto (readAll s) := by
  unfold readAll
  rw [decOnto_memRead]
  obtain _ | ⟨b | k, t⟩ := memRead s
  · rfl
  · by_cases hb : b = Config.escMark
    · simp only [Option.map_some, Prod.map, id, if_pos hb]
      exact decOnto_readRest r (t.setDec _) 8 0
    · simp only [Option.map_some, Prod.map, id, if_neg hb]
      exact decOnto_readRest r (t.setDec _) _ 1
  · rfl

theorem decOnto_decAccept : decAccept (r.decOnto s) = r.decOnto (decAccept s) := by
  unfold decAccept
  rw [decOnto_dec, decOnto_emit]
  split <;> rfl

theorem decOnto_decCmdStep : decCmdStep (r.decOnto s) = r.decOnto (decCmdStep s) := by
  unfold decCmdStep
  rw [decOnto_dec, decOnto_decCmds, decOnto_setDecCmds, decOnto_decAccept]
  split <;> rfl

theorem decOnto_deliverDec : (r.decOnto s).deliverDec = r.decOnto s.deliverDec := by
  unfold State.deliverDec
  rw [decOnto_dec, decOnto_emit]
  cases s.dec.ph <;> rfl

theorem decOnto_takeBytes (bs : List Byte) : takeBytes bs (r.decOnto s) = r.decOnto (takeBytes bs s) := by
  induction bs generalizing s with
  | nil => rfl
  | cons b bs ih =>
    rw [takeBytes, takeBytes, decOnto_cursor, decOnto_setCursor, decOnto_emit, decOnto_decTake, ih]

/-! ### Whole operations of DEC -/

/-- The instructions DEC carries out: DECODE and the wire forms (30_encoding R81). -/
def RunsOnDec (i : Instr) : Prop := i = .decode ∨ isWire i = true

theorem exec_wire {i : Instr} (h : isWire i = true) : exec i s = takeWire (encode i).wireBytes s := by
  cases i
  case encode => cases h
  case decode => cases h
  all_goals rfl

/-- DEC carries its instructions out as one function of the state, the same function in any surroundings. -/
theorem exec_ofDec {i : Instr} (h : RunsOnDec i) :
    ∃ t, exec i s = .next t ∧ exec i (r.decOnto s) = .next (r.decOnto t) := by
  obtain rfl | h := h
  · by_cases hi : s.dec.ph = .idle
    · refine ⟨_, if_pos hi, (if_pos hi).trans ?_⟩
      rw [decOnto_decAccept, decOnto_readAll, decOnto_deliverDec]
    · exact ⟨s, if_neg hi, if_neg hi⟩
  · rw [exec_wire s h, exec_wire (r.decOnto s) h]
    by_cases hi : s.dec.ph = .head
    · refine ⟨_, if_pos hi, (if_pos hi).trans ?_⟩
      rw [decOnto_takeBytes, decOnto_deliverDec]
    · exact ⟨s, if_neg hi, if_neg hi⟩

theorem isWire_of_instrOfLen {len : Nat} {v : Word} {i : Instr} (h : instrOfLen len v = some i) : isWire i = true := by
  unfold instrOfLen at h
  split at h <;> cases h <;> rfl

theorem isWire_of_decodeWire {bs rest : List Byte} {i : Instr} (h : decodeWire bs = .ok (i, rest)) :
    isWire i = true := by
  unfold decodeWire at h
  split at h
  · cases h
  · split at h
    · cases h
    · split at h
      · cases h
      · split at h
        · cases h
        · rename_i hi
          cases h
          exact isWire_of_instrOfLen hi

theorem offered_ne_enc {ch : Channel} {s : State} {w : BitVec 68} (hch : ch ≠ .encCmd) :
    offered ch s ≠ some (.enc w) := by
  cases ch
  case encCmd => exact absurd rfl hch
  all_goals
    unfold offered
    dsimp only
    split <;> nofun

/-- What is fetched from a channel of DEC is an instruction of DEC (30_encoding R81). -/
theorem fetch_ofDec {ch : Channel} {s t : State} {i : Instr} (hch : ch ≠ .encCmd) (h : fetch ch s = some (i, t)) :
    RunsOnDec i := by
  unfold fetch at h
  split at h
  · cases h
  · rename_i p hp
    split at h
    · cases h
    · rename_i hd
      cases h
      cases p with
      | enc w => exact absurd hp (offered_ne_enc hch)
      | dec => cases hd; exact .inl rfl
      | wire bs => exact .inr (isWire_of_decodeWire hd)

theorem decOnto_fetch {ch : Channel} (hch : ch ≠ .encCmd) :
    fetch ch (r.decOnto s) = (fetch ch s).map (Prod.map id r.decOnto) := by
  have hoff : offered ch (r.decOnto s) = offered ch s := by
    cases ch
    case encCmd => exact absurd rfl hch
    all_goals rfl
  have hpast (n : Nat) : (r.decOnto s).past ch n = r.decOnto (s.past ch n) := by
    cases ch
    case encCmd => exact absurd rfl hch
    all_goals rfl
  unfold fetch
  rw [hoff]
  rcases offered ch s with _ | p
  · rfl
  · dsimp only
    rcases decode p with _ | ⟨i, rest⟩
    · rfl
    · exact congrArg (fun t => some (i, t)) (hpast _)

theorem runOp_ofDec {ch : Channel} (hch : ch ≠ .encCmd) :
    ∃ t, runOp ch s = .next t ∧ runOp ch (r.decOnto s) = .next (r.decOnto t) := by
  unfold runOp
  rw [decOnto_fetch r s hch]
  rcases hf : fetch ch s with _ | ⟨i, u⟩
  · refine ⟨_, rfl, ?_⟩
    cases ch
    case encCmd => exact absurd rfl hch
    case decCmd => rfl
    case src => exact congrArg _ (decOnto_srcStep r s)
  · exact exec_ofDec r u (fetch_ofDec hch hf)

/-- DEC's turns always answer a next state, and look at DEC's side alone. -/
theorem turn_ofDec {b : Turn} (hb : b.ofDec = true) :
    ∃ t, turn b s = .next t ∧ turn b (r.decOnto s) = .next (r.decOnto t) := by
  cases b
  case decCmd => exact ⟨_, rfl, congrArg _ (decOnto_decCmdStep r s)⟩
  case srcEvent => exact ⟨_, rfl, congrArg _ (decOnto_srcStep r s)⟩
  case decRsp => exact ⟨_, rfl, congrArg _ (decOnto_deliverDec r s)⟩
  case op ch => exact runOp_ofDec r s (by rintro rfl; cases hb)
  all_goals cases hb

end

/-- A state is its own DEC's side, no event yet, in its own surroundings. -/
theorem decOnto_self {r s : State} (hdec : r.dec = s.dec) (hsrc : r.src = s.src) (hcur : r.cursor = s.cursor)
    (hcmds : r.decCmds = s.decCmds) : r.decOnto { s with trace := [] } = r := by
  cases r
  simp_all [State.decOnto]

/-- Settles O59: both answers are the answer of DEC's side alone, each in its own surroundings. -/
theorem decodeSideIndependent : Obligations.DecodeSideIndependent := by
  intro s₁ s₂ b hb hdec hsrc hcur hcmds
  obtain ⟨t, ht, ht₁⟩ := turn_ofDec s₁ { s₂ with trace := [] } hb
  obtain ⟨u, hu, ht₂⟩ := turn_ofDec s₂ { s₂ with trace := [] } hb
  obtain rfl : t = u := by simpa [ht] using hu
  rw [decOnto_self hdec hsrc hcur hcmds] at ht₁
  rw [decOnto_self rfl rfl rfl rfl] at ht₂
  exact ⟨_, _, ht₁, ht₂, rfl, rfl, rfl, rfl, t.trace, rfl, rfl⟩

end Sys2Proof.Machine
end

section
/-! ENCODE as one equation per case (40_encoder R100 to R107): where the ladder ends, which bytes go out, and what ENCODE
answers. -/

namespace Sys2Proof.Machine

/-! ### The ladder and the registers it fixes -/

/-- From any rung it may stand on, the ladder ends at the length of the value, or at 8 on the way to the escape form
(40_encoder R101, R102). -/
theorem ladder_eq {v : Word} (fuel : Nat) {len : Nib} (h1 : 1 ≤ len.toNat) (h8 : len.toNat ≤ 8)
    (hf : fuel + len.toNat = 9) (hlo : (minM len.toNat).toNat ≤ v.toNat) :
    ladder v fuel len (rungT len.toNat) =
      (BitVec.ofNat 4 (min (encLen v) 8), rungT (min (encLen v) 8), decide (encLen v = 9)) := by
  induction fuel generalizing len with
  | zero => omega
  | succ fuel ih =>
    rw [ladder]
    cases hge : ge64 v (rungT len.toNat)
    · have hlen := encLen_eq_of_range h1 h8 hlo (ge64_eq_false.1 hge)
      simp [hlen, h8, show len.toNat ≠ 9 by omega]
    · have hv := ge64_eq_true.1 hge
      by_cases hlen : len = Config.maxShortLen
      · subst hlen
        rw [show (rungT (BitVec.toNat Config.maxShortLen)).toNat = 2 ^ 56 from rungT_toNat (by decide)] at hv
        rw [encLen_eq_nine hv]
        rfl
      · have hlt : len.toNat < (8 : Nib).toNat := lt_of_le_of_ne h8 (fun he => hlen (BitVec.eq_of_toNat_eq he))
        have hs : (len + 1).toNat = len.toNat + 1 := nib_succ_toNat hlt
        have hnext := @ih (len + 1) (by omega) (hs ▸ hlt) (by omega) (by rwa [hs, minM_succ h1])
        rw [hs, ← shl64_rungT] at hnext
        simpa only [if_true, if_neg hlen] using hnext

theorem climb_eq (v : Word) :
    climb v = (BitVec.ofNat 4 (min (encLen v) 8), rungT (min (encLen v) 8), decide (encLen v = 9)) :=
  ladder_eq 8 (len := Config.minLen) (by decide) (by decide) (by decide) (Nat.zero_le _)

theorem encLen_nib_toNat (v : Word) : (BitVec.ofNat 4 (encLen v)).toNat = encLen v := by
  have := encLen_le_nine v
  rw [BitVec.toNat_ofNat]
  omega

/-- R103 builds the word of R71, the marker bit first and both shifted to their place. -/
theorem shortWord_eq_wireWord {len : Nib} (v : Word) (h : 1 ≤ len.toNat) : shortWord v len = wireWord len.toNat v := by
  obtain ⟨n, hn⟩ : ∃ n, len.toNat = n + 1 := ⟨len.toNat - 1, by omega⟩
  simp only [shortWord, wireWord, shl64, hn, Nat.add_sub_cancel, BitVec.shiftLeft_or_distrib, ← BitVec.shiftLeft_add]
  rw [Nat.add_comm]

/-- The registers the ladder leaves, by the closed form of the length. -/
theorem chosen_climb (e : Enc) (v : Word) (c : Nib) : e.chosen v c (climb v) = encChosen e v c := by
  rw [climb_eq]
  have h9 := encLen_le_nine v
  by_cases h : encLen v = 9
  · simp [Enc.chosen, encChosen, h, Config.escLen]
  · have h8 : min (encLen v) 8 = encLen v := by omega
    have hw : shortWord v (BitVec.ofNat 4 (encLen v)) = wireWord (encLen v) v := by
      rw [shortWord_eq_wireWord v (by simpa only [encLen_nib_toNat] using encLen_pos v), encLen_nib_toNat]
    simp [Enc.chosen, encChosen, h, h8, hw]

/-! ### The bytes -/

theorem canonicalBytes_length (v : Word) : (canonicalBytes v).length = encLen v := by
  unfold canonicalBytes
  split
  · rename_i h
    simp [escBytes, h]
  · simp [shortBytes]

/-- What ENC writes is the canonical encoding (40_encoder R104, R105). -/
theorem outBytes_encChosen (e : Enc) (v : Word) (c : Nib) :
    outBytes (encChosen e v c) (climb v).2.2 = canonicalBytes v := by
  have hlen := encLen_nib_toNat v
  rw [climb_eq]
  by_cases h : encLen v = 9
  · simp [outBytes, canonicalBytes, encChosen, escBytes, h]
  · simp only [outBytes, canonicalBytes, encChosen, shortBytes, h, decide_false, Bool.false_eq_true, if_false, hlen]

/-! ### The answers of ENCODE -/

/-- The capacity check on the length of the value (40_encoder R107). -/
theorem capShort_encLen (v : Word) (c : Nib) : capShort c (BitVec.ofNat 4 (encLen v)) = decide (c.toNat < encLen v) := by
  rw [capShort, encLen_nib_toNat]

/-- An encoding that `cap` admits lies in the buffer, unless `cap` overstates it (70_reset R225). -/
theorem encLen_le_size {v : Word} {c : Nib} {n : Nat} (hc : capOverstated c n = false) (h : encLen v ≤ c.toNat) :
    encLen v ≤ n := by
  have h9 := encLen_le_nine v
  simp only [capOverstated, decide_eq_false_iff_not] at hc
  omega

section
variable {v : Word} {c : Nib} {s : State}

/-- A command waits unless ENC is in `IDLE` (40_encoder R111). -/
theorem execEncode_waits (hi : s.enc.ph ≠ .idle) : execEncode v c s = .next s := if_neg hi

/-- An overstated `cap` is refused (70_reset R225). -/
theorem execEncode_overstated (hi : s.enc.ph = .idle) (hc : capOverstated c s.dstSize = true) :
    execEncode v c s = .refused .capOverstated := (if_pos hi).trans (if_pos hc)

/-- ENCODE of a value whose encoding does not fit `cap` (40_encoder R107). -/
theorem execEncode_tooSmall (hi : s.enc.ph = .idle) (hc : capOverstated c s.dstSize = false)
    (h : c.toNat < encLen v) : execEncode v c s = .next (encodeFault v c s) := by
  have hs : capShort c (encChosen s.enc v c).len = true := by simpa [encChosen, capShort_encLen] using h
  simp only [execEncode, chosen_climb, State.setEnc_enc, if_pos hi, hc, Bool.false_eq_true, if_false, hs, if_true]
  simp [State.raise, State.deliverEnc, encodeFault, State.setEnc, State.emit]

/-- ENCODE of a value whose encoding fits `cap` (40_encoder R104 to R106). -/
theorem execEncode_fits (hi : s.enc.ph = .idle) (hc : capOverstated c s.dstSize = false)
    (h : encLen v ≤ c.toNat) : execEncode v c s = .next (encodeResult v c s) := by
  have hs : capShort c (encChosen s.enc v c).len = false := by simpa [encChosen, capShort_encLen] using h
  have hsize := encLen_le_size hc h
  have h9 := encLen_le_nine v
  have hw := emitBytes_inside (canonicalBytes v) 0 ((s.emit (.encCmd v c)).setEnc (encChosen s.enc v c))
    (by simpa [canonicalBytes_length] using hsize) (by simp [canonicalBytes_length]; omega)
  simp only [execEncode, chosen_climb, outBytes_encChosen, State.setEnc_enc, if_pos hi, hc, hs, Bool.false_eq_true,
    if_false, hw, andThen_next]
  simp [State.succeedEnc, State.deliverEnc, encodeResult, encChosen, State.setEnc, State.emit]

/-- ENCODE does one of four things: it waits, is refused, faults its unit, or writes the encoding. -/
theorem execEncode_answers (v : Word) (c : Nib) (s : State) :
    (s.enc.ph ≠ .idle ∧ execEncode v c s = .next s) ∨
    (s.enc.ph = .idle ∧ capOverstated c s.dstSize = true ∧ execEncode v c s = .refused .capOverstated) ∨
    (s.enc.ph = .idle ∧ capOverstated c s.dstSize = false ∧ c.toNat < encLen v ∧
      execEncode v c s = .next (encodeFault v c s)) ∨
    (s.enc.ph = .idle ∧ capOverstated c s.dstSize = false ∧ encLen v ≤ c.toNat ∧
      execEncode v c s = .next (encodeResult v c s)) := by
  by_cases hi : s.enc.ph = .idle
  · cases hc : capOverstated c s.dstSize
    · obtain h | h := Nat.lt_or_ge c.toNat (encLen v)
      · exact .inr (.inr (.inl ⟨hi, rfl, h, execEncode_tooSmall hi hc h⟩))
      · exact .inr (.inr (.inr ⟨hi, rfl, h, execEncode_fits hi hc h⟩))
    · exact .inr (.inl ⟨hi, rfl, execEncode_overstated hi hc⟩)
  · exact .inl ⟨hi, execEncode_waits hi⟩

end

/-! ### What DST holds after ENCODE -/

/-- A canonical encoding laid in DST reads back, and the bytes behind it stay (20_memory R53). -/
theorem read_writeBytes_canonicalBytes (m : List Host.Cell) (v : Word) :
    (∀ (i : Nat) (h : i < (canonicalBytes v).length),
      Memory.read (Memory.writeBytes m 0 (canonicalBytes v)) i = some (canonicalBytes v)[i]) ∧
    ∀ a, encLen v ≤ a → Memory.read (Memory.writeBytes m 0 (canonicalBytes v)) a = Memory.read m a := by
  refine ⟨fun i h => ?_, fun a h => ?_⟩
  · simpa using Memory.read_writeBytes_inside m 0 (canonicalBytes v) i h
  · exact Memory.read_writeBytes_outside m 0 _ (.inr (by simpa [canonicalBytes_length] using h))

/-- Settles O20: ENCODE that fits leaves `encodeResult`, whose DST is the encoding over the old bytes; ENCODE that does
not leaves `encodeFault`, whose DST is the old one. -/
theorem encodeDstContents : Obligations.EncodeDstContents := by
  intro v c s t hi hc ht
  refine ⟨fun h => ⟨canonicalBytes_length v, ?_⟩, fun h a => ?_⟩
  · obtain rfl : encodeResult v c s = t := by simpa using (execEncode_fits hi hc h).symm.trans ht
    exact read_writeBytes_canonicalBytes s.dst v
  · obtain rfl : encodeFault v c s = t := by simpa using (execEncode_tooSmall hi hc h).symm.trans ht
    rfl

end Sys2Proof.Machine
end

section
/-! No fault (20_memory R52): every write of ENC, in a whole operation or in E-EMIT, is inside the buffer. -/

namespace Sys2Proof.Machine

/-- An instruction that is not ENCODE is DEC's (30_encoding R81). -/
theorem encode_or_runsOnDec (i : Instr) : (∃ v c, i = .encode v c) ∨ RunsOnDec i := by
  cases i
  case encode v c => exact .inl ⟨v, c, rfl⟩
  case decode => exact .inr (.inl rfl)
  all_goals exact .inr (.inr rfl)

/-- Every instruction answers a next state, but an ENCODE of an overstated `cap` from `IDLE`. -/
theorem exec_answers (i : Instr) (s : State) :
    (∃ t, exec i s = .next t) ∨
    (exec i s = .refused .capOverstated ∧
      ∃ v c, i = .encode v c ∧ s.enc.ph = .idle ∧ capOverstated c s.dstSize = true) := by
  obtain ⟨v, c, rfl⟩ | hi := encode_or_runsOnDec i
  · obtain ⟨-, h⟩ | ⟨hi, hc, h⟩ | ⟨-, -, -, h⟩ | ⟨-, -, -, h⟩ := execEncode_answers v c s
    case inr.inl => exact .inr ⟨h, v, c, rfl, hi, hc⟩
    all_goals exact .inl ⟨_, h⟩
  · obtain ⟨t, h, -⟩ := exec_ofDec s s hi
    exact .inl ⟨t, h⟩

/-- Settles O50: of the two answers of `exec_answers` neither is a fault, and the refusal is the one named. -/
theorem execNeverFaults : Obligations.ExecNeverFaults := by
  constructor
  · intro i s r h
    obtain ⟨t, heq⟩ | ⟨heq, -⟩ := exec_answers i s <;> rw [heq] at h <;> cases h
  · intro i s r h
    obtain ⟨t, heq⟩ | ⟨heq, hcap⟩ := exec_answers i s <;> rw [heq] at h <;> cases h
    exact ⟨rfl, hcap⟩

/-! ### A step -/

theorem encAccept_ne_fault (v : Word) (c : Nib) (s : State) (r : Fault) : encAccept v c s ≠ .fault r := by
  unfold encAccept
  split_ifs <;> nofun

theorem encCmdStep_ne_fault (s : State) (r : Fault) : encCmdStep s ≠ .fault r := by
  unfold encCmdStep
  split
  · nofun
  · split
    · exact encAccept_ne_fault _ _ _ r
    · nofun

/-- In `EMIT` the index is one the buffer has (40_encoder R107, 20_memory R52). -/
theorem Enc.Inv.idx_lt_size {e : Enc} {n : Nat} (h : e.Inv n) (hp : e.ph = .emit) : e.idx.toNat < n := by
  obtain ⟨-, hlen, hidx, hcap, hover, -⟩ := (Enc.inv_of_emit hp).1 h
  rw [capShort, decide_eq_false_iff_not, hlen, not_lt] at hcap
  exact (hlen ▸ hidx).trans_le (encLen_le_size hover hcap)

theorem encOwn_ne_fault {s : State} (h : s.Inv) (r : Fault) : encOwn s ≠ .fault r := by
  unfold encOwn
  cases hp : s.enc.ph <;> dsimp only
  case ladder => split_ifs <;> nofun
  case emit =>
    rw [encEmit, memWrite_inside _ (h.enc.idx_lt_size hp)]
    nofun
  all_goals nofun

theorem runOp_ne_fault (ch : Channel) (s : State) (r : Fault) : runOp ch s ≠ .fault r := by
  unfold runOp
  split
  · exact execNeverFaults.1 _ _ r
  · nofun

theorem hostStep_ne_fault (a : HostAct) (s : State) (r : Fault) : hostStep a s ≠ .fault r := by
  unfold hostStep
  cases a <;> dsimp only
  case putDst | setDst | setSrc => split <;> nofun
  all_goals nofun

theorem turn_ne_fault {s : State} (h : s.Inv) (a : Turn) (r : Fault) : turn a s ≠ .fault r := by
  cases a <;> simp only [turn]
  case op ch => exact runOp_ne_fault ch s r
  case encCmd => exact encCmdStep_ne_fault s r
  case encOwn => exact encOwn_ne_fault h r
  case host b => exact hostStep_ne_fault b s r
  all_goals nofun

/-- Settles O49, turn by turn: only E-EMIT's write leans on the invariant, which keeps its index inside the buffer. -/
theorem stepNeverFaults : Obligations.StepNeverFaults := by
  intro s r h
  obtain ⟨-, heq⟩ | ⟨a, q, -, heq⟩ := step_cases s <;> rw [heq]
  · exact encOwn_ne_fault h r
  · exact turn_ne_fault (s := s.setSched q) h a r

end Sys2Proof.Machine
end

section
/-! What DEC's instructions, and single steps, leave alone (10_state R28, 20_memory R50). -/

namespace Sys2Proof.Machine

/-! ### DEC's instructions -/

/-- An instruction of DEC leaves ENC, DST, ENC's commands and the schedule alone: its answer is a side of DEC in the
surroundings it began in. -/
theorem exec_eq_decOnto {i : Instr} {s t : State} (hi : RunsOnDec i) (h : exec i s = .next t) :
    ∃ u, t = s.decOnto u := by
  obtain ⟨u, -, hu⟩ := exec_ofDec s { s with trace := [] } hi
  rw [decOnto_self rfl rfl rfl rfl, h] at hu
  exact ⟨u, by simpa using hu⟩

theorem deliverDec_src (s : State) : s.deliverDec.src = s.src ∧ s.deliverDec.decCmds = s.decCmds := by
  obtain ⟨-, heq⟩ | ⟨-, heq⟩ := s.deliverDec_cases <;> rw [heq] <;> exact ⟨rfl, rfl⟩

/-- A wire form takes no event of the source's own list and no command. -/
theorem takeWire_src {bs : List Byte} {s t : State} (h : takeWire bs s = .next t) :
    t.src = s.src ∧ t.decCmds = s.decCmds := by
  unfold takeWire at h
  split at h <;> injection h with h <;> subst h
  · rw [(deliverDec_src _).1, (deliverDec_src _).2, takeBytes_eq]
    exact ⟨rfl, rfl⟩
  · exact ⟨rfl, rfl⟩

/-- Settles O30: a wire form is an instruction of DEC, and neither the bytes nor the response touch the source. -/
theorem wireFrame : Obligations.WireFrame := by
  intro i s t hi h
  obtain ⟨hsrc, hcmds⟩ := takeWire_src ((exec_wire s hi).symm.trans h)
  obtain ⟨u, rfl⟩ := exec_eq_decOnto (.inr hi) h
  exact ⟨rfl, rfl, fun _ => rfl, rfl, hsrc, rfl, hcmds, rfl⟩

/-! ### Reading the source -/

/-- A relation between a state and a later one that a change of DEC's registers and a read of the source are in: what
holds of any run of reads (41_decoder R130, R147). -/
structure ReadRel (R : State → State → Prop) : Prop where
  trans : ∀ {s t u}, R s t → R t u → R s u
  setDec : ∀ s d, R s (s.setDec d)
  read : ∀ {s t ev}, memRead s = some (ev, t) → R s t

section
variable {R : State → State → Prop} (hR : ReadRel R)
include hR

theorem ReadRel.refl (s : State) : R s s := hR.setDec s s.dec

theorem ReadRel.sameButDec {s t : State} (h : SameButDec s t) : R s t := by
  unfold SameButDec at h
  exact h ▸ hR.setDec s t.dec

theorem ReadRel.srcStep (s : State) : R s (srcStep s) := by
  unfold Machine.srcStep
  split
  · rcases hm : memRead s with _ | ⟨ev, u⟩
    · exact hR.refl s
    · exact hR.trans (hR.read hm) (hR.sameButDec (sameButDec_decTake ev u))
  · exact hR.refl s

theorem ReadRel.readRest (n j : Nat) (s : State) : R s (readRest n j s) := by
  induction n generalizing j s with
  | zero => exact hR.sameButDec (sameButDec_finish s)
  | succ n ih =>
    rcases hm : memRead s with _ | ⟨b | k, u⟩ <;> simp only [Machine.readRest, hm]
    · exact hR.setDec _ _
    · exact hR.trans (hR.read hm) (hR.trans (hR.setDec _ _) (ih _ _))
    · exact hR.trans (hR.read hm) (hR.setDec _ _)

theorem ReadRel.readAll (s : State) : R s (readAll s) := by
  rcases hm : memRead s with _ | ⟨b | k, u⟩ <;> simp only [Machine.readAll, hm]
  · exact hR.refl s
  · have rest (d : Dec) (n j : Nat) : R s (Machine.readRest n j (u.setDec d)) :=
      hR.trans (hR.read hm) (hR.trans (hR.setDec _ _) (hR.readRest n j _))
    split <;> exact rest _ _ _
  · exact hR.trans (hR.read hm) (hR.setDec _ _)

end

/-- From `s` to `t` the source has delivered some of its events, and no command has been taken. -/
def SrcDropped (s t : State) : Prop := t.decCmds = s.decCmds ∧ ∃ n, t.src = s.src.drop n

theorem srcDropped_readRel : ReadRel SrcDropped where
  trans := by
    rintro s t u ⟨hc, n, hs⟩ ⟨hc', m, hs'⟩
    exact ⟨hc'.trans hc, n + m, by rw [hs', hs, List.drop_drop]⟩
  setDec _ _ := ⟨rfl, 0, rfl⟩
  read {s t ev} h := by
    obtain ⟨-, hm⟩ | ⟨b, es, hs, hm⟩ | ⟨k, es, hs, hm⟩ := memRead_cases s <;> rw [hm] at h <;> cases h
    · exact ⟨rfl, 1, by rw [hs]; rfl⟩
    · exact ⟨rfl, 1, by rw [hs]; rfl⟩

theorem decAccept_src (s : State) : (decAccept s).src = s.src ∧ (decAccept s).decCmds = s.decCmds := by
  unfold decAccept
  split <;> exact ⟨rfl, rfl⟩

theorem execDecode_srcDropped {s t : State} (h : execDecode s = .next t) : SrcDropped s t := by
  unfold execDecode at h
  split at h <;> injection h with h <;> subst h
  · obtain ⟨hc, n, hs⟩ := srcDropped_readRel.readAll (decAccept s)
    obtain ⟨hs', hc'⟩ := deliverDec_src (readAll (decAccept s))
    obtain ⟨hs₀, hc₀⟩ := decAccept_src s
    exact ⟨hc'.trans (hc.trans hc₀), n, by rw [hs', hs, hs₀]⟩
  · exact srcDropped_readRel.refl s

/-- Settles O35: DECODE is an instruction of DEC, and its reads drop events of the source. -/
theorem decodeFrame : Obligations.DecodeFrame := by
  intro s
  obtain ⟨t, h, -⟩ := exec_ofDec s s (i := .decode) (.inl rfl)
  obtain ⟨hcmds, hsrc⟩ := execDecode_srcDropped h
  obtain ⟨u, rfl⟩ := exec_eq_decOnto (.inl rfl) h
  exact ⟨_, h, rfl, rfl, fun _ => rfl, rfl, rfl, hcmds, rfl, hsrc⟩

/-! ### Single steps -/

/-- From `s` to `t` DST keeps its size and every byte but the one at `E_IDX` in `EMIT`. -/
def DstKept (s t : State) : Prop :=
  t.dstSize = s.dstSize ∧
    ∀ a, ¬ (s.enc.ph = .emit ∧ a = s.enc.idx.toNat) → Memory.read t.dst a = Memory.read s.dst a

theorem DstKept.of_eq {s t : State} (h : t.dst = s.dst ∧ t.dstSize = s.dstSize) : DstKept s t :=
  ⟨h.2, fun _ _ => by rw [h.1]⟩

theorem checkCap_dst (s : State) : s.checkCap.dst = s.dst ∧ s.checkCap.dstSize = s.dstSize := by
  obtain ⟨-, heq⟩ | ⟨-, heq⟩ := s.checkCap_cases <;> rw [heq] <;> exact ⟨rfl, rfl⟩

theorem advance_dst (s : State) : s.advance.dst = s.dst ∧ s.advance.dstSize = s.dstSize := by
  obtain ⟨-, heq⟩ | ⟨-, heq⟩ := s.advance_cases <;> rw [heq] <;> exact ⟨rfl, rfl⟩

theorem deliverEnc_dst (s : State) : s.deliverEnc.dst = s.dst ∧ s.deliverEnc.dstSize = s.dstSize := by
  obtain ⟨-, heq⟩ | ⟨-, heq⟩ | ⟨-, -, heq⟩ := s.deliverEnc_cases <;> rw [heq] <;> exact ⟨rfl, rfl⟩

theorem encCmdStep_dst {s t : State} (h : encCmdStep s = .next t) : t.dst = s.dst ∧ t.dstSize = s.dstSize := by
  obtain ⟨w, ws, -, ha⟩ | rfl := encCmdStep_cases h
  · obtain ⟨-, -, rfl⟩ | ⟨-, rfl⟩ := encAccept_cases ha <;> exact ⟨rfl, rfl⟩
  · exact ⟨rfl, rfl⟩

/-- E-EMIT writes the byte at `E_IDX`; ENC's other micro-steps write none (40_encoder R110). -/
theorem encOwn_dstKept {s t : State} (h : encOwn s = .next t) : DstKept s t := by
  obtain ⟨-, -, -, rfl⟩ | ⟨-, -, -, rfl⟩ | ⟨-, -, rfl⟩ | ⟨hp, he⟩ | ⟨-, -, rfl⟩ := encOwn_cases h
  · exact .of_eq (checkCap_dst _)
  · exact .of_eq ⟨rfl, rfl⟩
  · exact .of_eq (checkCap_dst _)
  · obtain ⟨-, rfl⟩ := encEmit_next he
    refine ⟨(advance_dst _).2, fun a ha => ?_⟩
    rw [(advance_dst _).1]
    exact Memory.read_write_other _ _ (fun hx => ha ⟨hp, hx⟩)
  · exact .of_eq ⟨rfl, rfl⟩

/-- What a turn of DEC answers is DEC's side of its answer with no event yet, in the surroundings it began in. -/
theorem turn_eq_decOnto {b : Turn} {s t : State} (hb : b.ofDec = true) (h : turn b s = .next t) :
    ∃ u, turn b { s with trace := [] } = .next u ∧ t = s.decOnto u := by
  obtain ⟨u, hu, hsu⟩ := turn_ofDec s { s with trace := [] } hb
  rw [decOnto_self rfl rfl rfl rfl, h] at hsu
  exact ⟨u, hu, by simpa using hsu⟩

/-- DEC's turns leave DST alone. -/
theorem turn_ofDec_dst {b : Turn} {s t : State} (hb : b.ofDec = true) (h : turn b s = .next t) :
    t.dst = s.dst ∧ t.dstSize = s.dstSize := by
  obtain ⟨u, -, rfl⟩ := turn_eq_decOnto hb h
  exact ⟨rfl, rfl⟩

theorem turn_dstKept {a : Turn} {s t : State} (hop : ∀ ch, a ≠ .op ch) (hhost : ∀ b, a ≠ .host b)
    (h : turn a s = .next t) : DstKept s t := by
  cases a
  case op ch => exact absurd rfl (hop ch)
  case host b => exact absurd rfl (hhost b)
  case encOwn => exact encOwn_dstKept h
  case encCmd => exact .of_eq (encCmdStep_dst h)
  case encRsp => cases h; exact .of_eq (deliverEnc_dst s)
  case reset => cases h; exact .of_eq ⟨rfl, rfl⟩
  all_goals exact .of_eq (turn_ofDec_dst rfl h)

/-- Settles O55, turn by turn: E-EMIT alone writes. -/
theorem stepDstFrame : Obligations.StepDstFrame := by
  intro s t hop hhost h
  obtain h | ⟨a, q, hs, ha, h⟩ := step_cases_of_not_runsOp hop h
  · exact encOwn_dstKept h
  · refine turn_dstKept (s := s.setSched q) ha ?_ h
    rintro b rfl
    simp [State.runsHost, hs] at hhost

end Sys2Proof.Machine
end

section
/-! The events a turn adds (10_state R22, R30; 20_memory R56): whose they are, and how many of them move the cursor. -/

namespace Sys2Proof.Machine

theorem bytesTaken_append (es fs : List Event) : bytesTaken (es ++ fs) = bytesTaken es + bytesTaken fs :=
  List.countP_append

/-- From `s` to `t` events are added, all of ENC's channels or none of them as `enc` says, and the cursor advances by
the number of `src_byte` events among them. -/
def AddsEvents (enc : Bool) (s t : State) : Prop :=
  ∃ es, t.trace = s.trace ++ es ∧ t.cursor = s.cursor + bytesTaken es ∧ ∀ e ∈ es, e.ofEnc = enc

theorem AddsEvents.none {b : Bool} {s t : State} (htr : t.trace = s.trace) (hc : t.cursor = s.cursor) :
    AddsEvents b s t := ⟨[], by simpa using htr, hc, nofun⟩

theorem AddsEvents.one {s t : State} (e : Event) (htr : t.trace = s.trace ++ [e])
    (hc : t.cursor = s.cursor + bytesTaken [e]) : AddsEvents e.ofEnc s t := ⟨[e], htr, hc, by simp⟩

theorem AddsEvents.trans {b : Bool} {s t u : State} (h : AddsEvents b s t) (h' : AddsEvents b t u) :
    AddsEvents b s u := by
  obtain ⟨es, htr, hc, hes⟩ := h
  obtain ⟨fs, htr', hc', hfs⟩ := h'
  refine ⟨es ++ fs, by rw [htr', htr, List.append_assoc], by rw [hc', hc, bytesTaken_append, Nat.add_assoc], ?_⟩
  exact List.forall_mem_append.2 ⟨hes, hfs⟩

/-! ### ENC -/

theorem checkCap_addsEvents (s : State) : AddsEvents true s s.checkCap := by
  obtain ⟨-, heq⟩ | ⟨-, heq⟩ := s.checkCap_cases <;> rw [heq] <;> exact .none rfl rfl

theorem advance_addsEvents (s : State) : AddsEvents true s s.advance := by
  obtain ⟨-, heq⟩ | ⟨-, heq⟩ := s.advance_cases <;> rw [heq] <;> exact .none rfl rfl

theorem memWrite_addsEvents {i : Nib} {b : Byte} {s t : State} (h : memWrite i b s = .next t) :
    AddsEvents true s t := by
  obtain ⟨-, rfl⟩ := memWrite_next h
  exact .one (.dstWrite i b) rfl rfl

theorem emitBytes_addsEvents {bs : List Byte} {i : Nib} {s t : State} (h : emitBytes bs i s = .next t) :
    AddsEvents true s t := by
  induction bs generalizing i s with
  | nil => cases h; exact .none rfl rfl
  | cons b bs ih =>
    obtain ⟨u, hw, hrest⟩ := andThen_eq_next.1 h
    exact (memWrite_addsEvents hw).trans (ih hrest)

theorem deliverEnc_addsEvents (s : State) : AddsEvents true s s.deliverEnc := by
  obtain ⟨-, heq⟩ | ⟨-, heq⟩ | ⟨-, -, heq⟩ := s.deliverEnc_cases <;> rw [heq]
  · exact .one (.encRsp .ok s.enc.rlen) rfl rfl
  · exact .one (.encRsp .bufferTooSmall 0) rfl rfl
  · exact .none rfl rfl

theorem encOwn_addsEvents {s t : State} (h : encOwn s = .next t) : AddsEvents true s t := by
  obtain ⟨-, -, -, rfl⟩ | ⟨-, -, -, rfl⟩ | ⟨-, -, rfl⟩ | ⟨-, he⟩ | ⟨-, -, rfl⟩ := encOwn_cases h
  · exact checkCap_addsEvents (s.setEnc _)
  · exact .none rfl rfl
  · exact checkCap_addsEvents (s.setEnc _)
  · obtain ⟨u, hw, hadv⟩ := andThen_eq_next.1 he
    cases hadv
    exact (memWrite_addsEvents hw).trans (advance_addsEvents u)
  · exact .none rfl rfl

theorem encCmdStep_addsEvents {s t : State} (h : encCmdStep s = .next t) : AddsEvents true s t := by
  obtain ⟨w, ws, -, ha⟩ | rfl := encCmdStep_cases h
  · obtain ⟨-, -, rfl⟩ | ⟨-, rfl⟩ := encAccept_cases ha
    · exact .one (.encCmd (encWordValue w) (encWordCap w)) rfl rfl
    · exact .none rfl rfl
  · exact .none rfl rfl

theorem execEncode_addsEvents {v : Word} {c : Nib} {s t : State} (h : execEncode v c s = .next t) :
    AddsEvents true s t := by
  obtain ⟨-, rfl⟩ | ⟨-, -, s1, hs1, hrest⟩ := execEncode_cases h
  · exact .none rfl rfl
  · have haccept : AddsEvents true s s1 := hs1 ▸ .one (.encCmd v c) rfl rfl
    obtain ⟨-, rfl⟩ | ⟨-, s2, hw, rfl⟩ := hrest
    · exact haccept.trans (deliverEnc_addsEvents (s1.raise .bufferTooSmall))
    · exact haccept.trans ((emitBytes_addsEvents hw).trans
        (deliverEnc_addsEvents ((s2.setEnc { s2.enc with idx := s2.enc.len }).succeedEnc s2.enc.len)))

/-! ### DEC -/

theorem addsEvents_readRel : ReadRel (AddsEvents false) where
  trans := AddsEvents.trans
  setDec _ _ := .none rfl rfl
  read {s t ev} h := by
    obtain ⟨-, hm⟩ | ⟨b, es, -, hm⟩ | ⟨k, es, -, hm⟩ := memRead_cases s <;> rw [hm] at h <;> cases h
    · exact .one (.srcByte b) rfl rfl
    · exact .one (.srcErr k) rfl rfl

theorem decAccept_addsEvents (s : State) : AddsEvents false s (decAccept s) := by
  unfold decAccept
  split
  · exact .one .decCmd rfl rfl
  · exact .none rfl rfl

theorem decCmdStep_addsEvents (s : State) : AddsEvents false s (decCmdStep s) := by
  obtain ⟨-, heq⟩ | heq := decCmdStep_cases s <;> rw [heq]
  · exact .one .decCmd rfl rfl
  · exact .none rfl rfl

theorem deliverDec_addsEvents (s : State) : AddsEvents false s s.deliverDec := by
  obtain ⟨-, heq⟩ | ⟨-, heq⟩ := s.deliverDec_cases <;> rw [heq]
  · exact .one (.decRsp s.dec.status s.dec.value s.dec.kind s.dec.nread) rfl rfl
  · exact .none rfl rfl

theorem takeBytes_addsEvents (bs : List Byte) (s : State) : AddsEvents false s (takeBytes bs s) := by
  induction bs generalizing s with
  | nil => exact .none rfl rfl
  | cons b bs ih =>
    have hbyte : AddsEvents false s ((s.setCursor (s.cursor + 1)).emit (.srcByte b)) := .one (.srcByte b) rfl rfl
    exact (hbyte.trans (addsEvents_readRel.sameButDec (sameButDec_decTake (.byte b) _))).trans (ih _)

theorem exec_ofDec_addsEvents {i : Instr} {s t : State} (hi : RunsOnDec i) (h : exec i s = .next t) :
    AddsEvents false s t := by
  obtain rfl | hi := hi
  · change execDecode s = .next t at h
    unfold execDecode at h
    split at h <;> cases h
    · exact ((decAccept_addsEvents s).trans (addsEvents_readRel.readAll _)).trans (deliverDec_addsEvents _)
    · exact .none rfl rfl
  · rw [exec_wire s hi, takeWire] at h
    split at h <;> cases h
    · exact (takeBytes_addsEvents _ s).trans (deliverDec_addsEvents _)
    · exact .none rfl rfl

/-! ### Turns -/

theorem runOp_encCmd_addsEvents {s t : State} (h : runOp .encCmd s = .next t) : AddsEvents true s t := by
  rw [runOp_encCmd] at h
  split at h
  · cases h; exact .none rfl rfl
  · rename_i w ws hc
    split at h
    · exact execEncode_addsEvents (s := s.setEncCmds ws) h
    · cases h; exact .none rfl rfl

theorem past_addsEvents (s : State) (ch : Channel) (n : Nat) : AddsEvents false s (s.past ch n) := by
  cases ch <;> exact .none rfl rfl

theorem runOp_ofDec_addsEvents {ch : Channel} {s t : State} (hch : ch ≠ .encCmd) (h : runOp ch s = .next t) :
    AddsEvents false s t := by
  unfold runOp at h
  split at h
  · rename_i i u hf
    have hexec := exec_ofDec_addsEvents (fetch_ofDec hch hf) h
    obtain ⟨n, rfl⟩ := fetch_next hf
    exact (past_addsEvents s ch n).trans hexec
  · cases h
    cases ch
    case encCmd => exact absurd rfl hch
    case decCmd => exact .none rfl rfl
    case src => exact addsEvents_readRel.srcStep s

/-- ENC's turns add events of ENC's channels alone, and every other turn adds none of them. -/
theorem turn_addsEvents {a : Turn} {s t : State} (h : turn a s = .next t) : AddsEvents a.ofEnc s t := by
  cases a <;> simp only [turn, Host.Outcome.next.injEq] at h
  case op ch =>
    cases ch
    case encCmd => exact runOp_encCmd_addsEvents h
    all_goals exact runOp_ofDec_addsEvents (by decide) h
  case encCmd => exact encCmdStep_addsEvents h
  case encOwn => exact encOwn_addsEvents h
  case encRsp => exact h ▸ deliverEnc_addsEvents s
  case decCmd => exact h ▸ decCmdStep_addsEvents s
  case srcEvent => exact h ▸ addsEvents_readRel.srcStep s
  case decRsp => exact h ▸ deliverDec_addsEvents s
  case reset => exact h ▸ .one .reset rfl rfl
  case host b =>
    obtain ⟨-, -, hcur, htr, -⟩ := hostStep_frame h
    exact .none htr hcur

/-- Settles O52, turn by turn: a byte read adds its event and advances the cursor, and nothing else does either. -/
theorem cursorCountsBytes : Obligations.CursorCountsBytes := by
  intro s t h
  obtain ⟨b, es, htr, hcur, -⟩ : ∃ b, AddsEvents b s t := by
    obtain ⟨-, heq⟩ | ⟨a, q, -, heq⟩ := step_cases s <;> rw [heq] at h
    · exact ⟨true, encOwn_addsEvents h⟩
    · exact ⟨a.ofEnc, turn_addsEvents (s := s.setSched q) h⟩
  exact ⟨es, htr, hcur⟩

end Sys2Proof.Machine
end

section
/-! Turns of the two units commute (20_memory R65, 60_exceptions R203): each acts on its own side of the state. -/

namespace Sys2Proof.Machine

/-- What a turn of ENC answers is ENC's side of its answer with no event yet, in the surroundings it began in. -/
theorem turn_eq_encOnto {a : Turn} {s t : State} (ha : a.ofEnc = true) (h : turn a s = .next t) :
    ∃ u, turn a { s with trace := [] } = .next u ∧ t = s.encOnto u := by
  have hself : s.encOnto { s with trace := [] } = s := encOnto_self rfl rfl rfl rfl
  rw [← hself, encOnto_turn _ _ ha] at h
  obtain ⟨u, hu, rfl⟩ := mapNext_eq_next h
  exact ⟨u, hu, rfl⟩

/-- A turn of DEC after a move of ENC: DEC's side is as before the move. -/
theorem turn_ofDec_after {b : Turn} {s x y : State} (hb : b.ofDec = true)
    (hy : turn b { s with trace := [] } = .next y) :
    turn b (s.encOnto x) = .next ((s.encOnto x).decOnto y) := by
  obtain ⟨y', hy', h⟩ := turn_ofDec (s.encOnto x) { s with trace := [] } hb
  obtain rfl : y = y' := by simpa [hy] using hy'
  rwa [show (s.encOnto x).decOnto { s with trace := [] } = s.encOnto x from decOnto_self rfl rfl rfl rfl] at h

/-- A turn of ENC after a move of DEC: ENC's side is as before the move. -/
theorem turn_ofEnc_after {a : Turn} {s x y : State} (ha : a.ofEnc = true)
    (hx : turn a { s with trace := [] } = .next x) :
    turn a (s.decOnto y) = .next ((s.decOnto y).encOnto x) := by
  have h := encOnto_turn (s.decOnto y) { s with trace := [] } ha
  rwa [show (s.decOnto y).encOnto { s with trace := [] } = s.decOnto y from encOnto_self rfl rfl rfl rfl, hx] at h

theorem Turn.ofEnc_of_ofDec {b : Turn} (hb : b.ofDec = true) : b.ofEnc = false := by
  cases b
  case op ch => revert hb; cases ch <;> decide
  case host act => rfl
  all_goals revert hb; decide

/-- The events of a turn that begins with none. -/
theorem turn_events_ofEnc {a : Turn} {s x : State} (h : turn a { s with trace := [] } = .next x) :
    ∀ e ∈ x.trace, e.ofEnc = a.ofEnc := by
  obtain ⟨es, htr, -, hes⟩ := turn_addsEvents h
  rwa [htr]

/-- Of two units' events in either order, a choice that takes all of one unit's and none of the other's is the same. -/
theorem filter_swap {p : Event → Bool} {tr es fs : List Event} (h : (∀ e ∈ es, p e = false) ∨ ∀ e ∈ fs, p e = false) :
    (tr ++ fs ++ es).filter p = (tr ++ es ++ fs).filter p := by
  have hnil {l : List Event} (hl : ∀ e ∈ l, p e = false) : l.filter p = [] :=
    List.filter_eq_nil_iff.2 (fun e he => by simp [hl e he])
  obtain h | h := h <;> simp [List.filter_append, hnil h]

/-- Settles O57: in either order the turns end with ENC's side of ENC's answer and DEC's side of DEC's, and the events
of one unit's turn are none of the other's. -/
theorem unitsCommute : Obligations.UnitsCommute := by
  intro s t a b ha hb h
  obtain ⟨m, hm, ht⟩ := andThen_eq_next.1 h
  obtain ⟨x, hx, rfl⟩ := turn_eq_encOnto ha hm
  obtain ⟨n, hn, -⟩ := turn_ofDec s s hb
  obtain ⟨y, hy, rfl⟩ := turn_eq_decOnto hb hn
  obtain rfl : (s.encOnto x).decOnto y = t := by simpa [turn_ofDec_after hb hy] using ht
  have hxs : ∀ e ∈ x.trace, e.ofEnc = true := ha ▸ turn_events_ofEnc hx
  have hys : ∀ e ∈ y.trace, e.ofEnc = false := Turn.ofEnc_of_ofDec hb ▸ turn_events_ofEnc hy
  refine ⟨(s.decOnto y).encOnto x, ?_, rfl, ?_, ?_⟩
  · rw [hn, andThen_next, turn_ofEnc_after ha hx]
  · exact filter_swap (tr := s.trace) (.inr hys)
  · exact filter_swap (tr := s.trace) (.inl (fun e he => by rw [hxs e he]; rfl))

end Sys2Proof.Machine
end

section
/-! The first byte tells the length of an encoding (30_encoding R72, R74). -/

namespace Sys2Proof.Machine

/-- The row of a first byte is the row of its length (30_encoding R74). -/
theorem rowOf_map_len : ∀ b : Byte, (rowOf b).map WireRow.len = some (lenOfFirst b) := by decide

theorem lenOfFirst_range : ∀ b : Byte, 1 ≤ lenOfFirst b ∧ lenOfFirst b ≤ 9 := by decide

theorem lenOfFirst_eq_nine_iff : ∀ b : Byte, lenOfFirst b = 9 ↔ b = Config.escMark := by decide

/-- Below a short form's length its first byte holds one bit, the topmost (30_encoding R71). -/
theorem lenOfFirst_low_bits : ∀ b : Byte, lenOfFirst b ≠ 9 →
    ∀ i < lenOfFirst b, b.getLsbD i = decide (i = lenOfFirst b - 1) := by decide

theorem lenOfFirst_eq_of_rowOf {b : Byte} {n : Nat} (h : (rowOf b).map WireRow.len = some n) : lenOfFirst b = n :=
  Option.some.inj ((rowOf_map_len b).symm.trans h)

end Sys2Proof.Machine
end

section
/-! A word as bytes, least significant first, and bytes as a word (42_shifter_comparator R174, R175). -/

namespace Sys2Proof.Machine

/-- The low `n` bytes of a word, least significant first: what both wire forms are made of (30_encoding R71, R73). -/
def wordBytes (n : Nat) (w : Word) : List Byte := (List.range n).map (byteOf w)

theorem shortBytes_eq (len : Nat) (v : Word) : shortBytes len v = wordBytes len (wireWord len v) := rfl

theorem escBytes_eq (v : Word) : escBytes v = Config.escMark :: wordBytes 8 v := rfl

@[simp] theorem length_wordBytes (n : Nat) (w : Word) : (wordBytes n w).length = n := by simp [wordBytes]

@[simp] theorem getElem_wordBytes {n j : Nat} (w : Word) (h : j < (wordBytes n w).length) :
    (wordBytes n w)[j] = byteOf w j := by simp [wordBytes]

theorem getLsbD_byteOf (w : Word) (j : Nat) {i : Nat} (h : i < 8) : (byteOf w j).getLsbD i = w.getLsbD (8 * j + i) := by
  simp [byteOf, h]

/-- Bit `i` of the assembled word is bit `i % 8` of byte `i / 8`. -/
theorem getLsbD_leAsm (bs : List Byte) {i : Nat} (h : i < 64) :
    (leAsm bs).getLsbD i = (bs[i / 8]?.getD 0).getLsbD (i % 8) := by
  induction bs generalizing i with
  | nil => simp [leAsm]
  | cons b bs ih =>
    rw [leAsm, shl64, BitVec.getLsbD_or, BitVec.getLsbD_setWidth, BitVec.getLsbD_shiftLeft]
    by_cases h8 : i < 8
    · simp [h, h8, Nat.div_eq_of_lt h8, Nat.mod_eq_of_lt h8]
    · obtain ⟨k, rfl⟩ : ∃ k, i = k + 8 := ⟨i - 8, by omega⟩
      have hk : (k + 8) / 8 = k / 8 + 1 := by omega
      simp [h, ih (show k < 64 by omega), hk]

theorem byteOf_leAsm {bs : List Byte} {j : Nat} (hj : j < bs.length) (h8 : j < 8) : byteOf (leAsm bs) j = bs[j] := by
  refine BitVec.eq_of_getLsbD_eq fun i hi => ?_
  rw [getLsbD_byteOf _ _ hi, getLsbD_leAsm _ (by omega), show (8 * j + i) / 8 = j by omega,
    show (8 * j + i) % 8 = i by omega, List.getElem?_eq_getElem hj, Option.getD_some]

/-- Up to eight bytes come back from the word they make. -/
theorem wordBytes_leAsm {bs : List Byte} (h : bs.length ≤ 8) : wordBytes bs.length (leAsm bs) = bs :=
  List.ext_getElem (length_wordBytes _ _) fun j _ hj => by
    rw [getElem_wordBytes, byteOf_leAsm hj (by omega)]

/-- A word that lies in its low `n` bytes comes back from them. -/
theorem leAsm_wordBytes {n : Nat} {w : Word} (h : w.toNat < 2 ^ (8 * n)) : leAsm (wordBytes n w) = w := by
  refine BitVec.eq_of_getLsbD_eq fun i hi => ?_
  rw [getLsbD_leAsm _ hi]
  by_cases hn : i / 8 < n
  · rw [List.getElem?_eq_getElem (by simpa using hn), Option.getD_some, getElem_wordBytes,
      getLsbD_byteOf _ _ (by omega), show 8 * (i / 8) + i % 8 = i by omega]
  · have hz : w.getLsbD i = false :=
      Nat.testBit_lt_two_pow (h.trans_le (Nat.pow_le_pow_right (by decide) (by omega)))
    simp [hz, List.getElem?_eq_none (show (wordBytes n w).length ≤ i / 8 by simpa using hn)]

theorem leAsm_toNat_lt (bs : List Byte) : (leAsm bs).toNat < 2 ^ (8 * bs.length) := by
  refine Nat.lt_pow_two_of_testBit _ fun i hi => ?_
  change (leAsm bs).getLsbD i = false
  by_cases h64 : i < 64
  · rw [getLsbD_leAsm bs h64, List.getElem?_eq_none (by omega)]
    simp
  · exact BitVec.getLsbD_of_ge _ _ (by omega)

/-- Byte `j` of a word as a number. -/
theorem byteOf_toNat (w : Word) (j : Nat) : (byteOf w j).toNat = w.toNat / 2 ^ (8 * j) % 256 := by
  simp [byteOf, Nat.shiftRight_eq_div_pow]

end Sys2Proof.Machine
end

section
/-! The wire forms by length and payload (30_encoding R71, R73, R79). -/

namespace Sys2Proof.Machine

/-! ### The word of a short form -/

theorem wireWord_toNat {len : Nat} {v : Word} (h1 : 1 ≤ len) (h8 : len ≤ 8) (hv : v.toNat < 2 ^ (7 * len)) :
    (wireWord len v).toNat = v.toNat * 2 ^ len + 2 ^ (len - 1) := by
  have hlt : v.toNat * 2 ^ len < 2 ^ 64 := calc
    v.toNat * 2 ^ len < 2 ^ (7 * len) * 2 ^ len := Nat.mul_lt_mul_of_pos_right hv (by positivity)
    _ = 2 ^ (8 * len) := by rw [← Nat.pow_add]; congr 1; omega
    _ ≤ 2 ^ 64 := Nat.pow_le_pow_right (by decide) (by omega)
  have hm : 2 ^ (len - 1) < 2 ^ len := Nat.pow_lt_pow_right (by decide) (by omega)
  have hm' : 2 ^ (len - 1) < 2 ^ 64 := Nat.pow_lt_pow_right (by decide) (by omega)
  rw [wireWord, BitVec.toNat_or, BitVec.toNat_shiftLeft, BitVec.toNat_shiftLeft, show (1 : Word).toNat = 1 from rfl,
    Nat.one_shiftLeft, Nat.mod_eq_of_lt hm', Nat.shiftLeft_eq, Nat.mod_eq_of_lt hlt, ← Nat.shiftLeft_eq,
    Nat.shiftLeft_add_eq_or_of_lt hm]

theorem wireWord_toNat_lt {len : Nat} {v : Word} (h1 : 1 ≤ len) (h8 : len ≤ 8) (hv : v.toNat < 2 ^ (7 * len)) :
    (wireWord len v).toNat < 2 ^ (8 * len) := by
  have hm : 2 ^ (len - 1) < 2 ^ len := Nat.pow_lt_pow_right (by decide) (by omega)
  calc (wireWord len v).toNat < (v.toNat + 1) * 2 ^ len := by rw [wireWord_toNat h1 h8 hv]; linarith
    _ ≤ 2 ^ (7 * len) * 2 ^ len := Nat.mul_le_mul_right _ hv
    _ = 2 ^ (8 * len) := by rw [← Nat.pow_add]; congr 1; omega

/-- Shifting the marker out leaves the payload. -/
theorem shr64_wireWord {len : Nat} {v : Word} (h1 : 1 ≤ len) (h8 : len ≤ 8) (hv : v.toNat < 2 ^ (7 * len)) :
    shr64 (wireWord len v) len = v := by
  have hm : 2 ^ (len - 1) < 2 ^ len := Nat.pow_lt_pow_right (by decide) (by omega)
  refine BitVec.eq_of_toNat_eq ?_
  rw [shr64, BitVec.toNat_ushiftRight, wireWord_toNat h1 h8 hv, Nat.shiftRight_eq_div_pow, Nat.mul_comm,
    Nat.mul_add_div (by positivity), Nat.div_eq_of_lt hm, Nat.add_zero]

/-- A word with the marker of length `len` is the word of its payload. -/
theorem wireWord_shr64 {len : Nat} {w : Word} (h1 : 1 ≤ len) (h8 : len ≤ 8)
    (hw : ∀ i < len, w.getLsbD i = decide (i = len - 1)) : wireWord len (shr64 w len) = w := by
  refine BitVec.eq_of_getLsbD_eq fun i hi => ?_
  by_cases hlen : i < len
  · have hlow := Laws.FirstByte.low_bits len (shr64 w len) i h8 hlen
    rw [getLsbD_byteOf _ _ (by omega), Nat.mul_zero, Nat.zero_add] at hlow
    rw [hlow, hw i hlen]
  · have hne : len - 1 ≠ i := by omega
    have hi' : len + (i - len) = i := by omega
    have hmark : ((1 : Word) <<< (len - 1)).getLsbD i = false :=
      (congrArg (BitVec.getLsbD · i) (BitVec.twoPow_eq 64 (len - 1)).symm).trans (by simp [BitVec.getLsbD_twoPow, hne])
    rw [wireWord, BitVec.getLsbD_or, hmark, BitVec.getLsbD_shiftLeft, shr64, BitVec.getLsbD_ushiftRight, hi']
    simp [hi, hlen]

/-! ### A form's bytes and payload -/

/-- The bytes of the wire form of a length (30_encoding R71, R73). -/
def formBytes (len : Nat) (v : Word) : List Byte := if len = 9 then escBytes v else shortBytes len v

/-- The payload fits the wire form of a length (30_encoding R71, R73). -/
def fitsForm (len : Nat) (v : Word) : Bool := len == 9 || fitsShort len v

theorem canonicalBytes_eq (v : Word) : canonicalBytes v = formBytes (encLen v) v := rfl

theorem formBytes_nine (v : Word) : formBytes 9 v = escBytes v := rfl

theorem formBytes_short {len : Nat} (v : Word) (h8 : len ≤ 8) : formBytes len v = shortBytes len v :=
  if_neg (by omega)

theorem fitsForm_short {len : Nat} {v : Word} (h8 : len ≤ 8) : fitsForm len v = true ↔ v.toNat < 2 ^ (7 * len) := by
  simp [fitsForm, fitsShort, show len ≠ 9 by omega]

@[simp] theorem length_formBytes (len : Nat) (v : Word) : (formBytes len v).length = len := by
  unfold formBytes
  split <;> simp [escBytes, shortBytes, *]

/-- The first byte of a form tells the form's length (30_encoding R74). -/
theorem formBytes_eq_cons {len : Nat} (v : Word) (h1 : 1 ≤ len) (h9 : len ≤ 9) :
    ∃ b bs, formBytes len v = b :: bs ∧ lenOfFirst b = len := by
  obtain rfl | h8 : len = 9 ∨ len ≤ 8 := by omega
  · exact ⟨_, _, rfl, rfl⟩
  · obtain ⟨-, hrow⟩ := Laws.FirstByte.short len v h1 h8
    rw [formBytes_short v h8]
    cases hbs : shortBytes len v with
    | nil => simp [hbs] at hrow
    | cons b bs =>
      rw [hbs] at hrow
      exact ⟨b, bs, rfl, lenOfFirst_eq_of_rowOf hrow⟩

/-- The payload of a form's bytes is the one they were made from (30_encoding R79). -/
theorem payloadOf_formBytes {len : Nat} {v : Word} (h1 : 1 ≤ len) (h9 : len ≤ 9) (hv : fitsForm len v = true) :
    payloadOf len (formBytes len v) = v := by
  obtain rfl | h8 : len = 9 ∨ len ≤ 8 := by omega
  · exact leAsm_wordBytes v.isLt
  · have hfit := (fitsForm_short h8).1 hv
    rw [formBytes_short v h8, payloadOf, if_neg (by omega), shortBytes_eq,
      leAsm_wordBytes (wireWord_toNat_lt h1 h8 hfit), shr64_wireWord h1 h8 hfit]

/-- Bytes as many as their first one tells have a payload that fits, and are the bytes of the form of that payload
(30_encoding R71, R79). -/
theorem formBytes_payloadOf {b : Byte} {bs : List Byte} (h : (b :: bs).length = lenOfFirst b) :
    fitsForm (lenOfFirst b) (payloadOf (lenOfFirst b) (b :: bs)) = true ∧
      formBytes (lenOfFirst b) (payloadOf (lenOfFirst b) (b :: bs)) = b :: bs := by
  obtain ⟨h1, h9⟩ := lenOfFirst_range b
  by_cases hesc : lenOfFirst b = 9
  · have hlen : bs.length = 8 := by simpa [hesc] using h
    rw [hesc]
    refine ⟨rfl, ?_⟩
    have hbytes := wordBytes_leAsm hlen.le
    rw [hlen] at hbytes
    rw [formBytes_nine, escBytes_eq, ← (lenOfFirst_eq_nine_iff b).1 hesc]
    exact congrArg (b :: ·) hbytes
  · have h8 : lenOfFirst b ≤ 8 := by omega
    have hmark : ∀ i < lenOfFirst b, (leAsm (b :: bs)).getLsbD i = decide (i = lenOfFirst b - 1) := fun i hi => by
      rw [← lenOfFirst_low_bits b hesc i hi, getLsbD_leAsm _ (by omega), Nat.div_eq_of_lt (by omega),
        Nat.mod_eq_of_lt (by omega)]
      rfl
    rw [payloadOf, if_neg hesc]
    constructor
    · have hlt := leAsm_toNat_lt (b :: bs)
      rw [fitsForm_short h8, shr64, BitVec.toNat_ushiftRight, Nat.shiftRight_eq_div_pow,
        Nat.div_lt_iff_lt_mul (by positivity), ← Nat.pow_add]
      rwa [h, show 8 * lenOfFirst b = 7 * lenOfFirst b + lenOfFirst b by omega] at hlt
    · rw [formBytes_short _ h8, shortBytes_eq, wireWord_shr64 h1 h8 hmark, ← h]
      exact wordBytes_leAsm (by omega)

/-! ### The instruction of a length -/

/-- What the wire instruction of a length and payload is: its bytes, when it is well-formed, when canonical. -/
theorem instrOfLen_spec {len : Nat} {v : Word} {i : Instr} (h : instrOfLen len v = some i) :
    1 ≤ len ∧ len ≤ 9 ∧ encode i = .wire (formBytes len v) ∧ i.wellFormed = fitsForm len v ∧
      canonical i = decide (encLen v = len) := by
  unfold instrOfLen at h
  split at h <;> cases h <;> exact ⟨by decide, by decide, rfl, rfl, rfl⟩

theorem exists_instrOfLen {len : Nat} (v : Word) (h1 : 1 ≤ len) (h9 : len ≤ 9) :
    ∃ i, instrOfLen len v = some i := by
  interval_cases len <;> exact ⟨_, rfl⟩

theorem isWire_iff {i : Instr} : isWire i = true ↔ ∃ len v, instrOfLen len v = some i := by
  refine ⟨fun h => ?_, fun ⟨_, _, h⟩ => isWire_of_instrOfLen h⟩
  cases i with
  | vi1 v => exact ⟨1, v, rfl⟩
  | vi2 v => exact ⟨2, v, rfl⟩
  | vi3 v => exact ⟨3, v, rfl⟩
  | vi4 v => exact ⟨4, v, rfl⟩
  | vi5 v => exact ⟨5, v, rfl⟩
  | vi6 v => exact ⟨6, v, rfl⟩
  | vi7 v => exact ⟨7, v, rfl⟩
  | vi8 v => exact ⟨8, v, rfl⟩
  | viesc v => exact ⟨9, v, rfl⟩
  | encode v c => cases h
  | decode => cases h

/-- An instruction has one length and one payload. -/
theorem instrOfLen_inj {len len' : Nat} {v v' : Word} {i : Instr} (h : instrOfLen len v = some i)
    (h' : instrOfLen len' v' = some i) : v = v' := by
  unfold instrOfLen at h h'
  split at h <;> cases h <;> split at h' <;> cases h' <;> rfl

end Sys2Proof.Machine
end

section
/-! The decoder on bytes of SRC (30_encoding R78, R79, R85), and its round trips with the encoder (R83, R86). -/

namespace Sys2Proof.Machine

/-! ### What the decoder answers -/

theorem decodeWire_cons (b : Byte) (bs : List Byte) :
    decodeWire (b :: bs) =
      if (b :: bs).length < lenOfFirst b then .error (.truncated (lenOfFirst b) (b :: bs).length)
      else (instrOfLen (lenOfFirst b) (payloadOf (lenOfFirst b) ((b :: bs).take (lenOfFirst b)))).elim
        (.error .noRow) (fun i => .ok (i, (b :: bs).drop (lenOfFirst b))) := by
  obtain ⟨r, hr, hlen⟩ := Option.map_eq_some_iff.1 (rowOf_map_len b)
  simp only [decodeWire, ← hlen, hr]
  cases instrOfLen r.len (payloadOf r.len ((b :: bs).take r.len)) <;> rfl

/-- Bytes as many as their first one tells decode to the form of their payload, whatever follows. -/
theorem decodeWire_append {b : Byte} {pre : List Byte} {i : Instr} (rest : List Byte)
    (hlen : (b :: pre).length = lenOfFirst b)
    (hi : instrOfLen (lenOfFirst b) (payloadOf (lenOfFirst b) (b :: pre)) = some i) :
    decodeWire (b :: pre ++ rest) = .ok (i, rest) := by
  rw [List.cons_append, decodeWire_cons, ← List.cons_append, List.take_left' hlen, hi, List.drop_left' hlen]
  exact if_neg (by rw [List.length_append]; omega)

/-- What decodes begins with as many bytes as its first one tells, and what follows them is left over. -/
theorem eq_append_of_decodeWire {bs rest : List Byte} {i : Instr} (h : decodeWire bs = .ok (i, rest)) :
    ∃ b pre, bs = b :: pre ++ rest ∧ (b :: pre).length = lenOfFirst b ∧
      instrOfLen (lenOfFirst b) (payloadOf (lenOfFirst b) (b :: pre)) = some i := by
  cases bs with
  | nil => cases h
  | cons b bs =>
    obtain ⟨n, hn⟩ : ∃ n, lenOfFirst b = n + 1 := ⟨lenOfFirst b - 1, by have := lenOfFirst_range b; omega⟩
    rw [decodeWire_cons] at h
    split at h
    · cases h
    · rename_i hlen
      rcases hi : instrOfLen (lenOfFirst b) (payloadOf (lenOfFirst b) ((b :: bs).take (lenOfFirst b))) with _ | j <;>
        rw [hi] at h <;> cases h
      rw [hn, List.length_cons] at hlen
      refine ⟨b, bs.take n, by simp [hn], ?_, by simpa [hn] using hi⟩
      rw [List.length_cons, List.length_take, hn]
      omega

/-- Bytes decode to an instruction exactly when it is a well-formed wire form and they begin with its bytes (30_encoding
R83, R86). -/
theorem decodeWire_eq_ok {bs rest : List Byte} {i : Instr} : decodeWire bs = .ok (i, rest) ↔
    isWire i = true ∧ i.wellFormed = true ∧ (encode i).wireBytes ++ rest = bs := by
  constructor
  · intro h
    obtain ⟨b, pre, rfl, hlen, hi⟩ := eq_append_of_decodeWire h
    obtain ⟨-, -, henc, hwf, -⟩ := instrOfLen_spec hi
    obtain ⟨hfits, hbytes⟩ := formBytes_payloadOf hlen
    exact ⟨isWire_of_instrOfLen hi, hwf.trans hfits, by rw [henc]; exact congrArg (· ++ rest) hbytes⟩
  · rintro ⟨hwire, hwf, rfl⟩
    obtain ⟨len, v, hi⟩ := isWire_iff.1 hwire
    obtain ⟨h1, h9, henc, hfits, -⟩ := instrOfLen_spec hi
    obtain ⟨b, pre, hbytes, hb⟩ := formBytes_eq_cons v h1 h9
    have hpay := payloadOf_formBytes h1 h9 (hfits.symm.trans hwf)
    rw [henc, Packet.wireBytes, hbytes]
    rw [hbytes] at hpay
    exact decodeWire_append rest (by rw [← hbytes, length_formBytes, hb]) (by rw [hb, hpay, hi])

/-! ### The command words -/

theorem encWordValue_encodeEncWord (v : Word) (c : Nib) : encWordValue (encodeEncWord v c) = v :=
  BitVec.extractLsb'_append_eq_right

theorem encWordCap_encodeEncWord (v : Word) (c : Nib) : encWordCap (encodeEncWord v c) = c :=
  BitVec.extractLsb'_append_eq_left

theorem encodeEncWord_fields (w : BitVec 68) : encodeEncWord (encWordValue w) (encWordCap w) = w :=
  (BitVec.extractLsb'_append_extractLsb'_eq_extractLsb' rfl).trans (BitVec.extractLsb'_eq_self)

/-! ### The statements -/

/-- Settles O4: a well-formed wire form's bytes are what decodes to it, and a command's word has its two fields. -/
theorem decodeOfEncode : Obligations.DecodeOfEncode := by
  intro i hwf
  have hround (hi : isWire i = true) (rest : List Byte) : decodeWire ((encode i).wireBytes ++ rest) = .ok (i, rest) :=
    decodeWire_eq_ok.2 ⟨hi, hwf, rfl⟩
  refine ⟨?_, hround⟩
  cases hi : isWire i with
  | true =>
    obtain ⟨len, v, hlen⟩ := isWire_iff.1 hi
    obtain ⟨-, -, henc, -⟩ := instrOfLen_spec hlen
    have h := hround hi []
    rw [List.append_nil, henc] at h
    rw [henc]
    exact h
  | false =>
    cases i with
    | encode v c =>
      exact congrArg (fun j => Except.ok (j, []))
        (congrArg₂ Instr.encode (encWordValue_encodeEncWord v c) (encWordCap_encodeEncWord v c))
    | decode => rfl
    | _ => cases hi

/-- Settles O5: the bytes of an instruction are all that decodes to it, and a command's word is its two fields. -/
theorem encodeOfDecode : Obligations.EncodeOfDecode :=
  ⟨fun _ _ _ => decodeWire_eq_ok.1, fun w => congrArg Packet.enc (encodeEncWord_fields w)⟩

/-- Settles O6: too few bytes are the decoder's first branch, and of enough bytes it takes those of the length. -/
theorem everyFirstByteSelectsAForm : Obligations.EveryFirstByteSelectsAForm := by
  constructor
  · intro b bs h
    rw [decodeWire_cons, if_pos h]
  · intro b bs h
    obtain ⟨h1, h9⟩ := lenOfFirst_range b
    obtain ⟨pre, hpre⟩ : ∃ pre, (b :: bs).take (lenOfFirst b) = b :: pre :=
      ⟨bs.take (lenOfFirst b - 1), List.take_cons h1⟩
    have hlen : (b :: pre).length = lenOfFirst b := by rw [← hpre, List.length_take]; omega
    obtain ⟨i, hi⟩ := exists_instrOfLen (payloadOf (lenOfFirst b) (b :: pre)) h1 h9
    rw [hpre]
    exact ⟨i, isWire_of_instrOfLen hi, fun tail => decodeWire_append tail hlen hi⟩

/-- Settles O2: the row's length is the first byte's, and what is left over follows that many bytes. -/
theorem firstByteGivesLength : Obligations.FirstByteGivesLength := by
  refine ⟨rowOf_map_len, fun b hb => ?_, fun b bs i rest h => ?_⟩
  · have := lenOfFirst_range b
    have := mt (lenOfFirst_eq_nine_iff b).1 hb
    omega
  · obtain ⟨c, pre, hbs, hlen, -⟩ := eq_append_of_decodeWire h
    obtain rfl : b = c := (List.cons.inj hbs).1
    rw [hbs, List.drop_left' hlen]

end Sys2Proof.Machine
end

section
/-! The nine rows, sample words, and the fields of the payload words (30_encoding R72, R80, R85). -/

namespace Sys2Proof.Machine

set_option maxRecDepth 8192 in
/-- Settles O1: the rows as listed, and each tested on the 256 first bytes. -/
theorem wireRowsPartition : Obligations.WireRowsPartition := ⟨rfl, by decide, by decide⟩

/-- Settles O3: the decoder run on the sample words. -/
theorem decodeSampleWords : Obligations.DecodeSampleWords := ⟨rfl, rfl, rfl, rfl, rfl, rfl⟩

/-! ### The fields of `dec_rsp` and of the SRC word -/

theorem decRspWord_fields (st : Status) (v : Word) (k n : Nib) :
    (decRspWord st v k n).extractLsb' 72 2 = st.code ∧ (decRspWord st v k n).extractLsb' 68 4 = k ∧
      (decRspWord st v k n).extractLsb' 64 4 = n ∧ (decRspWord st v k n).extractLsb' 0 64 = v := by
  refine ⟨?_, ?_, ?_, BitVec.extractLsb'_append_eq_right⟩
  · rw [decRspWord, BitVec.extractLsb'_append_eq_of_le (by decide), BitVec.extractLsb'_append_eq_of_le (by decide)]
    exact BitVec.extractLsb'_append_eq_left
  · rw [decRspWord, BitVec.extractLsb'_append_eq_of_le (by decide), BitVec.extractLsb'_append_eq_of_le (by decide)]
    exact BitVec.extractLsb'_append_eq_right
  · rw [decRspWord, BitVec.extractLsb'_append_eq_of_le (by decide)]
    exact BitVec.extractLsb'_append_eq_right

theorem srcWord_err_bit (e : BitVec 1) (k : Nib) (b : Byte) : (e ++ k ++ b).getLsbD 12 = e.getLsbD 0 := by
  rw [BitVec.getLsbD_append, BitVec.getLsbD_append]
  rfl

/-- The reader of a SRC word looks at `err`, and then at the one field that has a meaning (30_encoding R80). -/
theorem srcOfWord_fields (k : Nib) (b : Byte) :
    srcOfWord ((0 : BitVec 1) ++ k ++ b) = .byte b ∧ srcOfWord ((1 : BitVec 1) ++ k ++ b) = .err k := by
  constructor
  · rw [srcOfWord, srcWord_err_bit]
    exact congrArg SrcEvent.byte BitVec.extractLsb'_append_eq_right
  · rw [srcOfWord, srcWord_err_bit, BitVec.extractLsb'_append_eq_of_le (by decide)]
    exact congrArg SrcEvent.err BitVec.extractLsb'_append_eq_right

/-- The written SRC word says which event it is and carries its field. -/
theorem srcWord_fields (k : Nib) (b : Byte) :
    ((srcWord (.byte b)).getLsbD 12 = false ∧ (srcWord (.byte b)).extractLsb' 0 8 = b) ∧
      (srcWord (.err k)).getLsbD 12 = true ∧ (srcWord (.err k)).extractLsb' 8 4 = k := by
  refine ⟨⟨srcWord_err_bit 0 0 b, BitVec.extractLsb'_append_eq_right⟩, srcWord_err_bit 1 k 0, ?_⟩
  rw [srcWord, BitVec.extractLsb'_append_eq_of_le (by decide)]
  exact BitVec.extractLsb'_append_eq_right

/-- Settles O8: every payload word is its fields appended, and a part of an appended word is the field it covers. -/
theorem payloadWordFields : Obligations.PayloadWordFields := by
  refine ⟨fun v c => ?_, encodeEncWord_fields, fun i b => ?_, fun st n => ?_, fun b => (srcWord_fields 0 b).1,
    fun k => (srcWord_fields k 0).2, srcOfWord_fields, decRspWord_fields, rfl, rfl, rfl, rfl, rfl⟩
  · exact ⟨encWordValue_encodeEncWord v c, encWordCap_encodeEncWord v c, encWordCap_encodeEncWord v c,
      encWordValue_encodeEncWord v c⟩
  · exact ⟨BitVec.extractLsb'_append_eq_left, BitVec.extractLsb'_append_eq_right⟩
  · exact ⟨BitVec.extractLsb'_append_eq_left, BitVec.extractLsb'_append_eq_right⟩

end Sys2Proof.Machine
end

section
/-! Canonical encodings (30_encoding R75 to R77, R86). -/

namespace Sys2Proof.Machine

/-! ### The length a value owns -/

/-- A value lies below the top of its own length's range, and at or above the top of the length before (30_encoding
R75). -/
theorem encLen_range (v : Word) : (encLen v ≤ 8 → v.toNat < 2 ^ (7 * encLen v)) ∧
    (2 ≤ encLen v → 2 ^ (7 * (encLen v - 1)) ≤ v.toNat) := by
  unfold encLen
  split_ifs <;> omega

/-- A value owns at most `k` bytes exactly when it fits their `7k` bits (30_encoding R75). -/
theorem encLen_le_iff {v : Word} {k : Nat} (h1 : 1 ≤ k) (h8 : k ≤ 8) :
    encLen v ≤ k ↔ v.toNat < 2 ^ (7 * k) := by
  obtain ⟨hhi, hlo⟩ := encLen_range v
  constructor
  · intro h
    exact (hhi (h.trans h8)).trans_le (Nat.pow_le_pow_right (by decide) (by omega))
  · intro h
    by_contra hlt
    have hpow : 2 ^ (7 * k) ≤ 2 ^ (7 * (encLen v - 1)) := Nat.pow_le_pow_right (by decide) (by omega)
    exact absurd h (not_lt.2 (hpow.trans (hlo (by omega))))

theorem fitsForm_encLen (v : Word) : fitsForm (encLen v) v = true := by
  have h9 := encLen_le_nine v
  by_cases h : encLen v = 9
  · rw [h]; rfl
  · exact (fitsForm_short (by omega)).2 ((encLen_le_iff (encLen_pos v) (by omega)).1 le_rfl)

/-- A payload that fits a short form of at least two bytes is below the range the length owns exactly when it would fit
one byte less (30_encoding R76, R77). -/
theorem encLen_ne_iff {v : Word} {len : Nat} (h2 : 2 ≤ len) (h8 : len ≤ 8) (hv : v.toNat < 2 ^ (7 * len)) :
    encLen v ≠ len ↔ v.toNat < 2 ^ (7 * (len - 1)) := by
  have hle := (encLen_le_iff (by omega) h8).2 hv
  rw [← encLen_le_iff (by omega) (by omega)]
  omega

/-! ### The last byte of a form -/

theorem getLast?_wordBytes {n : Nat} (w : Word) (h : 1 ≤ n) : (wordBytes n w).getLast? = some (byteOf w (n - 1)) := by
  simp [wordBytes, List.getLast?_range, show n ≠ 0 by omega]

/-- The topmost of the bytes a word lies in. -/
theorem byteOf_last_toNat {w : Word} {n : Nat} (h1 : 1 ≤ n) (hw : w.toNat < 2 ^ (8 * n)) :
    (byteOf w (n - 1)).toNat = w.toNat / 2 ^ (8 * (n - 1)) := by
  rw [byteOf_toNat]
  refine Nat.mod_eq_of_lt ((Nat.div_lt_iff_lt_mul (by positivity)).2 ?_)
  rwa [show 256 = 2 ^ 8 from rfl, ← Nat.pow_add, show 8 + 8 * (n - 1) = 8 * n by omega]

theorem byte_le_one_iff : ∀ b : Byte, b = 0x00 ∨ b = 0x01 ↔ b.toNat < 2 := by decide

/-- The last byte of a short form is 0 or 1 exactly when the payload would fit one byte less (30_encoding R77). -/
theorem shortBytes_last_iff {v : Word} {len : Nat} (h1 : 1 ≤ len) (h8 : len ≤ 8) (hv : v.toNat < 2 ^ (7 * len)) :
    (shortBytes len v).getLast? = some 0x00 ∨ (shortBytes len v).getLast? = some 0x01 ↔
      v.toNat < 2 ^ (7 * (len - 1)) := by
  have hpay : v.toNat = (wireWord len v).toNat / 2 ^ len := by
    conv_lhs => rw [← shr64_wireWord h1 h8 hv, shr64, BitVec.toNat_ushiftRight, Nat.shiftRight_eq_div_pow]
  have hpow : 2 ^ (7 * (len - 1)) * 2 ^ len = 2 * 2 ^ (8 * (len - 1)) := by
    rw [← Nat.pow_succ', ← Nat.pow_add]
    congr 1
    omega
  rw [shortBytes_eq, getLast?_wordBytes _ h1, Option.some_inj, Option.some_inj, byte_le_one_iff,
    byteOf_last_toNat h1 (wireWord_toNat_lt h1 h8 hv), Nat.div_lt_iff_lt_mul (by positivity), ← hpow, hpay,
    Nat.div_lt_iff_lt_mul (by positivity)]

/-- The last byte of an escape form is 0 exactly when the payload is below 2^56 (30_encoding R77). -/
theorem escBytes_last_iff (v : Word) : (escBytes v).getLast? = some 0x00 ↔ v.toNat < 2 ^ 56 := by
  have hlast : (byteOf v 7).toNat = v.toNat / 2 ^ 56 := byteOf_last_toNat (n := 8) (by decide) v.isLt
  rw [escBytes_eq, List.getLast?_cons, getLast?_wordBytes _ (by decide), Option.getD_some, Option.some_inj,
    ← BitVec.toNat_inj]
  simp [hlast]

/-- Settles O7: a payload below the range its length owns is one that would fit one byte less, and the last byte shows
whether it would. -/
theorem illegalEncodingsByLastByte : Obligations.IllegalEncodingsByLastByte := by
  refine ⟨fun v hv => ?_, fun len v h2 h8 hv => ?_, fun v => ?_⟩
  · have hle := (encLen_le_iff (v := v) (k := 1) (by decide) (by decide)).2 (of_decide_eq_true hv)
    exact decide_eq_true (le_antisymm hle (encLen_pos v))
  · have hfit := of_decide_eq_true hv
    rw [encLen_ne_iff h2 h8 hfit, shortBytes_last_iff (by omega) h8 hfit]
  · have h9 := encLen_le_nine v
    have h8 := encLen_le_iff (v := v) (k := 8) (by decide) (by decide)
    rw [escBytes_last_iff, ← h8, canonical, decide_eq_false_iff_not]
    omega

/-! ### Canonical encodings decode -/

/-- The canonical encoding of a value decodes to the form of the value's own length, whatever follows. -/
theorem decodeWire_canonicalBytes (v : Word) : ∃ i, instrOfLen (encLen v) v = some i ∧
    ∀ rest, decodeWire (canonicalBytes v ++ rest) = .ok (i, rest) := by
  obtain ⟨i, hi⟩ := exists_instrOfLen v (encLen_pos v) (encLen_le_nine v)
  obtain ⟨-, -, henc, hwf, -⟩ := instrOfLen_spec hi
  refine ⟨i, hi, fun rest => decodeWire_eq_ok.2 ⟨isWire_of_instrOfLen hi, hwf.trans (fitsForm_encLen v), ?_⟩⟩
  rw [henc, Packet.wireBytes, canonicalBytes_eq]

theorem canonicalBytes_append_inj {v w : Word} {r₁ r₂ : List Byte}
    (h : canonicalBytes v ++ r₁ = canonicalBytes w ++ r₂) : v = w ∧ r₁ = r₂ := by
  obtain ⟨i, hi, hv⟩ := decodeWire_canonicalBytes v
  obtain ⟨j, hj, hw⟩ := decodeWire_canonicalBytes w
  have heq := (hv r₁).symm.trans ((congrArg decodeWire h).trans (hw r₂))
  simp only [Except.ok.injEq, Prod.mk.injEq] at heq
  obtain ⟨rfl, rfl⟩ := heq
  exact ⟨instrOfLen_inj hi hj, rfl⟩

/-- Settles O25: the decoder takes a canonical encoding off whatever follows it, and its answer has one value; bytes
that decode to a canonical form are the encoding of the form's payload. -/
theorem canonicalEncodingsArePrefixFree : Obligations.CanonicalEncodingsArePrefixFree := by
  refine ⟨fun v w r₁ r₂ => canonicalBytes_append_inj, fun bs i h hc => ?_⟩
  obtain ⟨hwire, -, rfl⟩ := decodeWire_eq_ok.1 h
  obtain ⟨len, v, hi⟩ := isWire_iff.1 hwire
  obtain ⟨-, -, henc, -, hcan⟩ := instrOfLen_spec hi
  obtain rfl : encLen v = len := of_decide_eq_true (hcan.symm.trans hc)
  have hbytes : canonicalBytes v = (encode i).wireBytes ++ [] := by
    rw [henc, List.append_nil, Packet.wireBytes, canonicalBytes_eq]
  exact ⟨v, hbytes, fun w hw => (canonicalBytes_append_inj (congrArg (· ++ []) (hw.trans hbytes.symm))).1⟩

end Sys2Proof.Machine
end

section
/-! What a turn for a whole operation runs (10_state R30; 30_encoding R81, R83, R85). -/

namespace Sys2Proof.Machine

/-- With a turn for a whole operation first, the step is the instruction fetched from the turn's channel. -/
theorem step_of_fetch {s t : State} {ch : Channel} {q : List Turn} {i : Instr} (hs : s.sched = .op ch :: q)
    (hf : fetch ch (s.setSched q) = some (i, t)) : step s = exec i t := by
  rw [step_of_sched hs, turn, runOp, hf]

theorem fetch_encCmd {s : State} {w : BitVec 68} {ws : List (BitVec 68)} (hp : s.enc.ph = .idle)
    (hw : s.encCmds = w :: ws) :
    fetch .encCmd s = some (.encode (encWordValue w) (encWordCap w), s.setEncCmds ws) := by
  simp [fetch, offered, decode, State.past, hp, hw]

theorem fetch_decCmd {s : State} {n : Nat} (hp : s.dec.ph = .idle) (hn : s.decCmds = n + 1) :
    fetch .decCmd s = some (.decode, s.setDecCmds n) := by
  simp [fetch, offered, decode, State.past, hp, hn]

theorem fetch_src {s : State} {i : Instr} {rest : List Byte} (hp : s.dec.ph = .head)
    (hd : decode (.wire (bytesAhead 9 s.src)) = .ok (i, rest)) :
    fetch .src s = some (i, s.setSrc (s.src.drop ((bytesAhead 9 s.src).length - rest.length))) := by
  rw [fetch, offered, if_pos hp]
  simp only [hd]
  rfl

/-- Settles O43: what is fetched from each channel is the decoded packet on offer and the state past it. -/
theorem stepRunsTheDecodedInstruction : Obligations.StepRunsTheDecodedInstruction := by
  refine fun s q => ⟨fun w ws hs hp hw => ⟨rfl, ?_⟩, fun n hs hp hn => ⟨rfl, ?_⟩, fun i rest hs hp hd => ?_⟩
  · exact step_of_fetch hs (fetch_encCmd (s := s.setSched q) hp hw)
  · exact step_of_fetch hs (fetch_decCmd (s := s.setSched q) hp hn)
  · exact step_of_fetch hs (fetch_src (s := s.setSched q) hp hd)

/-- The bytes ahead of a source begin with those it is known to begin with. -/
theorem bytesAhead_append {n : Nat} {bs : List Byte} (tail : List SrcEvent) (h : bs.length ≤ n) :
    bytesAhead n (bs.map SrcEvent.byte ++ tail) = bs ++ bytesAhead (n - bs.length) tail := by
  induction bs generalizing n with
  | nil => rfl
  | cons b bs ih =>
    obtain ⟨m, rfl⟩ : ∃ m, n = m + 1 := ⟨n - 1, by simp only [List.length_cons] at h; omega⟩
    have hm : bs.length ≤ m := by simpa using h
    simp [bytesAhead, ih hm]

/-- The bytes of a wire form are as many as the first of them tells (30_encoding R74). -/
theorem wireBytes_eq_cons {i : Instr} (h : isWire i = true) :
    ∃ b bs, (encode i).wireBytes = b :: bs ∧ (b :: bs).length = lenOfFirst b := by
  obtain ⟨len, v, hi⟩ := isWire_iff.1 h
  obtain ⟨h1, h9, henc, -⟩ := instrOfLen_spec hi
  obtain ⟨b, bs, hbytes, hb⟩ := formBytes_eq_cons v h1 h9
  exact ⟨b, bs, by rw [henc, ← hbytes]; rfl, by rw [← hbytes, length_formBytes, hb]⟩

theorem length_wireBytes_le {i : Instr} (h : isWire i = true) : (encode i).wireBytes.length ≤ 9 := by
  obtain ⟨b, bs, hbytes, hlen⟩ := wireBytes_eq_cons h
  rw [hbytes, hlen]
  exact (lenOfFirst_range b).2

/-- A source that begins with the bytes of a well-formed wire form has that form fetched from it. -/
theorem fetch_src_wireBytes {s : State} {i : Instr} {tail : List SrcEvent} (hp : s.dec.ph = .head)
    (hi : isWire i = true) (hwf : i.wellFormed = true)
    (hsrc : s.src = (encode i).wireBytes.map SrcEvent.byte ++ tail) : fetch .src s = some (i, s.setSrc tail) := by
  have hahead := bytesAhead_append tail (length_wireBytes_le hi)
  rw [← hsrc] at hahead
  have hd := decodeWire_eq_ok.2 ⟨hi, hwf, hahead.symm⟩
  rw [fetch_src hp hd, hahead, List.length_append, Nat.add_sub_cancel, hsrc]
  simp

/-- Settles O44: the form is what is fetched from such a source. -/
theorem stepRunsTheEncodedForm : Obligations.StepRunsTheEncodedForm :=
  fun s q _ _ hs hp hi hwf hsrc => step_of_fetch hs (fetch_src_wireBytes (s := s.setSched q) hp hi hwf hsrc)

end Sys2Proof.Machine
end

section
/-! DECODE of a source that begins with a whole encoding (41_decoder R130, R147): the reads of DECODE and the byte
events of the form lead DEC through the same registers. -/

namespace Sys2Proof.Machine

/-! ### Taking bytes one after another -/

theorem State.finish_setDec_ph (s : State) (d : Dec) (p : DPhase) :
    (s.setDec { d with ph := p }).finish = (s.setDec d).finish := by
  rw [State.finish_eq, State.finish_eq]
  rfl

/-- What a byte taken in leads to does not depend on the phase it was taken in, nor on the registers before it. -/
theorem State.takeUp_setDec_ph (s : State) (d d' : Dec) (p : DPhase) :
    (s.setDec d').takeUp { d with ph := p } = s.takeUp d := by
  unfold State.takeUp
  exact if_congr Iff.rfl (s.finish_setDec_ph d p) rfl

/-- The state after the source has delivered a byte, before DEC takes it in (20_memory R55). -/
def State.byteIn (s : State) (b : Byte) : State := (s.setCursor (s.cursor + 1)).emit (.srcByte b)

theorem memRead_byte {s : State} {b : Byte} {es : List SrcEvent} (h : s.src = .byte b :: es) :
    memRead s = some (.byte b, (s.setSrc es).byteIn b) := by
  simp [memRead, h, State.byteIn]

/-- Amid an encoding the next byte is taken in as D-CONT says (41_decoder R147). -/
theorem takeBytes_cons_takeUp {d : Dec} (s : State) (b : Byte) (bs : List Byte) (hne : d.cnt ≠ d.len) :
    takeBytes (b :: bs) (s.takeUp d) = takeBytes bs ((s.byteIn b).takeUp (d.more b)) := by
  rw [State.takeUp, if_neg hne, takeBytes]
  exact congrArg (takeBytes bs)
    ((decMore_eq b rfl).trans ((s.byteIn b).takeUp_setDec_ph (d.more b) { d with ph := .cont } .cont))

theorem takeBytes_cons_head {s : State} (b : Byte) (bs : List Byte) (hp : s.dec.ph = .head) :
    takeBytes (b :: bs) s = takeBytes bs ((s.byteIn b).takeUp (s.dec.first b)) := by
  have htake : decTake (.byte b) (s.byteIn b) = (s.byteIn b).takeUp (s.dec.first b) := by
    rw [← show (s.byteIn b).dec = s.dec from rfl, ← decFirst_eq]
    simp [decTake, State.byteIn, hp]
  exact congrArg (takeBytes bs) htake

/-- With one more byte taken in, one byte fewer is to come. -/
theorem Dec.more_remaining {d : Dec} {n : Nat} (b : Byte) (hn : (n + 1) + d.cnt.toNat = d.len.toNat) :
    n + (d.more b).cnt.toNat = (d.more b).len.toNat := by
  simp only [Dec.more, nib_succ_toNat (show d.cnt.toNat < d.len.toNat by omega)]
  omega

/-- The last byte of an encoding ends the operation: DEC has a response to give (41_decoder R147). -/
theorem takeBytes_takeUp_ph {d : Dec} {bs : List Byte} (s : State) (hn : bs.length + d.cnt.toNat = d.len.toNat) :
    (takeBytes bs (s.takeUp d)).dec.ph = .resp := by
  induction bs generalizing s d with
  | nil =>
    have hc : d.cnt = d.len := BitVec.eq_of_toNat_eq (by simpa using hn)
    rw [takeBytes, State.takeUp, if_pos hc]
    exact State.finish_phase _
  | cons b bs ih =>
    rw [List.length_cons] at hn
    rw [takeBytes_cons_takeUp s b bs (fun he => by simp [he] at hn)]
    exact ih (s.byteIn b) (Dec.more_remaining b hn)

/-- The continuation reads of DECODE, over the bytes an encoding still has, are those bytes taken one after another. -/
theorem readRest_eq_takeBytes {d : Dec} {bs : List Byte} {tail : List SrcEvent} {s : State} (hd : d.Reading)
    (hn : bs.length + d.cnt.toNat = d.len.toNat) (hsrc : s.src = bs.map SrcEvent.byte ++ tail) :
    readRest bs.length d.pos (s.setDec d) = takeBytes bs ((s.setSrc tail).takeUp d) := by
  induction bs generalizing s d with
  | nil =>
    have hc : d.cnt = d.len := BitVec.eq_of_toNat_eq (by simpa using hn)
    have hs : s.setSrc tail = s := congrArg s.setSrc hsrc.symm
    rw [takeBytes, State.takeUp, if_pos hc, hs]
    rfl
  | cons b bs ih =>
    rw [List.length_cons] at hn
    have hlt : d.cnt.toNat < d.len.toNat := by omega
    rw [takeBytes_cons_takeUp _ b bs (fun he => by simp [he] at hlt), List.length_cons, readRest,
      memRead_byte (s := s.setDec d) hsrc,
      ← Dec.more_pos b hd hlt]
    exact ih (s := (s.setSrc (bs.map SrcEvent.byte ++ tail)).byteIn b) (hd.more b hlt) (Dec.more_remaining b hn) rfl

/-! ### The whole encoding -/

/-- The first byte in, DEC has one byte and the length that byte tells (41_decoder R132, R135). -/
theorem Dec.first_cnt_len (b : Byte) (d : Dec) :
    (d.first b).cnt.toNat = 1 ∧ (d.first b).len.toNat = lenOfFirst b := by
  by_cases hb : b = Config.escMark
  · subst hb
    exact ⟨rfl, rfl⟩
  · rw [Dec.first, if_neg hb, lenOfFirst, if_neg (show b ≠ 0x00 from hb), Nat.add_comm]
    exact ⟨rfl, (one_add_ctz8_range b hb).1⟩

/-- DECODE of a source that has a first byte reads the rest of the encoding that byte begins (41_decoder R130). -/
theorem readAll_cons {s : State} {b : Byte} {es : List SrcEvent} (hsrc : s.src = .byte b :: es) :
    readAll s = readRest (lenOfFirst b - 1) (s.dec.first b).pos
      (((s.setSrc es).byteIn b).setDec (s.dec.first b)) := by
  rw [readAll, memRead_byte hsrc]
  by_cases hb : b = Config.escMark
  · subst hb
    rfl
  · rw [Dec.first, if_neg hb, lenOfFirst, if_neg (show b ≠ 0x00 from hb), Nat.add_sub_cancel_left]
    exact if_neg hb

/-- DECODE after its command, of a source that begins with a whole encoding, takes its bytes one after another. -/
theorem readAll_eq_takeBytes {s : State} {b : Byte} {bs : List Byte} {tail : List SrcEvent} (hp : s.dec.ph = .head)
    (hlen : (b :: bs).length = lenOfFirst b) (hsrc : s.src = (b :: bs).map SrcEvent.byte ++ tail) :
    readAll s = takeBytes (b :: bs) (s.setSrc tail) := by
  obtain ⟨hcnt, hfirst⟩ := Dec.first_cnt_len b s.dec
  rw [readAll_cons hsrc, takeBytes_cons_head (s := s.setSrc tail) b bs hp, ← hlen, List.length_cons,
    Nat.add_sub_cancel]
  exact readRest_eq_takeBytes (s := (s.setSrc (bs.map SrcEvent.byte ++ tail)).byteIn b) (Dec.first_reading b s.dec)
    (by rw [hcnt, hfirst, ← hlen, List.length_cons]) rfl

/-- A whole encoding, taken by a DEC waiting for it, brings the response (41_decoder R147). -/
theorem takeBytes_ph {s : State} {b : Byte} {bs : List Byte} (hp : s.dec.ph = .head)
    (hlen : (b :: bs).length = lenOfFirst b) : (takeBytes (b :: bs) s).dec.ph = .resp := by
  obtain ⟨hcnt, hfirst⟩ := Dec.first_cnt_len b s.dec
  rw [takeBytes_cons_head b bs hp]
  exact takeBytes_takeUp_ph _ (by rw [hcnt, hfirst, ← hlen, List.length_cons])

theorem decAccept_idle {s : State} (hi : s.dec.ph = .idle) : decAccept s =
    (s.emit .decCmd).setDec { s.dec with esc := false, len := 0, cnt := 0, acc := 0, ph := .head } := if_pos hi

/-- Settles O33: after the command DECODE and the form take the same bytes, and the last of them brings the response. -/
theorem decodeTakesOneEncoding : Obligations.DecodeTakesOneEncoding := by
  intro s i tail hi hwire _ hsrc
  obtain ⟨b, bs, hbytes, hlen⟩ := wireBytes_eq_cons hwire
  have hacc := decAccept_idle (s := s.setSrc tail) hi
  have hhead : (decAccept (s.setSrc tail)).dec.ph = .head := by rw [hacc]; rfl
  have hread : readAll (decAccept s) = takeBytes (encode i).wireBytes (decAccept (s.setSrc tail)) := by
    rw [hacc, decAccept_idle hi, hbytes]
    exact readAll_eq_takeBytes rfl hlen (hbytes ▸ hsrc)
  have hdecode : exec .decode s =
      .next (takeBytes (encode i).wireBytes (decAccept (s.setSrc tail))).deliverDec := by
    rw [← hread]
    exact if_pos hi
  refine ⟨?_, _, hdecode, ?_⟩
  · rw [hdecode, exec_wire _ hwire, takeWire, if_pos hhead]
  · have hresp : (takeBytes (encode i).wireBytes (decAccept (s.setSrc tail))).dec.ph = .resp := by
      rw [hbytes]
      exact takeBytes_ph hhead hlen
    obtain ⟨-, heq⟩ | ⟨hne, -⟩ := (takeBytes (encode i).wireBytes (decAccept (s.setSrc tail))).deliverDec_cases
    · rw [heq, takeBytes_eq, hacc]
      exact ⟨rfl, rfl, rfl⟩
    · exact absurd hresp hne

end Sys2Proof.Machine
end

section
/-! The closed form of the length (40_encoder R101, R102) and the short-form word (R103, R116). -/

namespace Sys2Proof.Machine

/-! ### The length by the highest set bit -/

/-- A value owns at most `k` bytes exactly when its highest set bit is among the lowest `7k` (40_encoder R102). -/
theorem encLen_le_iff_log2 {v : Word} {k : Nat} (h1 : 1 ≤ k) (h8 : k ≤ 8) :
    encLen v ≤ k ↔ v.toNat.log2 < 7 * k := by
  rw [encLen_le_iff h1 h8]
  by_cases h0 : v.toNat = 0
  · simp [h0, show 0 < k from h1]
  · exact (Nat.log2_lt h0).symm

theorem encLen_eq_log2 (v : Word) : encLen v = if v.toNat.log2 ≤ 55 then v.toNat.log2 / 7 + 1 else 9 := by
  have hpos := encLen_pos v
  have h9 := encLen_le_nine v
  split
  · rename_i hlog
    have hle := (encLen_le_iff_log2 (v := v) (k := v.toNat.log2 / 7 + 1) (by omega) (by omega)).2 (by omega)
    obtain h0 | h0 := Nat.eq_zero_or_pos (v.toNat.log2 / 7)
    · omega
    · have hgt := encLen_le_iff_log2 (v := v) (k := v.toNat.log2 / 7) h0 (by omega)
      omega
  · have h8 := encLen_le_iff_log2 (v := v) (k := 8) (by decide) le_rfl
    omega

/-- The range of values that own `k` bytes (30_encoding R75). -/
theorem encLen_eq_iff {v : Word} {k : Nat} (h2 : 2 ≤ k) (h8 : k ≤ 8) :
    encLen v = k ↔ 2 ^ (7 * (k - 1)) ≤ v.toNat ∧ v.toNat < 2 ^ (7 * k) := by
  rw [← encLen_le_iff (by omega) h8, ← not_lt, ← encLen_le_iff (by omega) (by omega)]
  omega

theorem encLen_eq_nine_iff {v : Word} : encLen v = 9 ↔ 2 ^ 56 ≤ v.toNat := by
  have h9 := encLen_le_nine v
  have h8 := encLen_le_iff (v := v) (k := 8) (by decide) le_rfl
  omega

/-- Settles O14: the ladder ends at the length of the value, and the length is read off the powers of 2^7 the value lies
between. -/
theorem ladderClosedForm : Obligations.LadderClosedForm := by
  intro v
  have hone : encLen v = 1 ↔ v.toNat < 2 ^ 7 := by
    rw [← encLen_le_iff (v := v) (k := 1) le_rfl (by decide)]
    have := encLen_pos v
    omega
  exact ⟨climb_eq v, encLen_eq_log2 v, hone, fun k h2 h8 => encLen_eq_iff h2 h8, encLen_eq_nine_iff⟩

/-! ### The short-form word -/

/-- The low bits of a short form's word: the marker above zeros (30_encoding R71). -/
theorem getLsbD_wireWord_low {len i : Nat} (v : Word) (h8 : len ≤ 8) (hi : i < len) :
    (wireWord len v).getLsbD i = decide (i = len - 1) := by
  have hlow := Laws.FirstByte.low_bits len v i h8 hi
  rwa [getLsbD_byteOf _ _ (by omega), Nat.mul_zero, Nat.zero_add] at hlow

theorem shortWord_encLen (v : Word) : shortWord v (BitVec.ofNat 4 (encLen v)) = wireWord (encLen v) v := by
  have hlen := encLen_nib_toNat v
  rw [shortWord_eq_wireWord v (hlen.symm ▸ encLen_pos v), hlen]

/-- Single shifts add up (42_shifter_comparator R170, R180). -/
theorem iterate_shl64_one (n : Nat) (x : Word) : (fun w => shl64 w 1)^[n] x = shl64 x n := by
  induction n with
  | zero => exact (BitVec.shiftLeft_zero x).symm
  | succ n ih => rw [Function.iterate_succ_apply', ih, shl64, shl64, shl64, ← BitVec.shiftLeft_add]

/-- Settles O15: R103 builds the word of R71, whose value and low bits are those of a payload that fits. -/
theorem shortWordLosesNothing : Obligations.ShortWordLosesNothing := by
  intro v h8
  have h1 := encLen_pos v
  have hv := (encLen_le_iff h1 h8).1 le_rfl
  have hiter : (fun w => shl64 w 1)^[encLen v - 1] (shl64 v 1 ||| 1) = shortWord v (BitVec.ofNat 4 (encLen v)) := by
    rw [iterate_shl64_one, shortWord, encLen_nib_toNat]
  refine ⟨?_, ?_, shortWord_encLen v, ?_, fun i hi => ?_, hiter⟩ <;> rw [shortWord_encLen]
  · exact wireWord_toNat h1 h8 hv
  · exact wireWord_toNat_lt h1 h8 hv
  · rw [getLsbD_wireWord_low v h8 (by omega)]
    exact decide_eq_true rfl
  · rw [getLsbD_wireWord_low v h8 (by omega)]
    exact decide_eq_false (by omega)

end Sys2Proof.Machine
end

section
/-! What the whole ENCODE leaves, reports and guarantees (40_encoder R100 to R113). -/

namespace Sys2Proof.Machine

theorem capOverstated_of_nine_le {n : Nat} (c : Nib) (h : 9 ≤ n) : capOverstated c n = false :=
  decide_eq_false (by omega)

/-- Settles O18: the two answers of ENCODE from `IDLE`. -/
theorem encodeLeaves : Obligations.EncodeLeaves :=
  fun _ _ _ hi hc => ⟨execEncode_fits hi hc, execEncode_tooSmall hi hc⟩

/-- Bytes past those a word lies in are 0 (42_shifter_comparator R174). -/
theorem byteOf_eq_zero {w : Word} {n j : Nat} (hw : w.toNat < 2 ^ (8 * n)) (hj : n ≤ j) : byteOf w j = 0 := by
  have hlt : w.toNat < 2 ^ (8 * j) := hw.trans_le (Nat.pow_le_pow_right (by decide) (by omega))
  refine BitVec.eq_of_toNat_eq ?_
  rw [byteOf_toNat, Nat.div_eq_of_lt hlt]
  rfl

/-- The canonical encoding of a short value is made of the low bytes of its short-form word (40_encoder R104). -/
theorem canonicalBytes_short {v : Word} (h8 : encLen v ≤ 8) :
    canonicalBytes v = (List.range (encLen v)).map (byteOf (shortWord v (BitVec.ofNat 4 (encLen v)))) := by
  rw [canonicalBytes_eq, formBytes_short v h8, shortWord_encLen]
  rfl

theorem canonicalBytes_esc {v : Word} (h9 : encLen v = 9) :
    canonicalBytes v = 0x00 :: (List.range 8).map (byteOf v) := by
  rw [canonicalBytes_eq, h9]
  rfl

/-- Settles O16: ENCODE that fits leaves `encodeResult`, whose bytes are the canonical encoding. -/
theorem encodeCompletes : Obligations.EncodeCompletes := by
  intro v c s hi hc hfit
  refine ⟨_, canonicalBytes v, execEncode_fits hi hc hfit, canonicalBytes_length v,
    fun h8 => ⟨canonicalBytes_short h8, fun j hj _ => ?_⟩, canonicalBytes_esc, rfl, rfl, rfl, rfl, rfl⟩
  obtain ⟨-, hlt, -⟩ := shortWordLosesNothing v h8
  exact byteOf_eq_zero hlt hj

/-- Settles O17: ENCODE that does not fit leaves `encodeFault`; one that fits and answers a next state leaves
`encodeResult`, which is no fault. -/
theorem encodeBufferTooSmall : Obligations.EncodeBufferTooSmall := by
  refine ⟨fun v c s hi hc h => ⟨_, execEncode_tooSmall hi hc h, rfl, rfl, rfl, rfl, rfl, rfl⟩,
    fun v c s t hi hfit ht => ?_⟩
  change execEncode v c s = .next t at ht
  cases hc : capOverstated c s.dstSize
  · obtain rfl : encodeResult v c s = t := by simpa using (execEncode_fits hi hc hfit).symm.trans ht
    rfl
  · rw [execEncode_overstated hi hc] at ht
    cases ht

/-- Settles O19: whatever fits is encoded, and 9 bytes hold every encoding. -/
theorem encodeTotalOnValues : Obligations.EncodeTotalOnValues := by
  have hfits (v : Word) (c : Nib) (s : State) (hi : s.enc.ph = .idle) (hc : capOverstated c s.dstSize = false)
      (h : encLen v ≤ c.toNat) :
      ∃ t, exec (.encode v c) s = .next t ∧ t.enc.status = .ok ∧ t.enc.rlen.toNat = encLen v ∧ t.enc.ph = .idle :=
    ⟨_, execEncode_fits hi hc h, rfl, encLen_nib_toNat v, rfl⟩
  exact ⟨hfits, fun v c s hi hsize hcap =>
    hfits v c s hi (capOverstated_of_nine_le c hsize) ((encLen_le_nine v).trans hcap)⟩

/-- The indices a fitting ENCODE stores to are those of the encoding (20_memory R53). -/
theorem storesBelow_of_fits {v : Word} {c : Nib} {s : State} (hi : s.enc.ph = .idle) (hfit : encLen v ≤ c.toNat) :
    storesBelow v c s = encLen v := by
  have hs : capShort c (encChosen s.enc v c).len = false := by simpa [encChosen, capShort_encLen] using hfit
  rw [storesBelow, chosen_climb, if_pos ⟨hi, hs⟩]
  exact encLen_nib_toNat v

/-- Settles O21, answer by answer: a wait changes nothing, the fault ENC and the events, the encoding its own bytes of
DST besides. -/
theorem encodeFrame : Obligations.EncodeFrame := by
  intro v c s t ht
  change execEncode v c s = .next t at ht
  obtain ⟨-, heq⟩ | ⟨-, -, heq⟩ | ⟨-, -, -, heq⟩ | ⟨hi, -, hfit, heq⟩ := execEncode_answers v c s <;>
    rw [heq] at ht <;> cases ht
  · exact ⟨rfl, rfl, rfl, rfl, rfl, rfl, rfl, fun _ _ => rfl⟩
  · exact ⟨rfl, rfl, rfl, rfl, rfl, rfl, rfl, fun _ _ => rfl⟩
  · refine ⟨rfl, rfl, rfl, rfl, rfl, rfl, rfl, fun a ha => ?_⟩
    rw [storesBelow_of_fits hi hfit] at ha
    exact (read_writeBytes_canonicalBytes s.dst v).2 a ha

/-! ### What the output guarantees -/

/-- A canonical encoding laid in DST from index 0 reads back byte for byte (20_memory R53). -/
theorem map_read_writeBytes_canonicalBytes (m : List Host.Cell) (v : Word) :
    (List.range (encLen v)).map (Memory.read (Memory.writeBytes m 0 (canonicalBytes v))) =
      (canonicalBytes v).map some := by
  refine List.ext_getElem (by simp [canonicalBytes_length]) fun i _ h => ?_
  rw [List.getElem_map, List.getElem_map, List.getElem_range]
  exact (read_writeBytes_canonicalBytes m v).1 i (by simpa using h)

/-- The first byte of a canonical encoding: its lowest set bit is at `L - 1`, or it is the escape mark (30_encoding
R74). -/
theorem canonicalBytes_first (v : Word) : ∃ b bs, canonicalBytes v = b :: bs ∧
    (encLen v ≤ 8 → b ≠ 0x00 ∧ (ctz8 b).toNat = encLen v - 1) ∧ (encLen v = 9 → b = 0x00) := by
  obtain ⟨b, bs, hbytes, hlen⟩ := formBytes_eq_cons v (encLen_pos v) (encLen_le_nine v)
  refine ⟨b, bs, hbytes, fun h8 => ?_, fun h9 => (lenOfFirst_eq_nine_iff b).1 (hlen.trans h9)⟩
  have hb : b ≠ 0x00 := fun h => by
    have := (lenOfFirst_eq_nine_iff b).2 h
    omega
  rw [lenOfFirst, if_neg hb] at hlen
  exact ⟨hb, by omega⟩

/-- The decoder's function takes a canonical encoding off whatever follows it, passes its checks and gives the value
back (41_decoder R144). -/
theorem decodeBytes_canonicalBytes (v : Word) (rest : List Byte) (k : Nib) :
    decodeBytes (canonicalBytes v ++ rest) k = (.ok, v, 0, encLen v) := by
  obtain ⟨b, bs, hbytes, hshort, hesc⟩ := canonicalBytes_first v
  have hlen : (b :: bs).length = encLen v := hbytes ▸ canonicalBytes_length v
  have hpay := payloadOf_formBytes (encLen_pos v) (encLen_le_nine v) (fitsForm_encLen v)
  rw [← canonicalBytes_eq, hbytes] at hpay
  have hfits : ¬ (b :: (bs ++ rest)).length < encLen v := by
    rw [← List.cons_append, List.length_append]
    omega
  rw [hbytes, List.cons_append, decodeBytes]
  by_cases h9 : encLen v = 9
  · have htake : ((b :: (bs ++ rest)).drop 1).take 8 = bs := List.take_left' (by simpa [h9] using hlen)
    have hv : leAsm bs = v := by simpa [payloadOf, h9] using hpay
    have hcanon : ¬ v.toNat < 2 ^ 56 := not_lt.2 (encLen_eq_nine_iff.1 h9)
    rw [h9] at hfits
    simp only [if_pos (hesc h9), if_neg hfits, htake, hv, if_neg hcanon, h9]
  · obtain ⟨hb, hctz⟩ := hshort (by have := encLen_le_nine v; omega)
    obtain ⟨-, hlo⟩ := encLen_range v
    have hl : 1 + (ctz8 b).toNat = encLen v := by have := encLen_pos v; omega
    have htake : (b :: (bs ++ rest)).take (encLen v) = b :: bs := List.take_left' (l₂ := rest) hlen
    have hv : leAsm (b :: bs) >>> encLen v = v := by simpa [payloadOf, h9, shr64] using hpay
    have hcanon : ¬ (1 < encLen v ∧ v.toNat < 2 ^ (7 * (encLen v - 1))) := fun h => absurd (hlo h.1) (not_le.2 h.2)
    simp only [if_neg hb, hl, if_neg hfits, htake, hv, if_neg hcanon]

/-- Settles O24: the answer of a fitting ENCODE, the minimality of the length, the first byte, and the round trip
through `decodeBytes`. -/
theorem minimalLength : Obligations.MinimalLength := by
  refine ⟨fun v c s hi hc h => ?_, fun v => ?_, canonicalBytes_length _, canonicalBytes_length _, canonicalBytes_first,
    decodeBytes_canonicalBytes⟩
  · exact ⟨_, execEncode_fits hi hc h, rfl, encLen_nib_toNat v, map_read_writeBytes_canonicalBytes s.dst v⟩
  · exact ⟨canonicalBytes_length v, encLen_pos v, encLen_le_nine v, (encLen_range v).1,
      fun len h1 h8 => (encLen_le_iff h1 h8).2⟩

end Sys2Proof.Machine
end

section
/-! The micro-steps of ENC as equations, one per row of the table and outcome (40_encoder R110, R111). -/

namespace Sys2Proof.Machine

section
variable {s : State}

theorem encAccept_idle {v : Word} {c : Nib} (hi : s.enc.ph = .idle) (hc : capOverstated c s.dstSize = false) :
    encAccept v c s = .next ((s.emit (.encCmd v c)).setEnc (s.enc.accept v c)) :=
  (if_pos hi).trans (if_neg (by simp [hc]))

theorem encAccept_overstated {v : Word} {c : Nib} (hi : s.enc.ph = .idle) (hc : capOverstated c s.dstSize = true) :
    encAccept v c s = .refused .capOverstated := (if_pos hi).trans (if_pos hc)

theorem encAccept_waits {v : Word} {c : Nib} (hi : s.enc.ph ≠ .idle) : encAccept v c s = .next s := if_neg hi

theorem encOwn_up (hp : s.enc.ph = .ladder) (hge : ge64 s.enc.val s.enc.thr = true)
    (hlen : s.enc.len ≠ Config.maxShortLen) : encOwn s = .next (encUp s) := by
  simp [encOwn, hp, hge, hlen]

theorem encOwn_esc (hp : s.enc.ph = .ladder) (hge : ge64 s.enc.val s.enc.thr = true)
    (hlen : s.enc.len = Config.maxShortLen) : encOwn s = .next (encEsc s) := by
  simp [encOwn, hp, hge, hlen]

theorem encOwn_short (hp : s.enc.ph = .ladder) (hlt : ge64 s.enc.val s.enc.thr = false) :
    encOwn s = .next (encShort s) := by
  simp [encOwn, hp, hlt]

theorem encOwn_waits (hl : s.enc.ph ≠ .ladder) (he : s.enc.ph ≠ .emit) : encOwn s = .next s := by
  unfold encOwn
  cases hp : s.enc.ph
  case ladder => exact absurd hp hl
  case emit => exact absurd hp he
  all_goals rfl

/-- The capacity check fails (40_encoder R107). -/
theorem checkCap_tooSmall {e : Enc} (h : e.cap.toNat < e.len.toNat) :
    (s.setEnc e).checkCap = s.setEnc { e with status := .bufferTooSmall, rlen := 0, ph := .frsp } :=
  if_pos (decide_eq_true h)

/-- The capacity check passes (40_encoder R107). -/
theorem checkCap_fits {e : Enc} (h : e.len.toNat ≤ e.cap.toNat) :
    (s.setEnc e).checkCap = s.setEnc { e with idx := 0, ph := .emit } :=
  if_neg (fun hc => absurd h (not_le.2 (of_decide_eq_true hc)))

/-- E-EMIT writes one byte and goes on, or ends with OK after the last one. -/
theorem encOwn_emit (hp : s.enc.ph = .emit) (hi : s.enc.idx.toNat < s.dstSize) :
    encOwn s = .next (((s.setDst (Memory.write s.dst s.enc.idx.toNat s.enc.outByte)).emit
      (.dstWrite s.enc.idx s.enc.outByte)).setEnc
        (if s.enc.idx + 1 = s.enc.len then
          { s.enc with idx := s.enc.idx + 1, status := .ok, rlen := s.enc.len, ph := .resp }
        else { s.enc with idx := s.enc.idx + 1 })) := by
  have hown : encOwn s = encEmit s := by simp [encOwn, hp]
  rw [hown, encEmit, memWrite_inside _ hi, andThen_next]
  by_cases hlast : s.enc.idx + 1 = s.enc.len
  · rw [if_pos hlast]
    exact congrArg _ (if_pos hlast)
  · rw [if_neg hlast]
    exact congrArg _ (if_neg hlast)

theorem deliverEnc_resp (hp : s.enc.ph = .resp) :
    s.deliverEnc = (s.emit (.encRsp .ok s.enc.rlen)).setEnc { s.enc with ph := .idle } := by
  simp [State.deliverEnc, hp]

theorem deliverEnc_frsp (hp : s.enc.ph = .frsp) :
    s.deliverEnc = (s.emit (.encRsp .bufferTooSmall 0)).setEnc { s.enc with ph := .fault } := by
  simp [State.deliverEnc, hp]

end

/-- Settles O37, row by row. -/
theorem encMicroSteps : Obligations.EncMicroSteps := by
  intro s
  refine ⟨fun v c hi hc => encAccept_idle hi hc, fun v c hi => encAccept_waits hi,
    fun hp hge hlen => encOwn_up hp hge hlen, fun hp hge hlen hcap => ?_,
    fun hp hge hlen hcap => ?_, fun hp hlt hcap => ?_, fun hp hlt hcap => ?_,
    fun hp hi b hb => hb ▸ encOwn_emit hp hi, fun hp => ?_, fun hp => deliverEnc_resp hp,
    fun hp => deliverEnc_frsp hp⟩
  · exact (encOwn_esc hp hge hlen).trans (congrArg _ (checkCap_tooSmall hcap))
  · exact (encOwn_esc hp hge hlen).trans (congrArg _ (checkCap_fits hcap))
  · exact (encOwn_short hp hlt).trans (congrArg _ (checkCap_tooSmall hcap))
  · exact (encOwn_short hp hlt).trans (congrArg _ (checkCap_fits hcap))
  · obtain hp | hp | hp | hp := hp <;> exact encOwn_waits (by simp [hp]) (by simp [hp])

/-! ### The command turn -/

theorem encCmdStep_cons {s : State} {w : BitVec 68} {ws : List (BitVec 68)} (hi : s.enc.ph = .idle)
    (hw : s.encCmds = w :: ws) :
    encCmdStep s = encAccept (encWordValue w) (encWordCap w) (s.setEncCmds ws) := by
  simp [encCmdStep, hi, hw]

/-- With no command on offer, or ENC not in `IDLE`, the command turn is a wait, and so is the turn for the whole ENCODE
(40_encoder R111). -/
theorem encCmd_waits {s : State} (h : s.encCmds = [] ∨ s.enc.ph ≠ .idle) :
    encCmdStep s = .next s ∧ runOp .encCmd s = .next s := by
  rw [encCmdStep, runOp_encCmd]
  obtain h | h := h
  · simp [h]
  · cases s.encCmds <;> simp [h]

/-- Settles O22: a busy ENC leaves the command on offer; an idle one takes it by E-ACCEPT. -/
theorem encodeWaitsWhileBusy : Obligations.EncodeWaitsWhileBusy := by
  refine ⟨fun v c s hi => execEncode_waits hi, fun s q hi => encCmd_waits (s := s.setSched q) (.inr hi),
    fun s q w ws hi hw hc => ?_⟩
  have htake := (encCmdStep_cons (s := s.setSched q) hi hw).trans (encAccept_idle hi hc)
  exact ⟨_, htake, rfl, rfl, rfl, rfl⟩

end Sys2Proof.Machine
end

section
/-! The whole ENCODE is its micro-steps (40_encoder R115, 92_eei_decisions D23): ENC's own micro-steps lead from the
accepted command through the ladder and the writes to the response. -/

namespace Sys2Proof.Machine

/-! ### Runs of ENC's own micro-steps -/

/-- One step of a run: it goes on from a next state, and any other answer ends it. -/
theorem core_run_succ (M : Host.Core) (k : Nat) (s : M.State) :
    (∀ t, M.step s = .next t → M.run (k + 1) s = M.run k t) ∧
    (∀ r, M.step s = .fault r → M.run (k + 1) s = .fault r) ∧
    (∀ r, M.step s = .refused r → M.run (k + 1) s = .refused r) := by
  refine ⟨fun t h => ?_, fun r h => ?_, fun r h => ?_⟩ <;> simp only [Host.Core.run, h]

/-- `k` steps of the machine, on its own state type. -/
def runSteps (k : Nat) (s : State) : Host.Outcome State Fault Refusal := Sys2Proof.core.run k s

/-- A run begins with the turn at the head of the schedule. -/
theorem runSteps_succ (k : Nat) (a : Turn) (s : State) (q : List Turn) :
    runSteps (k + 1) (s.setSched (a :: q)) = andThen (turn a (s.setSched q)) (runSteps k) := by
  obtain ⟨hnext, hfault, hrefused⟩ := core_run_succ Sys2Proof.core k (s.setSched (a :: q))
  cases h : turn a (s.setSched q) with
  | next t => exact hnext t h
  | fault r => exact hfault r h
  | refused r => exact hrefused r h

theorem checkCap_setSched (s : State) (q : List Turn) : (s.setSched q).checkCap = s.checkCap.setSched q := by
  unfold State.checkCap
  rw [State.setSched_enc]
  split <;> rfl

/-- ENC's own micro-step does not look at the schedule, and leaves it. -/
theorem encOwn_setSched {s t : State} (h : encOwn s = .next t) (q : List Turn) :
    encOwn (s.setSched q) = .next (t.setSched q) := by
  obtain ⟨hp, hge, hlen, rfl⟩ | ⟨hp, hge, hlen, rfl⟩ | ⟨hp, hlt, rfl⟩ | ⟨hp, he⟩ | ⟨hl, he, rfl⟩ := encOwn_cases h
  · exact (encOwn_esc (s := s.setSched q) hp hge hlen).trans (congrArg _ (checkCap_setSched (s.setEnc _) q))
  · exact encOwn_up (s := s.setSched q) hp hge hlen
  · exact (encOwn_short (s := s.setSched q) hp hlt).trans (congrArg _ (checkCap_setSched (s.setEnc _) q))
  · obtain ⟨hi, -⟩ := encEmit_next he
    rw [encOwn_emit hp hi] at h
    injection h with h
    exact (encOwn_emit (s := s.setSched q) hp hi).trans (congrArg (fun u => Host.Outcome.next (State.setSched u q)) h)
  · exact encOwn_waits (s := t.setSched q) hl he

/-- `n` turns of ENC's own lead from `s` to `t`, whatever turns come after them. -/
def OwnSteps (n : Nat) (s t : State) : Prop :=
  ∀ (k : Nat) (q : List Turn),
    runSteps (n + k) (s.setSched (List.replicate n .encOwn ++ q)) = runSteps k (t.setSched q)

theorem OwnSteps.refl (s : State) : OwnSteps 0 s s := fun k q => by rw [Nat.zero_add]; rfl

theorem OwnSteps.trans {m n : Nat} {s t u : State} (h : OwnSteps m s t) (h' : OwnSteps n t u) :
    OwnSteps (m + n) s u := fun k q => by
  rw [List.replicate_add, List.append_assoc, Nat.add_assoc, h, h']

theorem OwnSteps.one {s t : State} (h : encOwn s = .next t) : OwnSteps 1 s t := fun k q => by
  rw [Nat.add_comm, List.replicate_one, List.singleton_append, runSteps_succ, turn, encOwn_setSched h,
    andThen_next]

/-- Where ENC has no micro-step of its own, its turns change nothing (40_encoder R110). -/
theorem OwnSteps.waits {s : State} (hl : s.enc.ph ≠ .ladder) (he : s.enc.ph ≠ .emit) (n : Nat) : OwnSteps n s s := by
  induction n with
  | zero => exact .refl s
  | succ n ih => exact ih.trans (.one (encOwn_waits hl he))

/-- A run of own turns that ends early waits out the rest. -/
theorem OwnSteps.waitOut {m n : Nat} {s t : State} (h : OwnSteps m s t) (hmn : m ≤ n) (hl : t.enc.ph ≠ .ladder)
    (he : t.enc.ph ≠ .emit) : OwnSteps n s t := by
  have hall := h.trans (.waits hl he (n - m))
  rwa [Nat.add_sub_cancel' hmn] at hall

/-! ### The ladder -/

/-- The registers of ENC on rung `k` of the ladder (40_encoder R101). -/
def Enc.onRung (e : Enc) (k : Nat) : Enc := { e with ph := .ladder, len := BitVec.ofNat 4 k, thr := rungT k }

theorem nib_ofNat_toNat {k : Nat} (h : k < 16) : (BitVec.ofNat 4 k).toNat = k := by
  rw [BitVec.toNat_ofNat]
  exact Nat.mod_eq_of_lt h

/-- A rung tests whether the value needs more bytes (40_encoder R101). -/
theorem ge64_rungT {v : Word} {k : Nat} (h1 : 1 ≤ k) (h8 : k ≤ 8) : ge64 v (rungT k) = decide (k < encLen v) := by
  rw [ge64, rungT_toNat (by omega), decide_eq_decide, ← not_le, encLen_le_iff h1 h8, not_lt]

/-- Below the value's length, and below 8, the ladder goes one rung up (40_encoder R101). -/
theorem ownSteps_up (s : State) (e : Enc) {k : Nat} (h1 : 1 ≤ k) (hlen : k < min (encLen e.val) 8) :
    OwnSteps 1 (s.setEnc (e.onRung k)) (s.setEnc (e.onRung (k + 1))) := by
  have hge : ge64 e.val (rungT k) = true := (ge64_rungT h1 (by omega)).trans (decide_eq_true (by omega))
  have hne : BitVec.ofNat 4 k ≠ Config.maxShortLen := fun h => by
    have h8 : k = 8 := (nib_ofNat_toNat (by omega)).symm.trans (congrArg BitVec.toNat h)
    omega
  have hrung : ({ e.onRung k with thr := shl64 (rungT k) 7, len := BitVec.ofNat 4 k + 1 } : Enc) =
      e.onRung (k + 1) := by
    rw [shl64_rungT, Enc.onRung, Enc.onRung, BitVec.ofNat_add]
    rfl
  refine .one ((encOwn_up rfl hge hne).trans ?_)
  exact congrArg (fun r => Host.Outcome.next (s.setEnc r)) hrung

/-- The ladder climbs to the value's length, or to 8 (40_encoder R101, R102). -/
theorem ownSteps_climb (s : State) (e : Enc) {k : Nat} (h1 : 1 ≤ k) (hlen : k ≤ min (encLen e.val) 8) :
    OwnSteps (k - 1) (s.setEnc (e.onRung 1)) (s.setEnc (e.onRung k)) := by
  induction k, h1 using Nat.le_induction with
  | base => exact .refl _
  | succ k h1 ih =>
    have hstep := (ih (by omega)).trans (ownSteps_up s e h1 hlen)
    rwa [Nat.sub_add_cancel h1] at hstep

/-- On its last rung ENC fixes the length and goes to the capacity check, by E-ESC or by E-SHORT (40_encoder R103,
R105). -/
theorem ownSteps_chosen (s : State) (e : Enc) (v : Word) (c : Nib) :
    OwnSteps 1 (s.setEnc (Enc.onRung { e with val := v, cap := c } (min (encLen v) 8)))
      (s.setEnc { encChosen e v c with ph := .ladder }).checkCap := by
  have h1 := encLen_pos v
  have h9 := encLen_le_nine v
  have hge := ge64_rungT (v := v) (k := min (encLen v) 8) (by omega) (by omega)
  by_cases hesc : encLen v = 9
  · have hreg : ({ Enc.onRung { e with val := v, cap := c } (min (encLen v) 8) with len := Config.escLen } : Enc) =
        { encChosen e v c with ph := .ladder } := by
      simp [Enc.onRung, encChosen, hesc, Config.escLen]
    refine .one ((encOwn_esc rfl (hge.trans (decide_eq_true (by omega))) (by rw [hesc]; rfl)).trans ?_)
    exact congrArg (fun r => Host.Outcome.next (s.setEnc r).checkCap) hreg
  · have h8 : min (encLen v) 8 = encLen v := by omega
    have hreg : ({ Enc.onRung { e with val := v, cap := c } (min (encLen v) 8) with
        word := shortWord v (BitVec.ofNat 4 (min (encLen v) 8)) } : Enc) = { encChosen e v c with ph := .ladder } := by
      simp [Enc.onRung, encChosen, hesc, h8, shortWord_encLen]
    refine .one ((encOwn_short rfl (hge.trans (decide_eq_false (by omega)))).trans ?_)
    exact congrArg (fun r => Host.Outcome.next (s.setEnc r).checkCap) hreg

/-- From the accepted command to the capacity check (40_encoder R101 to R107). -/
theorem ownSteps_ladder (s : State) (e : Enc) (v : Word) (c : Nib) :
    OwnSteps (min (encLen v) 8) (s.setEnc (e.accept v c))
      (s.setEnc { encChosen e v c with ph := .ladder }).checkCap := by
  have h1 : 1 ≤ min (encLen v) 8 := le_min (encLen_pos v) (by decide)
  have hclimb := ownSteps_climb s { e with val := v, cap := c } h1 le_rfl
  have hall := hclimb.trans (ownSteps_chosen s e v c)
  rwa [Nat.sub_add_cancel h1] at hall

/-! ### The writes -/

/-- `bs` written to DST from index `i`, with the events (20_memory R52). -/
def State.wrote (s : State) (i : Nat) (bs : List Byte) : State :=
  { s with dst := Memory.writeBytes s.dst i bs, trace := s.trace ++ writeEvents i bs }

theorem wrote_cons (s : State) (i : Nat) (b : Byte) (bs : List Byte) :
    (s.wrote i [b]).wrote (i + 1) bs = s.wrote i (b :: bs) := by
  simp [State.wrote, Memory.writeBytes, writeEvents]

/-- The registers of ENC in `EMIT`, at index `i` (40_encoder R110). -/
def Enc.atIndex (e : Enc) (i : Nat) : Enc := { e with ph := .emit, idx := BitVec.ofNat 4 i }

/-- The registers of ENC with every byte written (40_encoder R106). -/
def Enc.done (e : Enc) : Enc := { e with idx := e.len, status := .ok, rlen := e.len, ph := .resp }

/-- E-EMIT writes a byte and advances, or ends the operation (40_encoder R110). -/
theorem ownSteps_write (s : State) {e : Enc} {i : Nat} {b : Byte} (hlen : i < e.len.toNat) (hsize : i < s.dstSize)
    (hout : (e.atIndex i).outByte = b) :
    OwnSteps 1 (s.setEnc (e.atIndex i))
      ((s.wrote i [b]).setEnc (if i + 1 = e.len.toNat then e.done else e.atIndex (i + 1))) := by
  have hl := e.len.isLt
  have hidx : (e.atIndex i).idx.toNat = i := nib_ofNat_toNat (by omega)
  have hnext : (e.atIndex i).idx + 1 = BitVec.ofNat 4 (i + 1) := (BitVec.ofNat_add i 1).symm
  have hlast : BitVec.ofNat 4 (i + 1) = (e.atIndex i).len ↔ i + 1 = e.len.toNat := by
    rw [← BitVec.toNat_inj, nib_ofNat_toNat (by omega)]
    rfl
  have hown := encOwn_emit (s := s.setEnc (e.atIndex i)) rfl (hidx.symm ▸ hsize)
  refine .one (hown.trans (congrArg Host.Outcome.next ?_))
  rw [State.setEnc_enc, hout, hnext, State.setEnc_dst, hidx]
  by_cases hend : i + 1 = e.len.toNat
  · rw [if_pos (hlast.2 hend), if_pos hend, hlast.2 hend]
    rfl
  · rw [if_neg (mt hlast.1 hend), if_neg hend]
    rfl

/-- All the bytes still to write (40_encoder R104, R105). -/
theorem ownSteps_writes (s : State) {e : Enc} {i : Nat} {bs : List Byte} (hne : bs ≠ [])
    (hlen : i + bs.length = e.len.toNat) (hsize : e.len.toNat ≤ s.dstSize)
    (hout : ∀ (j : Nat) (h : j < bs.length), (e.atIndex (i + j)).outByte = bs[j]) :
    OwnSteps bs.length (s.setEnc (e.atIndex i)) ((s.wrote i bs).setEnc e.done) := by
  induction bs generalizing s i with
  | nil => exact absurd rfl hne
  | cons b bs ih =>
    rw [List.length_cons] at hlen
    have hstep := ownSteps_write s (e := e) (i := i) (b := b) (by omega) (by omega) (hout 0 (Nat.zero_lt_succ _))
    cases bs with
    | nil => rwa [if_pos (by simpa using hlen)] at hstep
    | cons b' bs =>
      rw [if_neg (by rw [List.length_cons] at hlen; omega)] at hstep
      have hrest := ih (s := s.wrote i [b]) (i := i + 1) (List.cons_ne_nil _ _) (by omega) hsize fun j h => by
        rw [Nat.add_assoc, Nat.add_comm 1 j]
        exact hout (j + 1) (Nat.succ_lt_succ h)
      rw [wrote_cons] at hrest
      rw [List.length_cons, Nat.add_comm]
      exact hstep.trans hrest

/-- The byte E-EMIT writes at each index is that of the canonical encoding (40_encoder R104, R105). -/
theorem outByte_encChosen (e : Enc) (v : Word) (c : Nib) (i : Nat) (h : i < (canonicalBytes v).length) :
    ((encChosen e v c).atIndex i).outByte = (canonicalBytes v)[i] := by
  have h9 := encLen_le_nine v
  have hi : i < encLen v := canonicalBytes_length v ▸ h
  have hidx : ((encChosen e v c).atIndex i).idx.toNat = i := nib_ofNat_toNat (by omega)
  have hlen : ((encChosen e v c).atIndex i).len = Config.escLen ↔ encLen v = 9 := by
    rw [← BitVec.toNat_inj]
    exact ⟨(encLen_nib_toNat v).symm.trans, (encLen_nib_toNat v).trans⟩
  rw [Enc.outByte, hidx]
  by_cases hesc : encLen v = 9
  · rw [if_pos (hlen.2 hesc), List.getElem_of_eq (canonicalBytes_esc hesc)]
    have hzero : ((encChosen e v c).atIndex i).idx = 0 ↔ i = 0 := by
      rw [← BitVec.toNat_inj, hidx]
      rfl
    cases i with
    | zero =>
      rw [if_pos (hzero.2 rfl)]
      rfl
    | succ j =>
      rw [if_neg (mt hzero.1 (Nat.succ_ne_zero j)), List.getElem_cons_succ, List.getElem_map, List.getElem_range]
      rfl
  · have hshort := canonicalBytes_short (v := v) (by omega)
    rw [shortWord_encLen] at hshort
    rw [if_neg (mt hlen.1 hesc), List.getElem_of_eq hshort]
    simp [encChosen, Enc.atIndex, hesc]

/-! ### The whole operation -/

/-- ENCODE that does not fit, up to its response (40_encoder R107). -/
theorem ownSteps_tooSmall (s : State) (e : Enc) {v : Word} {c : Nib} (h : c.toNat < encLen v) :
    OwnSteps 17 (s.setEnc (e.accept v c))
      (s.setEnc { encChosen e v c with status := .bufferTooSmall, rlen := 0, ph := .frsp }) := by
  have hladder := ownSteps_ladder s e v c
  rw [checkCap_tooSmall (h.trans_eq (encLen_nib_toNat v).symm)] at hladder
  exact hladder.waitOut (by omega) nofun nofun

/-- ENCODE that fits, up to its response (40_encoder R104 to R106, R115). -/
theorem ownSteps_fits (s : State) (e : Enc) {v : Word} {c : Nib} (h : encLen v ≤ c.toNat)
    (hsize : encLen v ≤ s.dstSize) :
    OwnSteps 17 (s.setEnc (e.accept v c)) ((s.wrote 0 (canonicalBytes v)).setEnc (encChosen e v c).done) := by
  have h1 := encLen_pos v
  have h9 := encLen_le_nine v
  have hlen : (encChosen e v c).len.toNat = encLen v := encLen_nib_toNat v
  have hbytes := canonicalBytes_length v
  have hladder := ownSteps_ladder s e v c
  rw [checkCap_fits (e := { encChosen e v c with ph := .ladder }) (hlen.trans_le h)] at hladder
  have hwrites := ownSteps_writes s (e := encChosen e v c) (i := 0) (bs := canonicalBytes v)
    (List.ne_nil_of_length_pos (by omega)) (by omega) (by omega) fun j hj => by
      rw [Nat.zero_add]
      exact outByte_encChosen e v c j hj
  exact (hladder.trans hwrites).waitOut (by omega) nofun nofun

/-- The turns of one ENCODE after its command, and those that follow. -/
def afterCommand (q : List Turn) : List Turn := List.replicate 17 .encOwn ++ .encRsp :: q

theorem microEncode_append (q : List Turn) : microEncode ++ q = .encCmd :: afterCommand q := rfl

/-- ENC's own turns and then the turn of its response. -/
theorem OwnSteps.run_response {s t : State} (h : OwnSteps 17 s t) (q : List Turn) :
    runSteps 18 (s.setSched (afterCommand q)) = .next (t.setSched q).deliverEnc :=
  (h 1 (.encRsp :: q)).trans (runSteps_succ 0 .encRsp t q)

/-- After its command, accepted in `IDLE`, ENCODE is its micro-steps (40_encoder R115). -/
theorem run_encAccept {v : Word} {c : Nib} {s : State} (hi : s.enc.ph = .idle) (q : List Turn) :
    andThen (encAccept v c (s.setSched (afterCommand q))) (runSteps 18) =
      execEncode v c (s.setSched q) := by
  obtain ⟨hni, -⟩ | ⟨-, hc, hexec⟩ | ⟨-, hc, h, hexec⟩ | ⟨-, hc, h, hexec⟩ := execEncode_answers v c (s.setSched q)
  · exact absurd hi hni
  · rw [hexec, encAccept_overstated (s := s.setSched (afterCommand q)) hi hc, andThen_refused]
  · rw [hexec, encAccept_idle (s := s.setSched (afterCommand q)) hi hc, andThen_next]
    refine ((ownSteps_tooSmall (s.emit (.encCmd v c)) s.enc h).run_response q).trans ?_
    rw [deliverEnc_frsp rfl]
    simp [encodeFault, State.emit, State.setEnc, State.setSched]
  · rw [hexec, encAccept_idle (s := s.setSched (afterCommand q)) hi hc, andThen_next]
    refine ((ownSteps_fits (s.emit (.encCmd v c)) s.enc h (encLen_le_size hc h)).run_response q).trans ?_
    rw [deliverEnc_resp rfl]
    rfl

/-- Settles O39: where no command is on offer both are waits; a command taken leads through the ladder and the writes to
the answer of the whole ENCODE. -/
theorem encodeIsItsMicroSteps : Obligations.EncodeIsItsMicroSteps := by
  intro s q hi
  rw [microEncode_append]
  change runSteps 19 (s.setSched (.encCmd :: afterCommand q)) = runOp .encCmd (s.setSched q)
  rw [runSteps_succ, turn]
  cases hw : s.encCmds with
  | nil =>
    obtain ⟨hcmd, -⟩ := encCmd_waits (s := s.setSched (afterCommand q)) (.inl hw)
    obtain ⟨-, hop⟩ := encCmd_waits (s := s.setSched q) (.inl hw)
    have hwait : OwnSteps 17 s s := .waits (by simp [hi]) (by simp [hi]) 17
    rw [hcmd, hop, andThen_next, hwait.run_response]
    simp [State.deliverEnc, hi]
  | cons w ws =>
    have hop := step_of_fetch (s := s.setSched (.op .encCmd :: q)) rfl (fetch_encCmd (s := s.setSched q) hi hw)
    refine Eq.trans ?_ hop.symm
    rw [encCmdStep_cons (s := s.setSched (afterCommand q)) hi hw]
    exact run_encAccept (s := s.setEncCmds ws) hi q

end Sys2Proof.Machine
end

section
/-! The registers of DEC after a run of bytes, in closed form, and the response to a whole encoding (41_decoder R130 to
R141, R147). -/

namespace Sys2Proof.Machine

/-! ### Bytes taken in -/

/-- The source has delivered the bytes, and DEC has not yet taken them in (20_memory R55, R56). -/
def State.bytesIn (s : State) (bs : List Byte) : State :=
  { s with cursor := s.cursor + bs.length, trace := s.trace ++ bs.map Event.srcByte }

theorem State.bytesIn_nil (s : State) : s.bytesIn [] = s := by simp [State.bytesIn]

theorem State.byteIn_bytesIn (s : State) (b : Byte) (bs : List Byte) : (s.byteIn b).bytesIn bs = s.bytesIn (b :: bs) := by
  simp [State.bytesIn, State.byteIn, State.setCursor, State.emit, Nat.add_assoc, Nat.add_comm 1]

/-- The registers of DEC after further bytes of an encoding, but for the phase (41_decoder R147). -/
def Dec.moreAll (d : Dec) (bs : List Byte) : Dec :=
  { d with acc := d.acc ||| shl64 (leAsm bs) (8 * d.pos), cnt := d.cnt + BitVec.ofNat 4 bs.length }

theorem Dec.moreAll_nil (d : Dec) : d.moreAll [] = d := by simp [Dec.moreAll, leAsm, shl64]

/-- D-CONT puts each byte above those before it, as LE_ASM does (42_shifter_comparator R175). -/
theorem Dec.more_moreAll {d : Dec} {b : Byte} {bs : List Byte} (hd : d.Reading) (hlt : d.cnt.toNat < d.len.toNat) :
    (d.more b).moreAll bs = d.moreAll (b :: bs) := by
  have hacc : d.acc ||| shl64 (b.setWidth 64) (8 * d.pos) ||| shl64 (leAsm bs) (8 * (d.pos + 1)) =
      d.acc ||| shl64 (leAsm (b :: bs)) (8 * d.pos) := by
    rw [leAsm, shl64, shl64, shl64, shl64, BitVec.shiftLeft_or_distrib, ← BitVec.shiftLeft_add, BitVec.or_assoc,
      Nat.mul_succ, Nat.add_comm 8]
  have hcnt : d.cnt + 1 + BitVec.ofNat 4 bs.length = d.cnt + BitVec.ofNat 4 (bs.length + 1) := by
    rw [BitVec.add_assoc, Nat.add_comm bs.length, BitVec.ofNat_add]
    rfl
  rw [Dec.moreAll, Dec.more_pos b hd hlt, Dec.more, hacc, hcnt]
  rfl

/-- The continuation reads of DECODE, over the bytes the source has of an encoding (41_decoder R133, R136). -/
theorem readRest_bytes {d : Dec} {bs : List Byte} {tail : List SrcEvent} {s : State} {n : Nat} (hd : d.Reading)
    (hn : n + bs.length + d.cnt.toNat = d.len.toNat) (hsrc : s.src = bs.map SrcEvent.byte ++ tail) :
    readRest (n + bs.length) d.pos (s.setDec d) =
      readRest n (d.moreAll bs).pos (((s.setSrc tail).bytesIn bs).setDec (d.moreAll bs)) := by
  induction bs generalizing s d with
  | nil =>
    have hs : s.setSrc tail = s := congrArg s.setSrc hsrc.symm
    rw [Dec.moreAll_nil, State.bytesIn_nil, hs]
    rfl
  | cons b bs ih =>
    rw [List.length_cons, ← Nat.add_assoc] at hn
    have hlt : d.cnt.toNat < d.len.toNat := by omega
    have hrest := ih (s := (s.setSrc (bs.map SrcEvent.byte ++ tail)).byteIn b) (hd.more b hlt)
      (Dec.more_remaining b hn) rfl
    rw [Dec.more_pos b hd hlt, Dec.more_moreAll hd hlt] at hrest
    rw [List.length_cons, ← Nat.add_assoc, readRest, memRead_byte (s := s.setDec d) hsrc, ← State.byteIn_bytesIn]
    exact hrest

/-- DECODE after its command, over the bytes the source has of the encoding the first of them begins (41_decoder R130). -/
theorem readAll_bytes {s : State} {b : Byte} {bs : List Byte} {tail : List SrcEvent}
    (hlen : (b :: bs).length ≤ lenOfFirst b) (hsrc : s.src = (b :: bs).map SrcEvent.byte ++ tail) :
    readAll s = readRest (lenOfFirst b - (b :: bs).length) ((s.dec.first b).moreAll bs).pos
      (((s.setSrc tail).bytesIn (b :: bs)).setDec ((s.dec.first b).moreAll bs)) := by
  obtain ⟨hcnt, hfirst⟩ := Dec.first_cnt_len b s.dec
  rw [List.length_cons] at hlen ⊢
  have hn : lenOfFirst b - 1 = lenOfFirst b - (bs.length + 1) + bs.length := by omega
  rw [readAll_cons hsrc, hn, readRest_bytes (tail := tail) (Dec.first_reading b s.dec) (by omega) rfl,
    ← State.byteIn_bytesIn]
  rfl

/-! ### A whole encoding -/

/-- What DEC has put together when the last byte of an encoding is in (41_decoder R133, R136). -/
def assembled (bytes : List Byte) : Word := if bytes.length = 9 then leAsm (bytes.drop 1) else leAsm bytes

/-- The registers of DEC with a whole encoding taken in, but for the phase (41_decoder R147). -/
def Dec.whole (d : Dec) (bytes : List Byte) : Dec :=
  { d with
    esc := decide (bytes.length = 9), len := BitVec.ofNat 4 bytes.length, cnt := BitVec.ofNat 4 bytes.length
    acc := assembled bytes }

theorem Dec.first_moreAll_whole {b : Byte} {bs : List Byte} (d : Dec) (hlen : (b :: bs).length = lenOfFirst b) :
    (d.first b).moreAll bs = d.whole (b :: bs) := by
  by_cases hb : b = Config.escMark
  · have h9 : (b :: bs).length = 9 := hlen.trans ((lenOfFirst_eq_nine_iff b).2 hb)
    have h8 : bs.length = 8 := Nat.succ.inj h9
    rw [Dec.whole, assembled, if_pos h9, h9, Dec.first, if_pos hb, Dec.moreAll, h8]
    simp [Dec.pos, shl64, Config.escLen]
  · have h9 : (b :: bs).length ≠ 9 := fun h => hb ((lenOfFirst_eq_nine_iff b).1 (hlen.symm.trans h))
    have hl : 1 + ctz8 b = BitVec.ofNat 4 (b :: bs).length := by
      rw [hlen, lenOfFirst, if_neg (show b ≠ 0x00 from hb), BitVec.ofNat_add, BitVec.ofNat_toNat, BitVec.setWidth_eq]
      rfl
    have hc : (1 : Nib) + BitVec.ofNat 4 bs.length = BitVec.ofNat 4 (b :: bs).length := by
      rw [List.length_cons, Nat.add_comm, BitVec.ofNat_add]
      rfl
    rw [Dec.whole, assembled, if_neg h9, decide_eq_false h9, Dec.first, if_neg hb, Dec.moreAll, hl]
    exact congrArg (fun c => ({ d with
      esc := false, len := BitVec.ofNat 4 (b :: bs).length, cnt := c, acc := leAsm (b :: bs) } : Dec)) hc

/-- The payload is below the range of values its length owns (30_encoding R75 to R77). -/
def belowRange (len : Nat) (v : Word) : Bool := decide (1 < len ∧ v.toNat < 2 ^ (7 * (len - 1)))

/-- The number FINISH recovers is the payload of the bytes (30_encoding R79, 41_decoder R138). -/
theorem recovered_whole {bytes : List Byte} (h9 : bytes.length ≤ 9) :
    recovered (decide (bytes.length = 9)) (BitVec.ofNat 4 bytes.length) (assembled bytes) =
      payloadOf bytes.length bytes := by
  rw [recovered, payloadOf, assembled, nib_ofNat_toNat (by omega)]
  by_cases h : bytes.length = 9 <;> simp [h]

/-- The two canonicality checks are one: the payload is below the range the length owns (41_decoder R134, R139). -/
theorem nonCanonical_eq_belowRange {n : Nat} (v : Word) (h9 : n ≤ 9) :
    nonCanonical (decide (n = 9)) (BitVec.ofNat 4 n) v = belowRange n v := by
  rw [nonCanonical, belowRange, nib_ofNat_toNat (by omega)]
  by_cases h : n = 9
  · subst h
    simp [lt64, Config.escThreshold]
  · by_cases h1 : 1 < n
    · simp [h, h1, lt64, minM_toNat h1 h9]
    · simp [h, h1]

/-- The state after DEC has taken one whole encoding and the host its response, from the bytes (41_decoder R130). -/
def takenResult (s : State) (bytes : List Byte) : State :=
  wireResult s bytes (decide (bytes.length = 9)) (assembled bytes) (payloadOf bytes.length bytes)
    (belowRange bytes.length (payloadOf bytes.length bytes))

theorem deliverDec_resp {s : State} (hp : s.dec.ph = .resp) : s.deliverDec =
    (s.emit (.decRsp s.dec.status s.dec.value s.dec.kind s.dec.nread)).setDec { s.dec with ph := .idle } := by
  simp [State.deliverDec, hp]

theorem deliverDec_waits {s : State} (hp : s.dec.ph ≠ .resp) : s.deliverDec = s := by
  obtain ⟨h, -⟩ | ⟨-, heq⟩ := s.deliverDec_cases
  · exact absurd h hp
  · exact heq

/-- FINISH and the response, the whole encoding taken in (41_decoder R137 to R141). -/
theorem deliverDec_finish_whole (s : State) {bytes : List Byte} (h9 : bytes.length ≤ 9) :
    ((s.bytesIn bytes).setDec (s.dec.whole bytes)).finish.deliverDec = takenResult s bytes := by
  rw [deliverDec_resp (State.finish_phase _), State.finish_eq]
  simp only [State.setDec_dec, Dec.whole, recovered_whole h9, nonCanonical_eq_belowRange _ h9]
  rfl

/-- DECODE after its command, of a source that begins with a whole encoding (41_decoder R130). -/
theorem readAll_whole {s : State} {b : Byte} {bs : List Byte} {tail : List SrcEvent}
    (hlen : (b :: bs).length = lenOfFirst b) (hsrc : s.src = (b :: bs).map SrcEvent.byte ++ tail) :
    readAll s = (((s.setSrc tail).bytesIn (b :: bs)).setDec (s.dec.whole (b :: bs))).finish := by
  rw [readAll_bytes hlen.le hsrc, Dec.first_moreAll_whole s.dec hlen, hlen, Nat.sub_self]
  rfl

/-- A whole encoding delivered to a DEC that waits for a first byte (41_decoder R147). -/
theorem takeWire_whole {s : State} {b : Byte} {bs : List Byte} (hp : s.dec.ph = .head)
    (hlen : (b :: bs).length = lenOfFirst b) : takeWire (b :: bs) s = .next (takenResult s (b :: bs)) := by
  have hread := readAll_eq_takeBytes (s := s.setSrc ((b :: bs).map SrcEvent.byte ++ s.src)) hp hlen rfl
  rw [readAll_whole hlen rfl] at hread
  have htake : takeBytes (b :: bs) s = ((s.bytesIn (b :: bs)).setDec (s.dec.whole (b :: bs))).finish := hread.symm
  rw [takeWire, if_pos hp, htake, deliverDec_finish_whole s (hlen ▸ (lenOfFirst_range b).2)]

/-- The command looks at nothing of the source. -/
theorem setSrc_decAccept (s : State) (es : List SrcEvent) : (decAccept s).setSrc es = decAccept (s.setSrc es) := by
  unfold decAccept
  rw [State.setSrc_dec]
  split <;> rfl

/-- DECODE of a source that begins with a whole encoding (41_decoder R130, R144). -/
theorem execDecode_whole {s : State} {b : Byte} {bs : List Byte} {tail : List SrcEvent} (hi : s.dec.ph = .idle)
    (hlen : (b :: bs).length = lenOfFirst b) (hsrc : s.src = (b :: bs).map SrcEvent.byte ++ tail) :
    execDecode s = .next (takenResult (decAccept (s.setSrc tail)) (b :: bs)) := by
  have h9 : (b :: bs).length ≤ 9 := hlen ▸ (lenOfFirst_range b).2
  rw [execDecode, if_pos hi, readAll_whole hlen ((decAccept_src s).1.trans hsrc), ← State.setSrc_dec (decAccept s) tail,
    deliverDec_finish_whole _ h9, setSrc_decAccept]

end Sys2Proof.Machine
end

section
/-! The round trip, and each wire form's result (41_decoder R130, R151; 30_encoding R71, R73, R77). -/

namespace Sys2Proof.Machine

/-! ### The round trip -/

/-- A value is not below the range of its own length (30_encoding R75). -/
theorem belowRange_encLen (v : Word) : belowRange (encLen v) v = false := by
  obtain ⟨-, hlo⟩ := encLen_range v
  exact decide_eq_false fun h => absurd (hlo h.1) (not_le.2 h.2)

/-- DEC answers a canonical encoding with the value it is of (41_decoder R140). -/
theorem takenResult_canonicalBytes (s : State) (v : Word) :
    takenResult s (canonicalBytes v) =
      wireResult s (canonicalBytes v) (decide (encLen v = 9)) (assembled (canonicalBytes v)) v false := by
  have hpay := payloadOf_formBytes (encLen_pos v) (encLen_le_nine v) (fitsForm_encLen v)
  rw [← canonicalBytes_eq] at hpay
  rw [takenResult, canonicalBytes_length, hpay, belowRange_encLen]

/-- DECODE of a source that begins with a canonical encoding takes it and answers the value (41_decoder R151). -/
theorem execDecode_canonicalBytes {s : State} {v : Word} {tail : List SrcEvent} (hi : s.dec.ph = .idle)
    (hsrc : s.src = (canonicalBytes v).map SrcEvent.byte ++ tail) :
    execDecode s = .next (wireResult (decAccept (s.setSrc tail)) (canonicalBytes v) (decide (encLen v = 9))
      (assembled (canonicalBytes v)) v false) := by
  obtain ⟨b, bs, hbytes, hb⟩ := formBytes_eq_cons v (encLen_pos v) (encLen_le_nine v)
  rw [← canonicalBytes_eq] at hbytes
  have hlen : (b :: bs).length = lenOfFirst b := by rw [← hbytes, canonicalBytes_length, hb]
  rw [execDecode_whole hi hlen (hbytes ▸ hsrc), ← hbytes, takenResult_canonicalBytes]

/-- Settles O36: what ENCODE has left in DST reads back as the canonical encoding, and DECODE of a source that begins
with it answers the value. -/
theorem encodeThenDecode : Obligations.EncodeThenDecode := by
  intro v c s t hi hc hfit ht u bs tail hu hbs hsrc
  obtain rfl : encodeResult v c s = t := by simpa using (execEncode_fits hi hc hfit).symm.trans ht
  have hread : bs.map some = (canonicalBytes v).map some := by
    rw [hbs, show (encodeResult v c s).enc.rlen.toNat = encLen v from encLen_nib_toNat v]
    exact map_read_writeBytes_canonicalBytes s.dst v
  obtain rfl : bs = canonicalBytes v := List.map_injective_iff.2 (Option.some_injective _) hread
  have hn : BitVec.ofNat 4 (canonicalBytes v).length = (encodeResult v c s).enc.rlen := by
    rw [canonicalBytes_length]
    rfl
  refine ⟨_, execDecode_canonicalBytes hu hsrc, rfl, rfl, rfl, hn, (decAccept_src _).1, rfl, ?_⟩
  rw [← hn]
  exact List.getLast?_concat

/-! ### The wire forms -/

/-- The result of a short form whose payload fits (30_encoding R71, R77). -/
theorem takenResult_shortBytes (s : State) {len : Nat} {v : Word} (h1 : 1 ≤ len) (h8 : len ≤ 8)
    (hv : v.toNat < 2 ^ (7 * len)) : takenResult s (shortBytes len v) = shortResult len v s := by
  have hpay := payloadOf_formBytes h1 (by omega) ((fitsForm_short h8).2 hv)
  have hacc : leAsm (shortBytes len v) = wireWord len v := leAsm_wordBytes (wireWord_toNat_lt h1 h8 hv)
  rw [formBytes_short v h8] at hpay
  have h9 : len ≠ 9 := by omega
  rw [takenResult, assembled, Laws.FirstByte.length_shortBytes, hpay, hacc, if_neg h9, decide_eq_false h9]
  rfl

/-- The result of an escape form (30_encoding R73, R77). -/
theorem takenResult_escBytes (s : State) (v : Word) : takenResult s (escBytes v) = escResult v s := by
  have hacc : leAsm ((escBytes v).drop 1) = v := leAsm_wordBytes v.isLt
  have hlen : (escBytes v).length = 9 := length_formBytes 9 v
  have hbad : belowRange 9 v = decide (v.toNat < 2 ^ 56) := by simp [belowRange]
  rw [takenResult, assembled, hlen, payloadOf, if_pos rfl, if_pos rfl, hacc, hbad]
  rfl

/-- The bytes of a form, delivered to a DEC that waits for a first byte (41_decoder R130). -/
theorem takeWire_formBytes {s : State} {len : Nat} (v : Word) (hp : s.dec.ph = .head) (h1 : 1 ≤ len) (h9 : len ≤ 9) :
    takeWire (formBytes len v) s = .next (takenResult s (formBytes len v)) := by
  obtain ⟨b, bs, hbytes, hb⟩ := formBytes_eq_cons v h1 h9
  rw [hbytes]
  exact takeWire_whole hp (by rw [← hbytes, length_formBytes, hb])

theorem takeWire_shortBytes {s : State} {len : Nat} {v : Word} (hp : s.dec.ph = .head) (h1 : 1 ≤ len) (h8 : len ≤ 8)
    (hv : fitsShort len v = true) : takeWire (shortBytes len v) s = .next (shortResult len v s) := by
  have htake := takeWire_formBytes v hp h1 (show len ≤ 9 by omega)
  rwa [formBytes_short v h8, takenResult_shortBytes s h1 h8 (of_decide_eq_true hv)] at htake

/-- Settles O26: the short form of length 1. -/
theorem vi1Result : Obligations.VI1Result :=
  fun _ _ hv hp => takeWire_shortBytes hp le_rfl (by decide) hv

/-- Settles O27: the short forms of the lengths 2 to 8. -/
theorem vi2toVI8Result : Obligations.VI2toVI8Result := fun _ _ hp =>
  ⟨takeWire_shortBytes hp (by decide) (by decide), takeWire_shortBytes hp (by decide) (by decide),
    takeWire_shortBytes hp (by decide) (by decide), takeWire_shortBytes hp (by decide) (by decide),
    takeWire_shortBytes hp (by decide) (by decide), takeWire_shortBytes hp (by decide) (by decide),
    takeWire_shortBytes hp (by decide) (by decide)⟩

/-- Settles O28: the form of length 9. -/
theorem viescResult : Obligations.VIESCResult :=
  fun v s hp => (takeWire_formBytes v hp (by decide) le_rfl).trans (congrArg _ (takenResult_escBytes s v))

end Sys2Proof.Machine
end

section
/-! DECODE as the function `decode_bytes` of what the source delivers (41_decoder R143, R144). -/

namespace Sys2Proof.Machine

/-! ### `decode_bytes` -/

/-- The bytes end before the encoding the first of them begins (30_encoding R78). -/
def Truncated (bs : List Byte) : Prop := ∀ b ∈ bs.head?, bs.length < lenOfFirst b

theorem truncated_cons {b : Byte} {bs : List Byte} : Truncated (b :: bs) ↔ (b :: bs).length < lenOfFirst b := by
  simp [Truncated]

/-- Bytes either end too early, or begin with a whole encoding (30_encoding R78). -/
theorem truncated_or_whole (bs : List Byte) : Truncated bs ∨
    ∃ b pre more, bs = b :: pre ++ more ∧ (b :: pre).length = lenOfFirst b := by
  cases bs with
  | nil => exact .inl nofun
  | cons b bs =>
    obtain h | h := Nat.lt_or_ge (b :: bs).length (lenOfFirst b)
    · exact .inl (truncated_cons.2 h)
    · obtain ⟨n, hn⟩ : ∃ n, lenOfFirst b = n + 1 := ⟨lenOfFirst b - 1, by have := lenOfFirst_range b; omega⟩
      refine .inr ⟨b, bs.take n, bs.drop n, by simp, ?_⟩
      simp only [List.length_cons, List.length_take] at h ⊢
      omega

theorem decodeBytes_truncated {bs : List Byte} (k : Nib) (h : Truncated bs) :
    decodeBytes bs k = (.endOfInput, 0, k, bs.length) := by
  cases bs with
  | nil => rfl
  | cons b bs =>
    have hlt := truncated_cons.1 h
    unfold lenOfFirst at hlt
    rw [decodeBytes]
    by_cases hb : b = 0x00
    · rw [if_pos hb] at hlt ⊢
      exact if_pos hlt
    · rw [if_neg hb] at hlt ⊢
      exact if_pos hlt

/-- A whole encoding, whatever follows it: the payload, or MalformedVarint (41_decoder R137 to R141). -/
theorem decodeBytes_whole {b : Byte} {pre : List Byte} (more : List Byte) (k : Nib)
    (hlen : (b :: pre).length = lenOfFirst b) :
    decodeBytes (b :: pre ++ more) k =
      if belowRange (b :: pre).length (payloadOf (b :: pre).length (b :: pre)) then
        (.malformedVarint, 0, 0, (b :: pre).length)
      else (.ok, payloadOf (b :: pre).length (b :: pre), 0, (b :: pre).length) := by
  have htake : (b :: pre ++ more).take (lenOfFirst b) = b :: pre := List.take_left' hlen
  have hge : ¬ (b :: pre ++ more).length < lenOfFirst b := by rw [List.length_append]; omega
  rw [hlen]
  by_cases hb : b = 0x00
  · have h9 : lenOfFirst b = 9 := (lenOfFirst_eq_nine_iff b).2 hb
    have hbody : ((b :: pre ++ more).drop 1).take 8 = pre := List.take_left' (by simpa [h9] using hlen)
    rw [h9] at hge
    rw [List.cons_append] at hge hbody ⊢
    rw [h9, decodeBytes, if_pos hb, if_neg hge, hbody]
    simp [payloadOf, belowRange]
  · have h9 : lenOfFirst b ≠ 9 := mt (lenOfFirst_eq_nine_iff b).1 hb
    have hl : 1 + (ctz8 b).toNat = lenOfFirst b := (if_neg hb).symm
    rw [List.cons_append, decodeBytes, if_neg hb]
    simp only [hl, ← List.cons_append, if_neg hge, htake, payloadOf, if_neg h9, belowRange, shr64, decide_eq_true_eq]

/-! ### A source that ends, or fails, before the encoding does -/

theorem memRead_err {s : State} {k : Nib} {es : List SrcEvent} (h : s.src = .err k :: es) :
    memRead s = some (.err k, (s.setSrc es).emit (.srcErr k)) := by
  simp [memRead, h]

theorem memRead_stall {s : State} (h : s.src = []) : memRead s = none := by
  simp [memRead, h]

/-- DEC counts the bytes it takes in (41_decoder R136). -/
theorem Dec.first_moreAll_cnt (b : Byte) (bs : List Byte) (d : Dec) :
    ((d.first b).moreAll bs).cnt = BitVec.ofNat 4 (b :: bs).length := by
  obtain ⟨hcnt, -⟩ := Dec.first_cnt_len b d
  have hone : (d.first b).cnt = BitVec.ofNat 4 1 := BitVec.eq_of_toNat_eq hcnt
  rw [Dec.moreAll, hone, List.length_cons, Nat.add_comm, BitVec.ofNat_add]

/-- With the bytes of a truncated encoding in, DECODE has at least one more to read (41_decoder R136). -/
theorem readAll_truncated_cons {s : State} {b : Byte} {bs : List Byte} {tail : List SrcEvent}
    (ht : Truncated (b :: bs)) (hsrc : s.src = (b :: bs).map SrcEvent.byte ++ tail) : ∃ n, readAll s =
      readRest (n + 1) ((s.dec.first b).moreAll bs).pos
        (((s.setSrc tail).bytesIn (b :: bs)).setDec ((s.dec.first b).moreAll bs)) := by
  have hlt := truncated_cons.1 ht
  refine ⟨lenOfFirst b - (b :: bs).length - 1, ?_⟩
  rw [readAll_bytes hlt.le hsrc, Nat.sub_add_cancel (by omega)]

/-- An error where DEC waits for a byte of an encoding ends DECODE with EndOfInput, its kind, and the bytes consumed
(41_decoder R131, R136). -/
theorem readAll_truncated_err {s : State} {bs : List Byte} {k : Nib} {rest : List SrcEvent} (ht : Truncated bs)
    (hsrc : s.src = bs.map SrcEvent.byte ++ .err k :: rest) : ∃ d, readAll s =
      ((((s.setSrc rest).bytesIn bs).emit (.srcErr k)).setDec d).raise (.endOfInput k (BitVec.ofNat 4 bs.length)) := by
  cases bs with
  | nil =>
    rw [readAll, memRead_err hsrc, State.bytesIn_nil]
    exact ⟨s.dec, rfl⟩
  | cons b bs =>
    obtain ⟨n, hread⟩ := readAll_truncated_cons ht hsrc
    rw [hread, ← Dec.first_moreAll_cnt b bs s.dec]
    exact ⟨_, rfl⟩

/-- A source that has no more leaves DEC waiting for the next byte (41_decoder R143). -/
theorem readAll_truncated_stall {s : State} {bs : List Byte} (hp : s.dec.ph = .head) (hc : s.dec.cnt = 0)
    (ht : Truncated bs) (hsrc : s.src = bs.map SrcEvent.byte) :
    ∃ d, d.wantsSrc = true ∧ d.cnt = BitVec.ofNat 4 bs.length ∧
      readAll s = ((s.setSrc []).bytesIn bs).setDec d := by
  cases bs with
  | nil =>
    have hs : s.setSrc [] = s := congrArg s.setSrc hsrc.symm
    rw [readAll, memRead_stall hsrc, State.bytesIn_nil, hs]
    exact ⟨s.dec, wantsSrc_iff.2 (.inl hp), hc, rfl⟩
  | cons b bs =>
    obtain ⟨n, hread⟩ := readAll_truncated_cons (tail := []) ht (hsrc.trans (List.append_nil _).symm)
    exact ⟨{ (s.dec.first b).moreAll bs with ph := .cont }, rfl, Dec.first_moreAll_cnt b bs s.dec, hread⟩

/-! ### DECODE -/

theorem execDecode_idle {s : State} (hi : s.dec.ph = .idle) : execDecode s = .next (readAll (decAccept s)).deliverDec :=
  if_pos hi

/-- DECODE waits unless DEC is in `IDLE` (41_decoder R148). -/
theorem execDecode_waits {s : State} (hi : s.dec.ph ≠ .idle) : execDecode s = .next s := if_neg hi

/-- DECODE of too few bytes and then an error (41_decoder R131, R136). -/
theorem execDecode_truncated_err {s : State} {bs : List Byte} {k : Nib} {rest : List SrcEvent} (hi : s.dec.ph = .idle)
    (ht : Truncated bs) (hsrc : s.src = bs.map SrcEvent.byte ++ .err k :: rest) :
    ∃ d : Dec, execDecode s = .next { s with
      src := rest, cursor := s.cursor + bs.length
      trace := s.trace ++ [.decCmd] ++ bs.map Event.srcByte ++ [.srcErr k] ++
        [.decRsp .endOfInput 0 k (BitVec.ofNat 4 bs.length)]
      dec := { d with
        ph := .idle, status := .endOfInput, value := 0, kind := k, nread := BitVec.ofNat 4 bs.length } } := by
  obtain ⟨d, hread⟩ := readAll_truncated_err ht ((decAccept_src s).1.trans hsrc)
  refine ⟨d, ?_⟩
  rw [execDecode_idle hi, hread, deliverDec_resp rfl, decAccept_idle hi]
  rfl

/-- DECODE of too few bytes, after which the source stalls (41_decoder R143). -/
theorem execDecode_truncated_stall {s : State} {bs : List Byte} (hi : s.dec.ph = .idle) (ht : Truncated bs)
    (hsrc : s.src = bs.map SrcEvent.byte) :
    ∃ d : Dec, d.wantsSrc = true ∧ d.cnt = BitVec.ofNat 4 bs.length ∧ execDecode s = .next { s with
      src := [], cursor := s.cursor + bs.length, trace := s.trace ++ [.decCmd] ++ bs.map Event.srcByte, dec := d } := by
  have hacc := decAccept_idle hi
  obtain ⟨d, hw, hc, hread⟩ := readAll_truncated_stall (s := decAccept s) (by rw [hacc]; rfl) (by rw [hacc]; rfl) ht
    ((decAccept_src s).1.trans hsrc)
  have hp : d.ph ≠ .resp := by
    obtain hp | hp := wantsSrc_iff.1 hw <;> simp [hp]
  refine ⟨d, hw, hc, ?_⟩
  rw [execDecode_idle hi, hread, deliverDec_waits hp, hacc]
  rfl

theorem Truncated.length_lt {bs : List Byte} (h : Truncated bs) : bs.length < 9 := by
  cases bs with
  | nil => decide
  | cons b bs =>
    have hlt := truncated_cons.1 h
    have := lenOfFirst_range b
    omega

/-- Settles O32: the bytes begin with a whole encoding, which DECODE takes and answers, or they end before one does, and
then comes the error or the stall. -/
theorem decodeIsAFunctionOfTheBytes : Obligations.DecodeIsAFunctionOfTheBytes := by
  constructor
  · intro s bs k rest hi hsrc st v kd n hdec
    obtain ht | ⟨b, pre, more, rfl, hlen⟩ := truncated_or_whole bs
    · obtain ⟨d, hexec⟩ := execDecode_truncated_err hi ht hsrc
      rw [decodeBytes_truncated k ht] at hdec
      cases hdec
      exact ⟨_, hexec, by simp, rfl, rfl, rfl, rfl, rfl, rfl, rfl⟩
    · rw [List.map_append, List.append_assoc] at hsrc
      have hexec := execDecode_whole hi hlen hsrc
      have hacc := decAccept_idle (s := s.setSrc (more.map SrcEvent.byte ++ .err k :: rest)) hi
      refine ⟨_, hexec, ?_⟩
      rw [decodeBytes_whole more k hlen] at hdec
      rw [takenResult, hacc]
      cases hbad : belowRange (b :: pre).length (payloadOf (b :: pre).length (b :: pre)) <;> rw [hbad] at hdec <;>
        cases hdec
      · simp [wireResult]
      · simp [wireResult]
  · intro s bs hi hsrc ht
    obtain ⟨d, hw, hc, hexec⟩ := execDecode_truncated_stall hi ht hsrc
    refine ⟨_, hexec, rfl, rfl, rfl, hw, ?_⟩
    have := Truncated.length_lt ht
    rw [hc, nib_ofNat_toNat (by omega)]

end Sys2Proof.Machine
end

section
/-! The micro-steps of DEC as equations, one per row of the table (41_decoder R147), and DEC's waits (R148, R149). -/

namespace Sys2Proof.Machine

section
variable {s : State}

/-! ### Source events -/

theorem srcStep_byte_head {b : Byte} {es : List SrcEvent} (hp : s.dec.ph = .head) (hsrc : s.src = .byte b :: es) :
    srcStep s = ((s.setSrc es).byteIn b).takeUp (s.dec.first b) := by
  rw [srcStep, if_pos (wantsSrc_iff.2 (.inl hp)), memRead_byte hsrc]
  simp only [decTake, show ((s.setSrc es).byteIn b).dec.ph = .head from hp, decFirst_eq]
  rfl

theorem srcStep_byte_cont {b : Byte} {es : List SrcEvent} (hp : s.dec.ph = .cont) (hsrc : s.src = .byte b :: es) :
    srcStep s = ((s.setSrc es).byteIn b).takeUp (s.dec.more b) := by
  rw [srcStep, if_pos (wantsSrc_iff.2 (.inr hp)), memRead_byte hsrc]
  have hcont : ((s.setSrc es).byteIn b).dec.ph = .cont := hp
  simp only [decTake, hcont, decMore_eq b hcont]
  rfl

theorem srcStep_err_head {k : Nib} {es : List SrcEvent} (hp : s.dec.ph = .head) (hsrc : s.src = .err k :: es) :
    srcStep s = ((s.setSrc es).emit (.srcErr k)).raise (.endOfInput k 0) := by
  rw [srcStep, if_pos (wantsSrc_iff.2 (.inl hp)), memRead_err hsrc]
  simp [decTake, hp]

theorem srcStep_err_cont {k : Nib} {es : List SrcEvent} (hp : s.dec.ph = .cont) (hsrc : s.src = .err k :: es) :
    srcStep s = ((s.setSrc es).emit (.srcErr k)).raise (.endOfInput k s.dec.cnt) := by
  rw [srcStep, if_pos (wantsSrc_iff.2 (.inr hp)), memRead_err hsrc]
  simp [decTake, hp]

/-- A source that has nothing waits (41_decoder R143). -/
theorem srcStep_stall (hsrc : s.src = []) : srcStep s = s := by
  rw [srcStep, memRead_stall hsrc]
  exact ite_self s

/-- Source events wait in `IDLE` and `RESP` (41_decoder R149). -/
theorem srcStep_waits (hh : s.dec.ph ≠ .head) (hc : s.dec.ph ≠ .cont) : srcStep s = s :=
  if_neg fun hw => (wantsSrc_iff.1 hw).elim hh hc

/-- More bytes are to come: `CONT` (41_decoder R147). -/
theorem takeUp_more {d : Dec} (h : d.cnt ≠ d.len) : s.takeUp d = s.setDec { d with ph := .cont } := if_neg h

/-- The last byte is in: FINISH (41_decoder R147). -/
theorem takeUp_last {d : Dec} (h : d.cnt = d.len) : s.takeUp d = (s.setDec d).finish := if_pos h

end

theorem Dec.first_escMark (d : Dec) :
    d.first Config.escMark = { d with cnt := 1, esc := true, len := Config.escLen, acc := 0 } := if_pos rfl

theorem Dec.first_short {b : Byte} (hb : b ≠ Config.escMark) (d : Dec) :
    d.first b = { d with cnt := 1, esc := false, len := 1 + ctz8 b, acc := b.setWidth 64 } := if_neg hb

theorem one_add_ctz8_eq_one_iff : ∀ b : Byte, (1 : Nib) = 1 + ctz8 b ↔ ctz8 b = 0 := by decide

theorem ctz8_escMark : ctz8 Config.escMark ≠ 0 := by decide

/-- Settles O38, row by row. -/
theorem decMicroSteps : Obligations.DecMicroSteps := by
  intro s es
  refine ⟨decAccept_idle, fun hp hsrc => ?_, fun b hb hctz hp hsrc => ?_, fun b hctz hp hsrc => ?_,
    fun k hp hsrc => srcStep_err_head hp hsrc, fun b hp hsrc => ?_, fun k hp hsrc => srcStep_err_cont hp hsrc,
    fun v bad hv hbad => ?_, deliverDec_resp⟩
  · rw [srcStep_byte_head hp hsrc, show (0x00 : Byte) = Config.escMark from rfl, Dec.first_escMark,
      takeUp_more (show (1 : Nib) ≠ Config.escLen by decide)]
    rfl
  · rw [srcStep_byte_head hp hsrc, Dec.first_short hb, takeUp_more (mt (one_add_ctz8_eq_one_iff b).1 hctz)]
    rfl
  · have hb : b ≠ Config.escMark := by
      rintro rfl
      exact ctz8_escMark hctz
    rw [srcStep_byte_head hp hsrc, Dec.first_short hb, takeUp_last ((one_add_ctz8_eq_one_iff b).2 hctz), hctz]
    rfl
  · rw [srcStep_byte_cont hp hsrc]
    by_cases hlast : s.dec.cnt + 1 = s.dec.len
    · rw [takeUp_last (d := s.dec.more b) hlast, if_pos hlast]
      rfl
    · rw [takeUp_more (d := s.dec.more b) hlast, if_neg hlast, ← hp]
      rfl
  · subst hv hbad
    exact s.finish_eq

/-! ### Waits -/

theorem decCmdStep_waits {s : State} (hi : s.dec.ph ≠ .idle) : decCmdStep s = s := if_neg fun h => hi h.1

theorem decCmdStep_noOffer {s : State} (hn : s.decCmds = 0) : decCmdStep s = s :=
  if_neg fun h => by simp [hn] at h

theorem decCmdStep_takes {s : State} (hi : s.dec.ph = .idle) (hn : 0 < s.decCmds) :
    decCmdStep s = decAccept (s.setDecCmds (s.decCmds - 1)) := if_pos ⟨hi, hn⟩

/-- A turn for a whole DECODE waits where no command is on offer, or DEC is busy (41_decoder R148). -/
theorem runOp_decCmd_waits {s : State} (h : ¬ (s.dec.ph = .idle ∧ 0 < s.decCmds)) : runOp .decCmd s = .next s := by
  rw [runOp, fetch, offered, if_neg h]
  rfl

/-- A turn for a whole encoding, where DEC does not wait for a first byte, is a turn of the source alone. -/
theorem runOp_src_of_not_head {s : State} (hp : s.dec.ph ≠ .head) : runOp .src s = .next (srcStep s) := by
  rw [runOp, fetch, offered, if_neg hp]
  rfl

/-- Settles O34: a busy DEC leaves the command on offer; an idle one takes it by D-ACCEPT. -/
theorem decodeWaitsWhileBusy : Obligations.DecodeWaitsWhileBusy := by
  refine ⟨fun s hi => execDecode_waits hi, fun s q hi => ⟨?_, ?_⟩, fun s q hi hn => ?_⟩
  · exact congrArg _ (decCmdStep_waits (s := s.setSched q) hi)
  · exact runOp_decCmd_waits (s := s.setSched q) fun h => hi h.1
  · have htake := (decCmdStep_takes (s := s.setSched q) hi hn).trans (decAccept_idle hi)
    exact ⟨_, congrArg _ htake, rfl, rfl, rfl, rfl⟩

/-- Settles O29: no form begins but in `PREFIX`, and in `IDLE` and `RESP` DEC asks for no source event. -/
theorem wireWaitsUnlessDecReads : Obligations.WireWaitsUnlessDecReads := by
  refine ⟨fun i s hi hp => ?_, fun s q hp => ?_⟩
  · rw [exec_wire s hi, takeWire, if_neg hp]
  · have hh : s.dec.ph ≠ .head := by obtain hp | hp := hp <;> simp [hp]
    have hc : s.dec.ph ≠ .cont := by obtain hp | hp := hp <;> simp [hp]
    have hwait : srcStep (s.setSched q) = s.setSched q := srcStep_waits hh hc
    exact ⟨congrArg _ hwait, (runOp_src_of_not_head (s := s.setSched q) hh).trans (congrArg _ hwait)⟩

end Sys2Proof.Machine
end

section
/-! The whole DECODE is its micro-steps (41_decoder R144, 92_eei_decisions D23): the reads of DECODE are at most nine
source events taken one by one. -/

namespace Sys2Proof.Machine

/-! ### Source events one after another -/

theorem iterate_srcStep_fixed {s : State} (h : srcStep s = s) (n : Nat) : srcStep^[n] s = s :=
  Function.iterate_fixed h n

theorem srcStep_fixed_of_resp {s : State} (hp : s.dec.ph = .resp) : srcStep s = s :=
  srcStep_waits (by simp [hp]) (by simp [hp])

/-- Amid an encoding, source events one by one do what the continuation reads do (41_decoder R133, R136, R147). -/
theorem iterate_srcStep_takeUp {d : Dec} {m n : Nat} (s : State) (hd : d.Reading)
    (hm : m + d.cnt.toNat = d.len.toNat) (hmn : m ≤ n) :
    srcStep^[n] (s.takeUp d) = readRest m d.pos (s.setDec d) := by
  induction m generalizing n s d with
  | zero =>
    have hlast : d.cnt = d.len := BitVec.eq_of_toNat_eq (by omega)
    rw [takeUp_last hlast, iterate_srcStep_fixed (srcStep_fixed_of_resp (State.finish_phase _))]
    rfl
  | succ m ih =>
    have hlt : d.cnt.toNat < d.len.toNat := by omega
    obtain ⟨n, rfl⟩ : ∃ j, n = j + 1 := ⟨n - 1, by omega⟩
    rw [takeUp_more (fun he => by simp [he] at hlt), readRest]
    obtain ⟨hs, -⟩ | ⟨b, es, hs, -⟩ | ⟨k, es, hs, -⟩ := memRead_cases s
    · rw [memRead_stall (s := s.setDec d) hs,
        iterate_srcStep_fixed (srcStep_stall (s := s.setDec { d with ph := .cont }) hs)]
      rfl
    · have hstep : srcStep (s.setDec { d with ph := .cont }) = ((s.setSrc es).byteIn b).takeUp (d.more b) :=
        (srcStep_byte_cont (s := s.setDec { d with ph := .cont }) rfl hs).trans
          (((s.setSrc es).byteIn b).takeUp_setDec_ph (d.more b) { d with ph := .cont } .cont)
      rw [memRead_byte (s := s.setDec d) hs, Function.iterate_succ_apply, hstep,
        ih _ (hd.more b hlt) (Dec.more_remaining b hm) (by omega), Dec.more_pos b hd hlt]
      rfl
    · have hstep : srcStep (s.setDec { d with ph := .cont }) =
          (((s.setDec d).setSrc es).emit (.srcErr k)).raise (.endOfInput k d.cnt) :=
        srcStep_err_cont (s := s.setDec { d with ph := .cont }) rfl hs
      rw [memRead_err (s := s.setDec d) hs, Function.iterate_succ_apply, hstep,
        iterate_srcStep_fixed (srcStep_fixed_of_resp rfl)]
      rfl

/-- From its command on, DECODE reads at most nine source events (41_decoder R144, 70_reset R232). -/
theorem iterate_srcStep_eq_readAll {s : State} (hp : s.dec.ph = .head) : srcStep^[9] s = readAll s := by
  obtain ⟨hs, -⟩ | ⟨b, es, hs, -⟩ | ⟨k, es, hs, -⟩ := memRead_cases s
  · rw [iterate_srcStep_fixed (srcStep_stall hs), readAll, memRead_stall hs]
  · obtain ⟨hcnt, hlen⟩ := Dec.first_cnt_len b s.dec
    have hrange := lenOfFirst_range b
    rw [Function.iterate_succ_apply, srcStep_byte_head hp hs, readAll_cons hs]
    exact iterate_srcStep_takeUp _ (Dec.first_reading b s.dec) (by omega) (by omega)
  · rw [Function.iterate_succ_apply, srcStep_err_head hp hs, iterate_srcStep_fixed (srcStep_fixed_of_resp rfl), readAll,
      memRead_err hs]

/-! ### The turns -/

/-- The command, nine source events and the response are the whole DECODE, or one wait after another. -/
theorem runOp_decCmd_eq {s : State} (hi : s.dec.ph = .idle) :
    runOp .decCmd s = .next (srcStep^[9] (decCmdStep s)).deliverDec := by
  obtain hn | hn := Nat.eq_zero_or_pos s.decCmds
  · have hwait : srcStep s = s := srcStep_waits (by simp [hi]) (by simp [hi])
    rw [runOp_decCmd_waits (by simp [hn]), decCmdStep_noOffer hn, iterate_srcStep_fixed hwait,
      deliverDec_waits (by simp [hi])]
  · have hfetch := fetch_decCmd hi (show s.decCmds = (s.decCmds - 1) + 1 by omega)
    have hhead : (decAccept (s.setDecCmds (s.decCmds - 1))).dec.ph = .head := by
      rw [decAccept_idle (s := s.setDecCmds (s.decCmds - 1)) hi]
      rfl
    rw [runOp, hfetch, decCmdStep_takes hi hn, iterate_srcStep_eq_readAll hhead]
    exact execDecode_idle (s := s.setDecCmds (s.decCmds - 1)) hi

/-- What depends on DEC's side alone does not look at the schedule, and leaves it. -/
theorem setSched_of_decOnto {f : State → State} (hf : ∀ r s : State, f (r.decOnto s) = r.decOnto (f s)) (s : State)
    (q : List Turn) : f (s.setSched q) = (f s).setSched q := by
  have hself (r : State) (hr : r.decOnto { s with trace := [] } = r) : f r = r.decOnto (f { s with trace := [] }) := by
    rw [← hf, hr]
  rw [hself (s.setSched q) (decOnto_self rfl rfl rfl rfl), hself s (decOnto_self rfl rfl rfl rfl)]
  rfl

theorem decCmdStep_setSched (s : State) (q : List Turn) : decCmdStep (s.setSched q) = (decCmdStep s).setSched q :=
  setSched_of_decOnto decOnto_decCmdStep s q

theorem iterate_srcStep_setSched (n : Nat) (s : State) (q : List Turn) :
    srcStep^[n] (s.setSched q) = (srcStep^[n] s).setSched q :=
  have hcomm : Function.Commute srcStep (State.setSched · q) := fun s => setSched_of_decOnto decOnto_srcStep s q
  hcomm.iterate_left n s

/-- A run of turns of the source. -/
theorem runSteps_srcEvents (n k : Nat) (s : State) (q : List Turn) :
    runSteps (n + k) (s.setSched (List.replicate n .srcEvent ++ q)) = runSteps k ((srcStep^[n] s).setSched q) := by
  induction n generalizing s with
  | zero => rw [Nat.zero_add]; rfl
  | succ n ih =>
    rw [List.replicate_succ, List.cons_append, Nat.add_right_comm, runSteps_succ, turn, andThen_next,
      setSched_of_decOnto decOnto_srcStep, ih, Function.iterate_succ_apply]

theorem microDecode_append (q : List Turn) :
    microDecode ++ q = .decCmd :: (List.replicate 9 .srcEvent ++ .decRsp :: q) := rfl

/-- The run of one DECODE's micro-steps: the command, nine source events, the response. -/
theorem runSteps_microDecode (s : State) (q : List Turn) :
    runSteps 11 (s.setSched (microDecode ++ q)) = .next (srcStep^[9] (decCmdStep (s.setSched q))).deliverDec := by
  have hsrc := runSteps_srcEvents 9 1 (decCmdStep s) (.decRsp :: q)
  rw [microDecode_append, runSteps_succ, turn, andThen_next, decCmdStep_setSched, hsrc, runSteps_succ,
    decCmdStep_setSched, iterate_srcStep_setSched]
  rfl

/-- Settles O40: both are the command, nine source events one by one, and the response. -/
theorem decodeIsItsMicroSteps : Obligations.DecodeIsItsMicroSteps :=
  fun s q hi => (runSteps_microDecode s q).trans (runOp_decCmd_eq (s := s.setSched q) hi).symm

end Sys2Proof.Machine
end

section
/-! The shifter, the comparator, the byte operations and the threshold tables (42_shifter_comparator R170 to R178). -/

namespace Sys2Proof.Machine

/-! ### Byte assembly -/

/-- While no byte is lost at the top, a further byte at the bottom is one more digit in base 256 (R175). -/
theorem leAsm_cons_toNat (b : Byte) {bs : List Byte} (h : bs.length ≤ 7) :
    (leAsm (b :: bs)).toNat = b.toNat + (leAsm bs).toNat * 2 ^ 8 := by
  have hbs : (leAsm bs).toNat < 2 ^ 56 := (leAsm_toNat_lt bs).trans_le (Nat.pow_le_pow_right (by decide) (by omega))
  have hshl : (shl64 (leAsm bs) 8).toNat = (leAsm bs).toNat <<< 8 := by
    rw [shl64, BitVec.toNat_shiftLeft, Nat.shiftLeft_eq]
    omega
  rw [leAsm, BitVec.toNat_or, setWidth_byte_toNat, hshl, Nat.lor_comm, ← Nat.shiftLeft_add_eq_or_of_lt b.isLt,
    Nat.shiftLeft_eq, Nat.add_comm]

/-- The sum of R175, from place `k` on. -/
theorem sum_mapIdx_from (k : Nat) {bs : List Byte} (h : bs.length ≤ 8) :
    (bs.mapIdx fun j b => b.toNat * 2 ^ (8 * (k + j))).sum = (leAsm bs).toNat * 2 ^ (8 * k) := by
  induction bs generalizing k with
  | nil => simp [leAsm]
  | cons b bs ih =>
    rw [List.length_cons] at h
    have htail := ih (k + 1) (by omega)
    simp only [Nat.add_right_comm k 1] at htail
    rw [List.mapIdx_cons, List.sum_cons]
    simp only [← Nat.add_assoc, htail, leAsm_cons_toNat b (show bs.length ≤ 7 by omega)]
    ring

theorem shl64_leAsm_cons (b : Byte) (bs : List Byte) (k : Nat) :
    shl64 (leAsm (b :: bs)) (8 * k) = shl64 (b.setWidth 64) (8 * k) ||| shl64 (leAsm bs) (8 * (k + 1)) := by
  simp only [leAsm, shl64, BitVec.shiftLeft_or_distrib, ← BitVec.shiftLeft_add, Nat.mul_succ, Nat.add_comm 8]

/-- The OR of R175, from place `k` on. -/
theorem foldr_mapIdx_from (k : Nat) (bs : List Byte) :
    (bs.mapIdx fun j b => shl64 (b.setWidth 64) (8 * (k + j))).foldr (· ||| ·) 0 = shl64 (leAsm bs) (8 * k) := by
  induction bs generalizing k with
  | nil => simp [leAsm, shl64]
  | cons b bs ih =>
    have htail := ih (k + 1)
    simp only [Nat.add_right_comm k 1] at htail
    rw [List.mapIdx_cons, List.foldr_cons, shl64_leAsm_cons]
    simp only [← Nat.add_assoc, htail, Nat.add_zero]

theorem leAsm_toNat_eq_sum {bs : List Byte} (h : bs.length ≤ 8) :
    (leAsm bs).toNat = (bs.mapIdx fun j b => b.toNat * 2 ^ (8 * j)).sum := by
  simpa using (sum_mapIdx_from 0 h).symm

theorem leAsm_eq_or (bs : List Byte) :
    leAsm bs = (bs.mapIdx fun j b => shl64 (b.setWidth 64) (8 * j)).foldr (· ||| ·) 0 := by
  simpa [shl64] using (foldr_mapIdx_from 0 bs).symm

/-- Settles O12: byte by byte, LE_ASM is the number with these base-256 digits, and the OR of its shifted bytes. -/
theorem bytePickAndAssembly : Obligations.BytePickAndAssembly :=
  ⟨fun x j _ _ hn => getLsbD_byteOf x j hn,
    fun bs _ h8 => ⟨leAsm_toNat_eq_sum h8, leAsm_eq_or bs, fun _ hj => byteOf_leAsm hj (by omega), leAsm_toNat_lt bs⟩⟩

/-! ### The shifter -/

theorem shl64_toNat (x : Word) (n : Nat) : (shl64 x n).toNat = x.toNat * 2 ^ n % 2 ^ 64 := by
  rw [shl64, BitVec.toNat_shiftLeft, Nat.shiftLeft_eq]

theorem shr64_toNat (x : Word) (n : Nat) : (shr64 x n).toNat = x.toNat / 2 ^ n := by
  rw [shr64, BitVec.toNat_ushiftRight, Nat.shiftRight_eq_div_pow]

theorem getLsbD_shl64 (x : Word) {n i : Nat} (hi : i < 64) :
    (shl64 x n).getLsbD i = (decide (n ≤ i) && x.getLsbD (i - n)) := by
  rw [shl64, BitVec.getLsbD_shiftLeft, decide_eq_true hi, Bool.true_and, ← decide_not, decide_eq_decide.2 not_lt]

theorem getLsbD_shr64 (x : Word) (n i : Nat) :
    (shr64 x n).getLsbD i = (decide (i + n ≤ 63) && x.getLsbD (i + n)) := by
  rw [shr64, BitVec.getLsbD_ushiftRight, Nat.add_comm n i]
  by_cases h : i + n ≤ 63
  · simp [h]
  · simp [h, BitVec.getLsbD_of_ge x (i + n) (by omega)]

/-- Settles O9: arithmetic and bits of each shift; by 64 and more, nothing is left. -/
theorem shiftsBitByBit : Obligations.ShiftsBitByBit := fun x n =>
  ⟨shl64_toNat x n, fun _ hi => getLsbD_shl64 x hi, BitVec.shiftLeft_eq_zero,
    shr64_toNat x n, fun i _ => getLsbD_shr64 x n i, BitVec.ushiftRight_eq_zero⟩

/-! ### The comparator -/

theorem lt64_eq_true {a b : Word} : lt64 a b = true ↔ a.toNat < b.toNat := by simp [lt64]

theorem lt64_eq_not_ge64 (a b : Word) : lt64 a b = !(ge64 a b) := by
  rw [lt64, ge64, ← decide_not, decide_eq_decide, not_le]

/-- Settles O10: the order of the unsigned values; every rung is at most 2^56. -/
theorem comparatorUnsigned : Obligations.ComparatorUnsigned := by
  refine ⟨fun a b => ⟨ge64_eq_true, lt64_eq_true, lt64_eq_not_ge64 a b⟩,
    fun a => ⟨ge64_eq_true.2 le_rfl, lt64_eq_false.2 le_rfl⟩, fun k _ h8 => ge64_eq_true.2 ?_⟩
  rw [rungT_toNat (by omega)]
  calc 2 ^ (7 * k) ≤ 2 ^ 63 := Nat.pow_le_pow_right (by decide) (by omega)
    _ = (0x8000000000000000 : Word).toNat := rfl

/-! ### The trailing-zero count -/

/-- A set bit above clear ones is where the scan of R173 stops. -/
theorem ctz8_toNat_of_lowest {b : Byte} (k : Fin 8) (hk : b.getLsbD k.val = true)
    (hlow : ∀ i : Fin 8, i < k → b.getLsbD i.val = false) : (ctz8 b).toNat = k.val := by
  fin_cases k <;> simp_all [ctz8, Fin.forall_fin_succ]

theorem exists_lowest_bit {b : Byte} (h : b ≠ 0) :
    ∃ k : Fin 8, b.getLsbD k.val = true ∧ ∀ i : Fin 8, i < k → b.getLsbD i.val = false := by
  have hset : ∃ k : Fin 8, b.getLsbD k.val = true := by
    by_contra! hclear
    exact h (BitVec.eq_of_getLsbD_eq fun i hi => by simpa using hclear ⟨i, hi⟩)
  obtain ⟨k, hk, hmin⟩ := WellFounded.has_min (wellFounded_lt (α := Fin 8)) {k | b.getLsbD k.val = true} hset
  exact ⟨k, hk, fun i hi => by simpa using fun hb => hmin i hb hi⟩

/-- Settles O11: a byte other than zero has a lowest set bit, and the scan stops there. -/
theorem trailingZeroCount : Obligations.TrailingZeroCount := by
  refine ⟨fun b hb => ?_, rfl⟩
  obtain ⟨k, hk, hlow⟩ := exists_lowest_bit hb
  rw [ctz8_toNat_of_lowest k hk hlow]
  exact ⟨k.isLt, hk, hlow⟩

/-! ### The threshold tables -/

/-- Settles O13: the ladder climbs by SHL64 from 2^7 to 2^56, and the minimum of a length is the rung below it. -/
theorem thresholdTables : Obligations.ThresholdTables := by
  refine ⟨rfl, fun k _ h8 => rungT_toNat (by omega), rfl, rfl, fun k _ _ => (shl64_rungT k).symm, fun len h2 h8 =>
    ⟨?_, minM_toNat h2 (by omega)⟩⟩
  exact if_neg (by omega)

end Sys2Proof.Machine
end

section
/-! Only a canonical encoding ends with OK, and an error carries no value (60_exceptions R193, R194, R197). -/

namespace Sys2Proof.Machine

/-- FINISH's check fails on a payload that fits its form exactly when the value owns another length (30_encoding R75 to
R77). -/
theorem belowRange_of_fitsForm {len : Nat} {v : Word} (h1 : 1 ≤ len) (h9 : len ≤ 9) (hv : fitsForm len v = true) :
    belowRange len v = !decide (encLen v = len) := by
  rw [belowRange, ← decide_not, decide_eq_decide]
  obtain rfl | rfl | ⟨h2, h8⟩ : len = 1 ∨ len = 9 ∨ 2 ≤ len ∧ len ≤ 8 := by omega
  · have hle : encLen v ≤ 1 := (encLen_le_iff le_rfl (by decide)).2 ((fitsForm_short (by decide)).1 hv)
    have hpos := encLen_pos v
    omega
  · rw [encLen_eq_nine_iff, not_le]
    exact and_iff_right (by decide)
  · rw [← encLen_ne_iff h2 h8 ((fitsForm_short h8).1 hv)]
    exact and_iff_right h2

/-- A well-formed wire form, canonical or not, taken by a DEC that waits for a first byte (41_decoder R137 to R141). -/
theorem exec_instrOfLen {len : Nat} {v : Word} {i : Instr} {s : State} (hi : instrOfLen len v = some i)
    (hwf : i.wellFormed = true) (hp : s.dec.ph = .head) :
    exec i s = .next (wireResult s (formBytes len v) (decide (len = 9)) (assembled (formBytes len v)) v
      (!canonical i)) := by
  obtain ⟨h1, h9, henc, hfit, hcan⟩ := instrOfLen_spec hi
  have hv : fitsForm len v = true := hfit ▸ hwf
  rw [exec_wire s (isWire_of_instrOfLen hi), henc, Packet.wireBytes, takeWire_formBytes v hp h1 h9, takenResult,
    length_formBytes, payloadOf_formBytes h1 h9 hv, belowRange_of_fitsForm h1 h9 hv, hcan]

theorem wireBytes_of_canonical {len : Nat} {v : Word} {i : Instr} (hi : instrOfLen len v = some i)
    (hcan : canonical i = true) : (encode i).wireBytes = canonicalBytes v := by
  obtain ⟨-, -, henc, -, hc⟩ := instrOfLen_spec hi
  obtain rfl : encLen v = len := of_decide_eq_true (hc.symm.trans hcan)
  rw [henc, Packet.wireBytes, canonicalBytes_eq]

/-- Settles O31: FINISH refuses a payload that is not canonical, and an error before the last byte ends DECODE with
EndOfInput. -/
theorem onlyCanonicalIsOk : Obligations.OnlyCanonicalIsOk := by
  constructor
  · intro i s hw hwf hp
    obtain ⟨len, v, hi⟩ := isWire_iff.1 hw
    refine ⟨_, exec_instrOfLen hi hwf hp, ?_⟩
    cases hcan : canonical i
    case false => simp [wireResult]
    case true => simpa [wireResult] using wireBytes_of_canonical hi hcan
  · intro s bs k rest hidle hsrc ht
    obtain ⟨d, hexec⟩ := execDecode_truncated_err hidle ht hsrc
    exact ⟨_, hexec, rfl, rfl⟩

end Sys2Proof.Machine
end

section
/-! A faulted ENC does nothing until reset (60_exceptions R191, R200). -/

namespace Sys2Proof.Machine

theorem deliverEnc_waits {s : State} (hr : s.enc.ph ≠ .resp) (hf : s.enc.ph ≠ .frsp) : s.deliverEnc = s := by
  obtain ⟨h, -⟩ | ⟨h, -⟩ | ⟨-, -, heq⟩ := s.deliverEnc_cases
  · exact absurd h hr
  · exact absurd h hf
  · exact heq

/-- In `FAULT` every turn of ENC is a wait (40_encoder R110, R111). -/
theorem turn_ofEnc_faulted {a : Turn} {s : State} (ha : a.ofEnc = true) (hp : s.enc.ph = .fault) :
    turn a s = .next s := by
  obtain ⟨hcmd, hop⟩ := encCmd_waits (s := s) (.inr (by simp [hp]))
  cases a
  case encCmd => exact hcmd
  case encOwn => exact encOwn_waits (by simp [hp]) (by simp [hp])
  case encRsp => exact congrArg _ (deliverEnc_waits (by simp [hp]) (by simp [hp]))
  case op ch =>
    cases ch
    case encCmd => exact hop
    all_goals cases ha
  all_goals cases ha

theorem Turn.ofDec_or_host {a : Turn} (ha : a.ofEnc = false) (hr : a ≠ .reset) :
    a.ofDec = true ∨ ∃ b, a = .host b := by
  cases a
  case op ch =>
    cases ch
    case encCmd => cases ha
    all_goals exact .inl rfl
  case host b => exact .inr ⟨b, rfl⟩
  case reset => exact absurd rfl hr
  case decCmd | srcEvent | decRsp => exact .inl rfl
  all_goals cases ha

/-- Of the turns that are not ENC's, `reset` alone touches its registers, and the host's alone its offers. -/
theorem turn_not_ofEnc {a : Turn} {s t : State} (ha : a.ofEnc = false) (hr : a ≠ .reset) (h : turn a s = .next t) :
    t.enc = s.enc ∧ ((∀ b, a ≠ .host b) → t.encCmds = s.encCmds) := by
  obtain hb | ⟨b, rfl⟩ := Turn.ofDec_or_host ha hr
  · obtain ⟨u, -, rfl⟩ := turn_eq_decOnto hb h
    exact ⟨rfl, fun _ => rfl⟩
  · obtain ⟨henc, -⟩ := hostStep_frame h
    exact ⟨henc, fun hno => absurd rfl (hno b)⟩

/-- Settles O46: ENC's own turns are waits, and no other turn but `reset` is for ENC. -/
theorem faultedEncoderIsDead : Obligations.FaultedEncoderIsDead := by
  intro s t hp hreset h
  obtain ⟨-, heq⟩ | ⟨a, q, hs, heq⟩ := step_cases s <;> rw [heq] at h
  · rw [encOwn_waits (by simp [hp]) (by simp [hp])] at h
    cases h
    exact ⟨rfl, ⟨[], (List.append_nil _).symm, nofun⟩, fun _ => rfl⟩
  · cases ha : a.ofEnc
    case true =>
      rw [turn_ofEnc_faulted (s := s.setSched q) ha hp] at h
      cases h
      exact ⟨rfl, ⟨[], (List.append_nil _).symm, nofun⟩, fun _ => rfl⟩
    case false =>
      have hr : a ≠ .reset := by rintro rfl; simp [State.runsReset, hs] at hreset
      obtain ⟨henc, hcmds⟩ := turn_not_ofEnc ha hr h
      obtain ⟨es, htr, -, hes⟩ := turn_addsEvents h
      refine ⟨henc, ⟨es, htr, ha ▸ hes⟩, fun hhost => hcmds ?_⟩
      rintro b rfl
      simp [State.runsHost, hs] at hhost

end Sys2Proof.Machine
end

section
/-! ENC's own moves with nothing scheduled (70_reset_and_hazards R229 to R232, 40_encoder R115): a count of micro-steps
that falls with each move bounds them all. -/

namespace Sys2Proof.Machine

/-! ### One own micro-step -/

theorem encOwn_ne_refused (s : State) (r : Refusal) : encOwn s ≠ .refused r := by
  unfold encOwn
  cases s.enc.ph <;> dsimp only
  case ladder => split_ifs <;> nofun
  case emit =>
    rw [encEmit, memWrite]
    split <;> nofun
  all_goals nofun

/-- Under the invariant ENC's own micro-step always answers a next state (20_memory R52). -/
theorem encOwn_answers {s : State} (h : s.Inv) : ∃ t, encOwn s = .next t := by
  cases ht : encOwn s with
  | next t => exact ⟨t, rfl⟩
  | fault r => exact absurd ht (encOwn_ne_fault h r)
  | refused r => exact absurd ht (encOwn_ne_refused s r)

theorem encOwn_sched {s t : State} (h : encOwn s = .next t) : t.sched = s.sched := by
  obtain ⟨u, -, rfl⟩ := turn_eq_encOnto (a := .encOwn) rfl h
  rfl

theorem step_of_unscheduled {s : State} (hs : s.sched = []) : step s = encOwn s := by
  simp [step, hs]

/-! ### The micro-steps left -/

/-- ENC has a micro-step of its own (40_encoder R110). -/
def Enc.Moving (e : Enc) : Prop := e.ph = .ladder ∨ e.ph = .emit

/-- ENC has its response ready (40_encoder R110). -/
def Enc.Answered (e : Enc) : Prop := e.ph = .resp ∨ e.ph = .frsp

/-- A bound on the own micro-steps before the response (40_encoder R115): the rungs left of 8 and the nine bytes of the
longest encoding, or the bytes left to write. -/
def Enc.stepsLeft (e : Enc) : Nat :=
  match e.ph with
  | .ladder => 9 - e.len.toNat + 9
  | .emit => e.len.toNat - e.idx.toNat
  | .idle => 0
  | .resp => 0
  | .frsp => 0
  | .fault => 0

theorem Enc.stepsLeft_of_ladder {e : Enc} (h : e.ph = .ladder) : e.stepsLeft = 9 - e.len.toNat + 9 := by
  simp [Enc.stepsLeft, h]

theorem Enc.stepsLeft_of_emit {e : Enc} (h : e.ph = .emit) : e.stepsLeft = e.len.toNat - e.idx.toNat := by
  simp [Enc.stepsLeft, h]

theorem Enc.Answered.stepsLeft {e : Enc} (h : e.Answered) : e.stepsLeft = 0 := by
  obtain h | h := h <;> simp [Enc.stepsLeft, h]

/-- A moving ENC has 1 to 17 micro-steps left (40_encoder R115). -/
theorem Enc.Moving.stepsLeft_range {e : Enc} {n : Nat} (hm : e.Moving) (h : e.Inv n) :
    1 ≤ e.stepsLeft ∧ e.stepsLeft ≤ 17 := by
  obtain hp | hp := hm
  · obtain ⟨-, h1, -⟩ := (Enc.inv_of_ladder hp).1 h
    rw [Enc.stepsLeft_of_ladder hp]
    omega
  · obtain ⟨-, hlen, hidx, -⟩ := (Enc.inv_of_emit hp).1 h
    have h9 := encLen_le_nine e.val
    rw [Enc.stepsLeft_of_emit hp]
    omega

/-- `e'` is still on the way to the response or has it, and is nearer to it than `e`. -/
def Enc.Nearer (e e' : Enc) : Prop := (e'.Moving ∨ e'.Answered) ∧ e'.stepsLeft < e.stepsLeft

theorem Enc.Moving.nearer_answered {e e' : Enc} {n : Nat} (hm : e.Moving) (h : e.Inv n) (ha : e'.Answered) :
    e.Nearer e' :=
  ⟨.inr ha, ha.stepsLeft.trans_lt (hm.stepsLeft_range h).1⟩

/-- From `LADDER` the capacity check leads to the fault's response, or to at most nine writes (40_encoder R107). -/
theorem checkCap_nearer {s : State} {e : Enc} (h : s.Inv) (hp : s.enc.ph = .ladder) (he : e.LengthFixed s.dstSize) :
    s.enc.Nearer (s.setEnc e).checkCap.enc := by
  obtain ⟨-, heq⟩ | ⟨-, heq⟩ := State.checkCap_cases (s.setEnc e) <;> rw [heq]
  · exact Enc.Moving.nearer_answered (.inl hp) h.enc (.inr rfl)
  · refine ⟨.inl (.inr rfl), ?_⟩
    obtain ⟨-, -, h8, -⟩ := (Enc.inv_of_ladder hp).1 h.enc
    have hlen : e.len.toNat ≤ 9 := he.length.trans_le (encLen_le_nine e.val)
    have hleft : Enc.stepsLeft { e with idx := 0, ph := .emit } = e.len.toNat := Enc.stepsLeft_of_emit rfl
    simp only [State.setEnc_enc, hleft, Enc.stepsLeft_of_ladder hp]
    omega

/-- One rung up (40_encoder R101). -/
theorem encUp_nearer {s : State} (h : s.Inv) (hp : s.enc.ph = .ladder) : s.enc.Nearer (encUp s).enc := by
  obtain ⟨-, -, h8, -⟩ := (Enc.inv_of_ladder hp).1 h.enc
  have hnext : (s.enc.len + 1).toNat = s.enc.len.toNat + 1 := nib_succ_toNat (n := 9) (Nat.lt_succ_of_le h8)
  have hleft : (encUp s).enc.stepsLeft = 9 - (s.enc.len + 1).toNat + 9 := Enc.stepsLeft_of_ladder hp
  refine ⟨.inl (.inl hp), ?_⟩
  rw [hleft, hnext, Enc.stepsLeft_of_ladder hp]
  omega

/-- One byte written (40_encoder R110). -/
theorem encEmit_nearer {s t : State} (h : s.Inv) (hp : s.enc.ph = .emit) (ht : encEmit s = .next t) :
    s.enc.Nearer t.enc := by
  obtain ⟨-, -, hidx, -⟩ := (Enc.inv_of_emit hp).1 h.enc
  obtain ⟨-, rfl⟩ := encEmit_next ht
  obtain ⟨-, heq⟩ | ⟨-, heq⟩ := State.advance_cases ((s.setDst (Memory.write s.dst s.enc.idx.toNat s.enc.outByte)).emit
    (.dstWrite s.enc.idx s.enc.outByte)) <;> rw [heq]
  · exact Enc.Moving.nearer_answered (.inr hp) h.enc (.inl rfl)
  · have hleft : Enc.stepsLeft { s.enc with idx := s.enc.idx + 1 } = s.enc.len.toNat - (s.enc.idx + 1).toNat :=
      Enc.stepsLeft_of_emit hp
    refine ⟨.inl (.inr hp), ?_⟩
    simp only [State.setEnc_enc, State.emit_enc, State.setDst_enc, hleft, Enc.stepsLeft_of_emit hp, nib_succ_toNat hidx]
    omega

/-- Each own micro-step of a moving ENC brings it nearer to its response (70_reset R232). -/
theorem encOwn_nearer {s t : State} (h : s.Inv) (hm : s.enc.Moving) (ht : encOwn s = .next t) :
    s.enc.Nearer t.enc := by
  obtain ⟨hp, hge, hlen, rfl⟩ | ⟨hp, -, -, rfl⟩ | ⟨hp, hlt, rfl⟩ | ⟨hp, ht⟩ | ⟨hl, he, -⟩ := encOwn_cases ht
  · exact checkCap_nearer h hp (Enc.esc_lengthFixed h.enc hp hge hlen)
  · exact encUp_nearer h hp
  · exact checkCap_nearer h hp (Enc.short_lengthFixed h.enc hp hlt)
  · exact encEmit_nearer h hp ht
  · exact absurd hm (not_or.2 ⟨hl, he⟩)

/-! ### Runs with nothing scheduled -/

theorem runSteps_unscheduled (n : Nat) {s t : State} (hs : s.sched = []) (ht : encOwn s = .next t) :
    runSteps (n + 1) s = runSteps n t :=
  (core_run_succ Sys2Proof.core n s).1 t ((step_of_unscheduled hs).trans ht)

/-- As many steps as the count says, or more, lead to the response; ENC waits there (70_reset R232). -/
theorem runSteps_reaches_response (n : Nat) {s : State} (h : s.Inv) (hs : s.sched = [])
    (hph : s.enc.Moving ∨ s.enc.Answered) (hn : s.enc.stepsLeft ≤ n) :
    ∃ t, runSteps n s = .next t ∧ t.enc.Answered := by
  induction n generalizing s with
  | zero =>
    obtain hm | ha := hph
    · have := (hm.stepsLeft_range h.enc).1
      omega
    · exact ⟨s, rfl, ha⟩
  | succ n ih =>
    obtain ⟨t, ht⟩ := encOwn_answers h
    rw [runSteps_unscheduled n hs ht]
    obtain hm | ha := hph
    · obtain ⟨hpht, hlt⟩ := encOwn_nearer h hm ht
      exact ih (encOwn_inv h ht) ((encOwn_sched ht).trans hs) hpht (by omega)
    · have hwait : encOwn s = .next s := by obtain ha | ha := ha <;> exact encOwn_waits (by simp [ha]) (by simp [ha])
      obtain rfl : s = t := by simpa [hwait] using ht
      exact ih h hs (.inr ha) (ha.stepsLeft.trans_le n.zero_le)

/-- Settles O41: a moving ENC has at most 17 micro-steps left. -/
theorem encodeReachesResponse : Obligations.EncodeReachesResponse := fun _ h hs hm =>
  runSteps_reaches_response 17 h hs (.inl hm) (Enc.Moving.stepsLeft_range hm h.enc).2

/-- Settles O42: a move changes the count of micro-steps left, and with no move ENC waits. -/
theorem waitsAndEndOfRun : Obligations.WaitsAndEndOfRun := by
  intro s h hs
  rw [step_of_unscheduled hs]
  refine ⟨fun hm => ?_, encOwn_waits, fun hend => ?_⟩
  · obtain ⟨t, ht⟩ := encOwn_answers h
    obtain ⟨-, hlt⟩ := encOwn_nearer h hm ht
    exact ⟨t, ht, fun heq => absurd hlt (by simp [heq])⟩
  · obtain ⟨⟨⟨he, hd⟩, -⟩, -⟩ : ((s.enc.ph = .idle ∧ s.dec.ph = .idle) ∧ _) ∧ _ := by
      simpa [State.atEnd] using hend
    exact ⟨encOwn_waits (by simp [he]) (by simp [he]), by simp [encFault, he], by simp [Enc.busy, he],
      by simp [Dec.busy, hd]⟩

end Sys2Proof.Machine
end

section
/-! When a step is refused (70_reset_and_hazards R225 to R227): the acceptance of `enc_cmd`, and two of the host's moves. -/

namespace Sys2Proof.Machine

theorem encAccept_refused {v : Word} {c : Nib} {s : State} {r : Refusal} (h : encAccept v c s = .refused r) :
    r = .capOverstated ∧ capOverstated c s.dstSize = true := by
  unfold encAccept at h
  split at h
  · split at h
    · rename_i hc
      injection h with h
      exact ⟨h.symm, hc⟩
    · cases h
  · cases h

theorem execEncode_refused {v : Word} {c : Nib} {s : State} {r : Refusal} (h : execEncode v c s = .refused r) :
    r = .capOverstated ∧ capOverstated c s.dstSize = true := by
  obtain ⟨-, heq⟩ | ⟨-, hc, heq⟩ | ⟨-, -, -, heq⟩ | ⟨-, -, -, heq⟩ := execEncode_answers v c s <;>
    rw [heq] at h <;> cases h
  exact ⟨rfl, hc⟩

/-- A command taken, by its micro-step or by the whole ENCODE, is refused only for its `cap` (70_reset R225). -/
theorem encCmd_refused {s : State} {r : Refusal}
    (h : encCmdStep s = .refused r ∨ runOp .encCmd s = .refused r) :
    r = .capOverstated ∧ s.enc.ph = .idle ∧
      ∃ w ws, s.encCmds = w :: ws ∧ capOverstated (encWordCap w) s.dstSize = true := by
  by_cases hwait : s.encCmds = [] ∨ s.enc.ph ≠ .idle
  · obtain ⟨hcmd, hop⟩ := encCmd_waits hwait
    simp [hcmd, hop] at h
  · obtain ⟨hne, hi⟩ := not_or.1 hwait
    rw [not_ne_iff] at hi
    obtain ⟨w, ws, hw⟩ := List.exists_cons_of_ne_nil hne
    have hop : runOp .encCmd s = execEncode (encWordValue w) (encWordCap w) (s.setEncCmds ws) := by
      simp [runOp_encCmd, hw, hi]
    rw [encCmdStep_cons hi hw, hop] at h
    obtain ⟨hr, hc⟩ := h.elim encAccept_refused execEncode_refused
    exact ⟨hr, hi, w, ws, hw, hc⟩

theorem hostStep_refused {a : HostAct} {s : State} {r : Refusal} (h : hostStep a s = .refused r) :
    (r = .dstInUse ∧ s.enc.ownsDst = true ∧ ∃ bs, a = .setDst bs) ∨
    (r = .srcInUse ∧ s.dec.ownsSrc = true ∧ ∃ es, a = .setSrc es) := by
  unfold hostStep at h
  cases a <;> dsimp only at h
  case setDst bs =>
    split at h <;> cases h
    exact .inl ⟨rfl, ‹_›, bs, rfl⟩
  case setSrc es =>
    split at h <;> cases h
    exact .inr ⟨rfl, ‹_›, es, rfl⟩
  case putDst => split at h <;> cases h
  all_goals cases h

/-- What the refusals of a turn are (70_reset R225 to R227). -/
theorem turn_refused {a : Turn} {s : State} {r : Refusal} (h : turn a s = .refused r) :
    (r = .capOverstated ∧ s.enc.ph = .idle ∧
      ∃ w ws, s.encCmds = w :: ws ∧ capOverstated (encWordCap w) s.dstSize = true) ∨
    (r = .dstInUse ∧ s.enc.ownsDst = true ∧ ∃ bs, a = .host (.setDst bs)) ∨
    (r = .srcInUse ∧ s.dec.ownsSrc = true ∧ ∃ es, a = .host (.setSrc es)) := by
  cases a <;> simp only [turn] at h
  case op ch =>
    by_cases hch : ch = .encCmd
    · subst hch
      exact .inl (encCmd_refused (.inr h))
    · obtain ⟨t, ht, -⟩ := runOp_ofDec s s hch
      rw [ht] at h
      cases h
  case encCmd => exact .inl (encCmd_refused (.inl h))
  case encOwn => exact absurd h (encOwn_ne_refused s r)
  case host b =>
    obtain ⟨hr, ho, bs, rfl⟩ | ⟨hr, ho, es, rfl⟩ := hostStep_refused h
    · exact .inr (.inl ⟨hr, ho, bs, rfl⟩)
    · exact .inr (.inr ⟨hr, ho, es, rfl⟩)
  all_goals cases h

/-- Settles O51: ENC's own micro-step is never refused, and a turn only as `turn_refused` says. -/
theorem stepRefusals : Obligations.StepRefusals := by
  intro s r h
  obtain ⟨-, heq⟩ | ⟨a, q, hs, heq⟩ := step_cases s <;> rw [heq] at h
  · exact absurd h (encOwn_ne_refused s r)
  · obtain hcap | ⟨hr, ho, bs, rfl⟩ | ⟨hr, ho, es, rfl⟩ := turn_refused h
    · exact .inl hcap
    · exact .inr (.inl ⟨hr, ho, bs, q, hs⟩)
    · exact .inr (.inr ⟨hr, ho, es, q, hs⟩)

/-- Settles O23: the capacity the host states is checked against the buffer before the command is taken. -/
theorem overstatedCapRefused : Obligations.OverstatedCapRefused :=
  ⟨fun _ _ _ hi hsize => execEncode_overstated hi (decide_eq_true hsize), fun c _ h => capOverstated_of_nine_le c h⟩

end Sys2Proof.Machine
end

section
/-! Reset (70_reset_and_hazards R220, R221), and that nothing else ends the encoder fault (60_exceptions R200). -/

namespace Sys2Proof.Machine

theorem encFault_iff {e : Enc} : encFault e = true ↔ e.ph = .fault ∨ e.ph = .frsp := by simp [encFault]

/-- Taking the response keeps the encoder fault: `FRSP` goes to `FAULT` (40_encoder R110). -/
theorem deliverEnc_encFault {s : State} (hf : encFault s.enc = true) : encFault s.deliverEnc.enc = true := by
  obtain ⟨hp, -⟩ | ⟨-, heq⟩ | ⟨-, -, heq⟩ := s.deliverEnc_cases
  · simp [encFault, hp] at hf
  · rw [heq]
    rfl
  · rwa [heq]

/-- With the encoder fault set, a turn of ENC takes the response or is a wait (40_encoder R110, R111). -/
theorem turn_ofEnc_encFault {a : Turn} {s : State} (ha : a.ofEnc = true) (hf : encFault s.enc = true) :
    turn a s = .next s ∨ turn a s = .next s.deliverEnc := by
  obtain hp | hp := encFault_iff.1 hf
  · exact .inl (turn_ofEnc_faulted ha hp)
  · obtain ⟨hcmd, hop⟩ := encCmd_waits (s := s) (.inr (by simp [hp]))
    cases a
    case encCmd => exact .inl hcmd
    case encOwn => exact .inl (encOwn_waits (by simp [hp]) (by simp [hp]))
    case encRsp => exact .inr rfl
    case op ch =>
      cases ch
      case encCmd => exact .inl hop
      all_goals cases ha
    all_goals cases ha

/-- Only `reset` ends the encoder fault (60_exceptions R200). -/
theorem turn_keeps_encFault {a : Turn} {s t : State} (hr : a ≠ .reset) (hf : encFault s.enc = true)
    (h : turn a s = .next t) : encFault t.enc = true := by
  cases ha : a.ofEnc
  case false =>
    obtain ⟨henc, -⟩ := turn_not_ofEnc ha hr h
    rwa [henc]
  case true =>
    obtain heq | heq := turn_ofEnc_encFault ha hf <;> rw [heq] at h <;> cases h
    · exact hf
    · exact deliverEnc_encFault hf

theorem step_keeps_encFault {s t : State} (hf : encFault s.enc = true) (hr : s.runsReset = false)
    (h : step s = .next t) : encFault t.enc = true := by
  obtain ⟨-, heq⟩ | ⟨a, q, hs, heq⟩ := step_cases s <;> rw [heq] at h
  · exact turn_keeps_encFault (a := .encOwn) nofun hf h
  · refine turn_keeps_encFault (s := s.setSched q) ?_ hf h
    rintro rfl
    simp [State.runsReset, hs] at hr

/-- Settles O45: the reset turn sets every register, and `step_keeps_encFault` is its last clause. -/
theorem resetStep : Obligations.ResetStep :=
  ⟨fun _ _ hs => step_of_sched hs, rfl, rfl, rfl, fun _ _ hf hr h => step_keeps_encFault hf hr h⟩

/-- Settles O47: both units are in `IDLE` with their response registers 0, no byte of DST is known, and no command is
open. -/
theorem resetStateMeetsInvariant : Obligations.ResetStateMeetsInvariant :=
  ⟨(Enc.inv_of_idle rfl).2 ⟨rfl, Nat.zero_le _⟩,
    (Dec.inv_of_idle rfl).2 ⟨nofun, fun _ => rfl, fun _ => rfl, Nat.zero_le _⟩, rfl, nofun, rfl, rfl⟩

end Sys2Proof.Machine
end
